-- ==== Sys2Proof/Word.lean ====
section
/-! DEFINITION. The words of huffman_tree_builder: register words, bytes, bit sequences, counts and weights
(R7, R8 of 00_scope.md; the widths COUNT_W and WEIGHT_W of R6). -/

namespace Sys2Proof

/-- A register word: 32 bits, bit 0 the least significant (R7). -/
abbrev Word := BitVec 32

/-- A byte of IN_MEM, OUT_MEM or an artifact, and a Symbol: every value 0..255 is one (R6, R12). -/
abbrev Byte := BitVec 8

/-- A BitSeq: its first element has index 0 (R8). -/
abbrev BitSeq := List Bool

/-- A FREQ entry or header count: COUNT_W = 32 bits (R6, R39). -/
abbrev Count := BitVec 32

/-- A tree node's weight: WEIGHT_W = 40 bits (R6, R166). -/
abbrev Weight := BitVec 40

end Sys2Proof
end

