-- ==== Sys2Proof/Machine/Bits.lean ====
section
/-! DEFINITION. Bit sequences, bytes and big-endian numbers: the notation of R8 and R9 of 00_scope.md. -/

namespace Sys2Proof.Machine

/-- The bits of a byte, the most significant first (R8). -/
def bitsOfByte (x : Byte) : BitSeq :=
  [x.getLsbD 7, x.getLsbD 6, x.getLsbD 5, x.getLsbD 4, x.getLsbD 3, x.getLsbD 2, x.getLsbD 1, x.getLsbD 0]

/-- The bits of a byte list (R8). -/
def bitsOfBytes (B : List Byte) : BitSeq := B.flatMap bitsOfByte

/-- The number whose binary digits are `b`, the first the most significant. -/
def natOfBits (b : BitSeq) : Nat := b.foldl (fun n x => 2 * n + x.toNat) 0

/-- The bytes of a bit sequence of a whole number of bytes, MSB-first; R8 defines it for no other length. -/
def bytesOfBits : BitSeq → List Byte
  | b0 :: b1 :: b2 :: b3 :: b4 :: b5 :: b6 :: b7 :: rest =>
    BitVec.ofNat 8 (natOfBits [b0, b1, b2, b3, b4, b5, b6, b7]) :: bytesOfBits rest
  | _ => []

/-- `zeros(n)` (R8). -/
def zeros (n : Nat) : BitSeq := List.replicate n false

/-- `ceil8(n)` (R9). -/
def ceil8 (n : Nat) : Nat := (n + 7) / 8

/-- How many zero bits align `n` bits to a byte boundary, 0..7 (R200). -/
def padCount (n : Nat) : Nat := (8 - n % 8) % 8

/-- `bytes_of_bits(b ++ zeros(p))`: `b` packed MSB-first and zero-filled to a whole number of bytes (R200, R204). -/
def alignedBytes (b : BitSeq) : List Byte := bytesOfBits (b ++ zeros (padCount b.length))

/-- `BE16(x)` of a number below 2^16 (R9). -/
def be16 (n : Nat) : List Byte := [BitVec.ofNat 8 (n / 2 ^ 8), BitVec.ofNat 8 n]

/-- `BE32(x)` (R9). -/
def be32 (x : Word) : List Byte :=
  [x.extractLsb' 24 8, x.extractLsb' 16 8, x.extractLsb' 8 8, x.extractLsb' 0 8]

/-- `rdBE16` of its two bytes (R9). -/
def rdBE16 (b0 b1 : Byte) : Nat := b0.toNat * 2 ^ 8 + b1.toNat

/-- `rdBE32` of its four bytes (R9). -/
def rdBE32 (b0 b1 b2 b3 : Byte) : Word := b0 ++ b1 ++ b2 ++ b3

/-- Byte lane `L` of a bus word: bits `[8L+7:8L]` (R72). -/
def lane (w : Word) (L : Nat) : Byte := w.extractLsb' (8 * L) 8

/-- The bus word whose lanes 0..3 are the four bytes (R74: lane 0 is the lowest-addressed byte). -/
def wordOfLanes (b0 b1 b2 b3 : Byte) : Word := b3 ++ b2 ++ b1 ++ b0

/-- `old` with the lanes of `new` whose strobe bit is 1 (R72). -/
def mergeLanes (old new : Word) (strb : BitVec 4) : Word :=
  let pick L := if strb.getLsbD L then lane new L else lane old L
  wordOfLanes (pick 0) (pick 1) (pick 2) (pick 3)

/-- The 32 bits of `e` from index `i` on, left-aligned in a word, bits past the end 0 (R80). -/
def wordOfCodeBits (e : BitSeq) (i : Nat) : Word :=
  BitVec.ofNat 32 (natOfBits ((List.range 32).map fun t => e.getD (i + t) false))

end Sys2Proof.Machine
end

