-- ==== Sys2Proof/Config.lean ====
section
/-! DEFINITION. What an instance fixes (the OPEN parameters of R6 of 00_scope.md), the hardwired ID, and the free
values: what the spec leaves unspecified, "a fresh draw per read" (R77, R78 of 20_memory.md, R129 of 40_host_bus.md,
R341 of 70_reset_and_hazards.md). -/

namespace Sys2Proof

/-- The OPEN parameters of R6: arguments of the model. They are configuration and no step changes them (R21);
State carries them so that every statement holds for every instance (log entry 1). LATENCY is the schedule of log entry 3. -/
structure Params where
  /-- CAP_IN: the size of IN_MEM in bytes. -/
  capIn : Nat
  /-- CAP_OUT: the size of OUT_MEM in bytes. -/
  capOut : Nat
  /-- BASE: the bus address of offset 0. -/
  base : Nat
deriving DecidableEq, Repr

/-- The values R6 suggests for the capacities, at BASE 0. DESIGN CHOICE, log entry 1. -/
def Params.suggested : Params := { capIn := 65536, capOut := 65536, base := 0 }

/-- The ID register's hardwired value (R1, R25). -/
def idValue : Word := 0x48554646#32

/-- Free value: an unspecified byte. The first argument is the draw (State's `draws`), the second the byte's offset
in its memory. Nothing constrains it. Log entry 4. -/
opaque Config.freeByte : Nat → Nat → Byte

/-- Free value: an unspecified register word, by draw. Log entry 4. -/
opaque Config.freeWord : Nat → Word

/-- Free value: an unspecified bit, by draw and place. Log entry 4. -/
opaque Config.freeBit : Nat → Nat → Bool

/-- Free value: the length of an unspecified CODE entry, by draw and symbol. Log entries 4 and 7. -/
opaque Config.freeCodeLen : Nat → Byte → Byte

end Sys2Proof
end

