-- ==== Sys2Proof/Syntax.lean ====
section
/-! DEFINITION. The commands of huffman_tree_builder, one constructor for each row of the opcode table
(R101 of 30_encoding.md). No command has an operand field: every operand is implicit (R102). -/

namespace Sys2Proof

/-- A command, in the order of R101. -/
inductive Instr where
  /-- OP 0x0: completes and does nothing else (R125). -/
  | nop
  /-- OP 0x1: clears FREQ (R141). -/
  | clear
  /-- OP 0x2: counts IN into FREQ (R142). ANALYZE is another name of it (R143). -/
  | count
  /-- OP 0x3: builds TREE from FREQ (R168). -/
  | build
  /-- OP 0x4: derives CODE from TREE (R184). -/
  | derive
  /-- OP 0x5: writes the table header of FREQ to OUT (R233). -/
  | serialize
  /-- OP 0x6: parses a table header of IN into FREQ (R234). -/
  | parse
  /-- OP 0x7: encodes IN with CODE to OUT (R262). -/
  | encode
  /-- OP 0x8: decodes the packed payload of IN with TREE to OUT (R263). -/
  | decode
  /-- OP 0x9: packs IN_BITLEN bits of IN to OUT (R203). -/
  | pack
  /-- OP 0xA: unpacks IN to OUT (R204). -/
  | unpack
  /-- OP 0xB: compresses IN to an artifact in OUT (R264). -/
  | compress
  /-- OP 0xC: decompresses the artifact of IN to OUT (R265). -/
  | decompress
deriving DecidableEq, Repr

end Sys2Proof
end

