-- ==== Sys2Proof/WellFormed.lean ====
section
/-! DEFINITION. Well-formedness: of a command (no operand field, so no condition, R102 of 30_encoding.md) and of an
instance's parameters (the bounds of R6 of 00_scope.md). -/

namespace Sys2Proof

/-- A command has no operand field, so every command is well formed (R102). -/
def Instr.wf : Instr → Bool
  | .nop => true
  | .clear => true
  | .count => true
  | .build => true
  | .derive => true
  | .serialize => true
  | .parse => true
  | .encode => true
  | .decode => true
  | .pack => true
  | .unpack => true
  | .compress => true
  | .decompress => true

/-- The bounds of R6: `1 <= CAP_IN <= 2^24`, `3 <= CAP_OUT <= 2^24`, BASE a multiple of 2^26. -/
abbrev Params.wf (p : Params) : Prop :=
  1 ≤ p.capIn ∧ p.capIn ≤ 2 ^ 24 ∧ 3 ≤ p.capOut ∧ p.capOut ≤ 2 ^ 24 ∧ p.base % 2 ^ 26 = 0

end Sys2Proof
end

