-- ==== Sys2Proof/Decode.lean ====
section
/-! DEFINITION. The command word CMD32: OP in bits 3:0, MBZ in bits 31:4 (R100 of 30_encoding.md), the opcode map
(R101) and the illegal words (R103); then the encoder, from the same map. -/

namespace Sys2Proof

/-- Why a word is no command. R103: a model treats the whole illegal set as one outcome. -/
inductive DecodeError where
  /-- The word selects no command: `w[31:4] != 0`, or `w[3:0]` is 0xD, 0xE or 0xF. -/
  | illegalWord (w : Word)
deriving DecidableEq, Repr

/-- The OP field, bits 3:0 (R100). -/
def opField (w : Word) : BitVec 4 := w.extractLsb' 0 4

/-- The MBZ field, bits 31:4 (R100). -/
def mbzField (w : Word) : BitVec 28 := w.extractLsb' 4 28

/-- The opcode map of R101; 0xD to 0xF are reserved. -/
def commandOfOp (op : BitVec 4) : Option Instr :=
  match op.toNat with
  | 0x0 => some .nop
  | 0x1 => some .clear
  | 0x2 => some .count
  | 0x3 => some .build
  | 0x4 => some .derive
  | 0x5 => some .serialize
  | 0x6 => some .parse
  | 0x7 => some .encode
  | 0x8 => some .decode
  | 0x9 => some .pack
  | 0xA => some .unpack
  | 0xB => some .compress
  | 0xC => some .decompress
  | _ => none

/-- Decoding a command word: total, and an illegal word is rejected by name (R101, R103). -/
def decode (w : Word) : Except DecodeError Instr :=
  if mbzField w = 0 then
    match commandOfOp (opField w) with
    | some i => .ok i
    | none => .error (.illegalWord w)
  else .error (.illegalWord w)

/-- The word of a command, the `word` column of R101. -/
def encode : Instr → Word
  | .nop => 0x00000000#32
  | .clear => 0x00000001#32
  | .count => 0x00000002#32
  | .build => 0x00000003#32
  | .derive => 0x00000004#32
  | .serialize => 0x00000005#32
  | .parse => 0x00000006#32
  | .encode => 0x00000007#32
  | .decode => 0x00000008#32
  | .pack => 0x00000009#32
  | .unpack => 0x0000000A#32
  | .compress => 0x0000000B#32
  | .decompress => 0x0000000C#32

/-- The command word that a table row's `nbits` bits `w` stand for; every bit above `nbits` is 0. -/
def tableWord (nbits w : Nat) : Word := BitVec.ofNat 32 (w % 2 ^ nbits)

/-- What the decoder reads from an opcode-table row's bits. -/
def decodeTableWord (nbits w : Nat) : Option Instr :=
  match decode (tableWord nbits w) with
  | .ok i => some i
  | .error _ => none

end Sys2Proof
end

