-- ==== Sys2Proof/Machine/State.lean ====
section
/-! DEFINITION. The state of huffman_tree_builder, all of it (R21 of 10_state.md), the reasons a step could stop,
and the state right after reset (R50 of 10_state.md, R341 of 70_reset_and_hazards.md). -/

namespace Sys2Proof.Machine

/-- A table with one entry for each symbol 0..255. -/
structure Table (α : Type) where
  /-- The entries, in ascending symbol order. -/
  entries : List α
  /-- There are 256 of them (ALPHABET, R6). -/
  size : entries.length = 256
deriving DecidableEq, Repr

/-- The table that holds `a` for every symbol. -/
def Table.fill {α : Type} (a : α) : Table α := ⟨List.replicate 256 a, List.length_replicate⟩

/-- FREQ, or the table `count` and `parse` return: 256 counts of 32 bits; 0 means the symbol is absent (R39). -/
abbrev FreqTable := Table Count

/-- The contents of CODE: for each symbol its code, the empty sequence where it has none; `len_s` is the length (R40). -/
abbrev CodeTable := Table BitSeq

/-- A tree node (R11). `single w l` is R11's `Inner(w, left = l, right = NONE)` (log entry 19). -/
inductive Node where
  /-- `Leaf(sym, w)`. -/
  | leaf (sym : Byte) (w : Weight)
  /-- `Inner(w, left, right)` with both children. -/
  | inner (w : Weight) (left right : Node)
  /-- `Inner(w, left, NONE)`: only the root of the single-symbol tree (R165). -/
  | single (w : Weight) (left : Node)
deriving DecidableEq, Repr

/-- A tree that has been built: R11's EMPTY or ROOT(n). TREE is an `Option HuffTree`; `none` is R11's NONE. -/
inductive HuffTree where
  /-- The tree of the empty table (R164). -/
  | empty
  /-- A tree with root `n`. -/
  | root (n : Node)
deriving DecidableEq, Repr

/-- What CODE holds (R40, R341). -/
inductive CodeStore where
  /-- No DERIVE or COMPRESS has written CODE since reset: every entry is a fresh draw on each read. -/
  | unspecified
  /-- The 256 entries the last DERIVE or COMPRESS wrote. -/
  | written (c : CodeTable)
deriving DecidableEq, Repr

/-- IN_MEM or OUT_MEM: the bytes that hold a specified value, by offset. A byte that is not listed is unspecified and
a read of it is a fresh draw (R77, R78); so no listed byte equals what an unlisted one reads as. -/
abbrev Memory := List Host.Cell

/-- The canonical form: offsets strictly rising. -/
abbrev Memory.wf (m : Memory) : Prop := m.Pairwise fun a b => a.1 < b.1

/-- The sequencer (R46). -/
inductive Sequencer where
  /-- The post-reset initialisation (R343); STATUS.BUSY reads 1. -/
  | init
  /-- No command runs. -/
  | idle
  /-- A command word is latched and its completion is to come. -/
  | busy (cmd : Word)
deriving DecidableEq, Repr

/-- The error kinds of R300. -/
inductive ErrorKind where
  /-- Code 1: malformed frequency data. -/
  | construction
  /-- Code 2: a padding byte out of range, or an unparsable header. -/
  | corruptHeader
  /-- Code 3: an artifact shorter than a valid minimum. -/
  | truncatedInput
  /-- Code 4: a bit stream that does not align to leaf boundaries. -/
  | malformedStream
  /-- Code 5: an illegal command word. -/
  | illegalCommand
  /-- Code 6: a length register beyond the input memory. -/
  | inRange
  /-- Code 7: an output longer than the output memory. -/
  | outOverflow
  /-- Code 8: a table the command needs is not valid. -/
  | notReady
  /-- Code 9: an input byte whose symbol has no code. -/
  | unmappedSymbol
deriving DecidableEq, Repr

/-- What `raise E(info)` carries (R301). -/
structure CmdError where
  /-- The kind, for ERR_CODE (R300). -/
  kind : ErrorKind
  /-- ERR_INFO (R305). -/
  info : Word
deriving DecidableEq, Repr

/-- One operation of the HOST's script (R104, R105 of 30_encoding.md). Addresses are bus addresses (R70). -/
inductive HostOp where
  /-- `RD`: one HostRead32 (R120). -/
  | rd (addr : Nat)
  /-- `WR`: one HostWrite32 with byte strobes (R121). -/
  | wr (addr : Nat) (data : Word) (strb : BitVec 4)
  /-- `WAIT`: read STATUS; go on when BUSY was 0, else read again (R105). -/
  | wait
deriving DecidableEq, Repr

/-- Who moves next (log entry 3). -/
inductive Turn where
  /-- The HOST does the next operation of its script. -/
  | host
  /-- The CORE takes its step, if it has one. -/
  | core
  /-- The platform drives the reset input `rst` to a level (R340). -/
  | rstPin (level : Bool)
deriving DecidableEq, Repr

/-- The reasons a step could stop with a fault: none. No bus error exists (R71), an error is a completion and so a next
state (R301), and the spec treats no item as stuck (93_implementation_defined.md). Log entry 27. -/
inductive Fault where
deriving DecidableEq, Repr

/-- The reasons a step could be refused. -/
inductive Refusal where
  /-- Raised by an arm of exec whose command has no meaning yet; safe. No arm raises it: all 13 commands have theirs. -/
  | notModelled (mnemonic : String)
deriving DecidableEq, Repr

/-- The state: the architectural state of R21, the inputs (`rst`, `script`, `sched`) and the model's own fields
(`hostReads`, `draws`). STATUS.BUSY, STATUS.TREE_VALID, SYM_COUNT and irq are views of it (R46, R42, R36, R49). -/
structure State where
  /-- The instance: configuration, never changed (R6, R21; log entry 1). -/
  params : Params
  /-- CTRL.IRQ_EN (R26). -/
  irqEn : Bool
  /-- STATUS.DONE (R28). -/
  done : Bool
  /-- STATUS.ERR (R28). -/
  err : Bool
  /-- STATUS.DROP (R28, R123). -/
  drop : Bool
  /-- STATUS.CODE_VALID (R41). -/
  codeValid : Bool
  /-- STATUS.LAST_OP (R28, R122). -/
  lastOp : BitVec 4
  /-- ERR_CODE.CODE (R29). -/
  errCode : BitVec 4
  /-- ERR_INFO (R30). -/
  errInfo : Word
  /-- IN_LEN (R31). -/
  inLen : Word
  /-- IN_BITLEN (R32). -/
  inBitlen : Word
  /-- OUT_LEN (R33). -/
  outLen : Word
  /-- OUT_BITLEN (R34). -/
  outBitlen : Word
  /-- HDR_LEN (R35). -/
  hdrLen : Word
  /-- FREQ, the frequency LUT (R39). -/
  freq : FreqTable
  /-- CODE, the code table (R40). -/
  code : CodeStore
  /-- TREE; `none` is NONE (R42). -/
  tree : Option HuffTree
  /-- IN_MEM (R44). -/
  inMem : Memory
  /-- OUT_MEM (R45). -/
  outMem : Memory
  /-- The sequencer (R46). -/
  seq : Sequencer
  /-- The level of the reset input (R340). -/
  rst : Bool
  /-- The HOST's operations still to come, oldest first (R23). -/
  script : List HostOp
  /-- The turns still to come (log entry 3). -/
  sched : List Turn
  /-- The words HostRead32 has returned to the HOST, newest first (R120). -/
  hostReads : List Word
  /-- The number of the next draw of free values (log entry 4). -/
  draws : Nat
deriving DecidableEq, Repr

/-- Right after reset (R50, R341): `rst` just released, the sequencer in INIT, every CSR 0, FREQ 0, TREE NONE, and
IN_MEM, OUT_MEM and CODE unspecified. The instance, the inputs and `draws` are the model's choice (log entries 1 to 4, 15). -/
def State.reset : State where
  params := Params.suggested
  irqEn := false
  done := false
  err := false
  drop := false
  codeValid := false
  lastOp := 0
  errCode := 0
  errInfo := 0
  inLen := 0
  inBitlen := 0
  outLen := 0
  outBitlen := 0
  hdrLen := 0
  freq := Table.fill 0
  code := .unspecified
  tree := none
  inMem := []
  outMem := []
  seq := .init
  rst := false
  script := []
  sched := []
  hostReads := []
  draws := 0

end Sys2Proof.Machine
end

