-- ==== Sys2Proof/Machine/Tables.lean ====
section
/-! DEFINITION. Access to a table with one entry for each symbol 0..255 (FREQ, CODE: R39, R40 of 10_state.md). -/

namespace Sys2Proof.Machine

/-- The symbols 0..255, ascending. -/
def allSymbols : List Byte := (List.range 256).map (BitVec.ofNat 8)

/-- The table whose entry for `s` is `f s`. -/
def Table.ofFn {α : Type} (f : Byte → α) : Table α := ⟨allSymbols.map f, by simp [allSymbols]⟩

/-- Entry `s`. -/
def Table.get {α : Type} (t : Table α) (s : Byte) : α :=
  t.entries[s.toNat]'(t.size.symm ▸ s.isLt)

/-- The table with entry `s` replaced. -/
def Table.set {α : Type} (t : Table α) (s : Byte) (a : α) : Table α :=
  ⟨t.entries.set s.toNat a, (List.length_set).trans t.size⟩

/-- The entries with their symbols, ascending. -/
def Table.rows {α : Type} (t : Table α) : List (Byte × α) := allSymbols.zip t.entries

end Sys2Proof.Machine
end

