-- ==== Sys2Proof/Machine/Flags.lean ====
section
/-! DEFINITION. The views and flags: BUSY, TREE_VALID, SYM_COUNT, the STATUS word, ERR_CODE, irq (R28, R29, R36, R42,
R46, R49 of 10_state.md), the W1C bits of STATUS, and the code of each error kind (R300 of 60_exceptions.md). -/

namespace Sys2Proof.Machine

/-- STATUS.BUSY: 1 exactly in INIT and BUSY(cmd) (R46). -/
def State.isBusy (s : State) : Bool :=
  match s.seq with
  | .init => true
  | .idle => false
  | .busy _ => true

/-- STATUS.TREE_VALID: `TREE != NONE` (R42). -/
def State.treeValid (s : State) : Bool := s.tree.isSome

/-- SYM_COUNT: the number of nonzero FREQ entries, 0..256 (R36). -/
def symCount (F : FreqTable) : Nat := F.entries.countP fun c => c != 0

/-- The STATUS word with the given TREE_VALID and CODE_VALID bits (R28). -/
def statusWord (s : State) (treeValid codeValid : Bool) : Word :=
  0#20 ++ s.lastOp ++ 0#2 ++ BitVec.ofBool codeValid ++ BitVec.ofBool treeValid ++ BitVec.ofBool s.drop
    ++ BitVec.ofBool s.err ++ BitVec.ofBool s.done ++ BitVec.ofBool s.isBusy

/-- The interrupt output, a level (R49). -/
def State.irq (s : State) : Bool := s.irqEn && s.done

/-- The numbers of R300. -/
def ErrorKind.code : ErrorKind → BitVec 4
  | .construction => 1
  | .corruptHeader => 2
  | .truncatedInput => 3
  | .malformedStream => 4
  | .illegalCommand => 5
  | .inRange => 6
  | .outOverflow => 7
  | .notReady => 8
  | .unmappedSymbol => 9

/-- A write of STATUS that reaches lane 0: DONE, ERR and DROP are cleared where `wdata` has a 1 (R28). -/
def clearStatus (wdata : Word) (s : State) : State :=
  { s with
    done := s.done && !wdata.getLsbD 1
    err := s.err && !wdata.getLsbD 2
    drop := s.drop && !wdata.getLsbD 3 }

end Sys2Proof.Machine
end

