-- ==== Sys2Proof/Machine/Ops.lean ====
section
/-! DEFINITION. The named operations over memory and registers: bytes of IN_MEM and OUT_MEM, the writes of the tables
and the output with what each invalidates (R48 of 10_state.md), acceptance and completion (R122, R124 of
40_host_bus.md), the error completion, which is this block's only exception (R301 of 60_exceptions.md), and reset
(R341, R343 of 70_reset_and_hazards.md). -/

namespace Sys2Proof.Machine

/-! ## Memory -/

/-- The specified byte at offset `a`, if it has one. -/
def Memory.get? : Memory → Nat → Option Byte
  | [], _ => none
  | (k, b) :: rest, a => if k = a then some b else Memory.get? rest a

/-- The memory with byte `b` at offset `a`, in the canonical form again. -/
def Memory.set : Memory → Nat → Byte → Memory
  | [], a, b => [(a, b)]
  | (k, v) :: rest, a, b =>
    if a < k then (a, b) :: (k, v) :: rest
    else if a = k then (a, b) :: rest
    else (k, v) :: Memory.set rest a b

/-- The cells of a byte list that starts at offset `i`. -/
def cellsFrom : Nat → List Byte → Memory
  | _, [] => []
  | i, b :: rest => (i, b) :: cellsFrom (i + 1) rest

/-- `IN[i]`: the byte the HOST wrote, or a fresh draw (R77). -/
def State.inByte (s : State) (i : Nat) : Byte := (Memory.get? s.inMem i).getD (Config.freeByte s.draws i)

/-- `OUT[i]`: the byte the last successful output put there, or a fresh draw (R78). -/
def State.outByte (s : State) (i : Nat) : Byte := (Memory.get? s.outMem i).getD (Config.freeByte s.draws i)

/-! ## The tables -/

/-- A write of FREQ: TREE becomes NONE and CODE_VALID 0 (R48). -/
def writeFreq (F : FreqTable) (s : State) : State := { s with freq := F, tree := none, codeValid := false }

/-- A write of TREE: CODE_VALID becomes 0 (R48). -/
def writeTree (T : HuffTree) (s : State) : State := { s with tree := some T, codeValid := false }

/-- A write of CODE with the codes of the current TREE: CODE_VALID becomes 1 (R41). -/
def writeCode (C : CodeTable) (s : State) : State := { s with code := .written C, codeValid := true }

/-! ## The output and its lengths -/

/-- `write_out(B)` and `OUT_LEN <- len(B)`: the bytes of OUT_MEM past `B` become unspecified (R10, R78). -/
def writeOut (B : List Byte) (s : State) : State :=
  { s with outMem := cellsFrom 0 B, outLen := BitVec.ofNat 32 B.length }

/-- `OUT_BITLEN <- n`. -/
def writeOutBitlen (n : Nat) (s : State) : State := { s with outBitlen := BitVec.ofNat 32 n }

/-- `HDR_LEN <- n`. -/
def writeHdrLen (n : Nat) (s : State) : State := { s with hdrLen := BitVec.ofNat 32 n }

/-- The error effect on the output: OUT_LEN 0 and every OUT_MEM byte unspecified (R302). -/
def dropOut (s : State) : State := { s with outMem := [], outLen := 0 }

/-- The error effect on OUT_BITLEN (R302). -/
def dropOutBitlen (s : State) : State := { s with outBitlen := 0 }

/-- The error effect on HDR_LEN (R302). -/
def dropHdrLen (s : State) : State := { s with hdrLen := 0 }

/-! ## The life of a command -/

/-- Acceptance of the word `w` while IDLE (R122). -/
def accept (w : Word) (s : State) : State :=
  { s with
    seq := .busy w
    done := false
    err := false
    lastOp := opField w
    errCode := 0
    errInfo := 0 }

/-- `finish()`: successful completion (R124). The step's draw of free values is used up (log entry 4). -/
def finish (s : State) : State := { s with done := true, seq := .idle, draws := s.draws + 1 }

/-- `raise E(info)`, after the command's error effects: the error completion (R301). It saves no program counter,
changes no mode, and the block is IDLE again: there is no return from it (R308). -/
def raiseError (e : CmdError) (s : State) : State :=
  { s with
    errCode := e.kind.code
    errInfo := e.info
    err := true
    done := true
    seq := .idle
    draws := s.draws + 1 }

/-- The completion of an illegal word: ILLEGAL_COMMAND with the word, and no other effect (R126). -/
def completeIllegal (w : Word) (s : State) : State := raiseError { kind := .illegalCommand, info := w } s

/-! ## Reset -/

/-- The reset action (R341). FREQ is left to the INIT step (R343, log entry 13). -/
def resetAction (s : State) : State :=
  { s with
    irqEn := false
    done := false
    err := false
    drop := false
    codeValid := false
    lastOp := 0
    errCode := 0
    errInfo := 0
    inLen := 0
    inBitlen := 0
    outLen := 0
    outBitlen := 0
    hdrLen := 0
    code := .unspecified
    tree := none
    inMem := []
    outMem := []
    seq := .init }

/-- The CORE step that ends INIT (R343): FREQ is cleared; DONE is not set. -/
def finishInit (s : State) : State :=
  { s with freq := Table.fill 0, seq := .idle, draws := s.draws + 1 }

/-- The word `w` latched as an accepted command, from whatever the sequencer was doing; an INIT in progress ends first
(log entry 16). -/
def placeCommand (w : Word) (s : State) : State :=
  match s.seq with
  | .init => accept w (finishInit s)
  | .idle => accept w s
  | .busy _ => accept w s

end Sys2Proof.Machine
end

