-- ==== Sys2Proof/Machine/Operands.lean ====
section
/-! DEFINITION. The implicit operands of the commands (R102 of 30_encoding.md) and the checks on them: IN bytes by
IN_LEN, IN bits by IN_BITLEN, the codes of CODE, and the range checks against CAP_IN and CAP_OUT (R31, R32 of
10_state.md, R304 of 60_exceptions.md). -/

namespace Sys2Proof.Machine

/-- `IN[0 .. n)` (R10). -/
def State.inBytes (s : State) (n : Nat) : List Byte := (List.range n).map s.inByte

/-- `IN[0 .. IN_LEN)`. -/
def State.input (s : State) : List Byte := s.inBytes s.inLen.toNat

/-- The first IN_BITLEN bits of IN_MEM, MSB-first (R203). -/
def State.inputBits (s : State) : BitSeq :=
  (bitsOfBytes (s.inBytes (ceil8 s.inBitlen.toNat))).take s.inBitlen.toNat

/-- A CODE entry nothing has written since reset: a fresh draw of a length 0..255 and that many bits (R40, R341). -/
def freeCode (draw : Nat) (sym : Byte) : BitSeq :=
  (List.range (Config.freeCodeLen draw sym).toNat).map (Config.freeBit draw)

/-- `CODE[sym]` (R40). -/
def State.codeOf (s : State) (sym : Byte) : BitSeq :=
  match s.code with
  | .unspecified => freeCode s.draws sym
  | .written C => C.get sym

/-- The check of IN_LEN: IN_RANGE above CAP_IN (R31). -/
def checkInLen (s : State) : Except CmdError Unit :=
  if s.inLen.toNat ≤ s.params.capIn then .ok () else .error { kind := .inRange, info := s.inLen }

/-- The check of IN_BITLEN: IN_RANGE above `8 * CAP_IN` (R32). -/
def checkInBitlen (s : State) : Except CmdError Unit :=
  if s.inBitlen.toNat ≤ 8 * s.params.capIn then .ok () else .error { kind := .inRange, info := s.inBitlen }

/-- The check of an output's length: OUT_OVERFLOW above CAP_OUT, with the length it would have had (R305). -/
def checkFits (s : State) (B : List Byte) : Except CmdError Unit :=
  if B.length ≤ s.params.capOut then .ok ()
  else .error { kind := .outOverflow, info := BitVec.ofNat 32 B.length }

end Sys2Proof.Machine
end

