-- ==== Sys2Proof/Machine/Bus.lean ====
section
/-! DEFINITION. The HOST's bus: the address map (R70 to R74 of 20_memory.md, R24 of 10_state.md), HostRead32 and
HostWrite32 (R120, R121 of 40_host_bus.md), the windows (R77 to R80), and the rules while BUSY (R128, R129). -/

namespace Sys2Proof.Machine

/-- The control registers of R24. -/
inductive Csr where
  /-- 0x000 ID (R25). -/
  | id
  /-- 0x004 CTRL (R26). -/
  | ctrl
  /-- 0x008 CMD (R27). -/
  | cmd
  /-- 0x00C STATUS (R28). -/
  | status
  /-- 0x010 ERR_CODE (R29). -/
  | errCode
  /-- 0x014 ERR_INFO (R30). -/
  | errInfo
  /-- 0x018 IN_LEN (R31). -/
  | inLen
  /-- 0x01C IN_BITLEN (R32). -/
  | inBitlen
  /-- 0x020 OUT_LEN (R33). -/
  | outLen
  /-- 0x024 OUT_BITLEN (R34). -/
  | outBitlen
  /-- 0x028 HDR_LEN (R35). -/
  | hdrLen
  /-- 0x02C SYM_COUNT (R36). -/
  | symCount
  /-- 0x030 CAP_IN (R37). -/
  | capIn
  /-- 0x034 CAP_OUT (R38). -/
  | capOut
deriving DecidableEq, Repr

/-- What an aligned word of the window is (R70). -/
inductive Target where
  /-- A control register. -/
  | csr (r : Csr)
  /-- `FREQ[sym]` (R79). -/
  | freq (sym : Byte)
  /-- Word `k` of CODE entry `sym` (R80). -/
  | code (sym : Byte) (k : Nat)
  /-- The IN-window word whose lowest byte is `IN[i]` (R77). -/
  | inWord (i : Nat)
  /-- The OUT-window word whose lowest byte is `OUT[i]` (R78). -/
  | outWord (i : Nat)
  /-- No storage: reads 0, ignores writes (R71). -/
  | unmapped
deriving DecidableEq, Repr

/-- The window offset of a bus address: `off = (addr - BASE)[25:0]` (R70). -/
def Params.offsetOf (p : Params) (addr : Nat) : BitVec 26 := BitVec.ofInt 26 ((addr : Int) - (p.base : Int))

/-- The control register of the aligned offset `4 * j`; 0x038 to 0xFFC hold none (R24). -/
def csrOfIndex (j : Nat) : Option Csr :=
  match j with
  | 0 => some .id
  | 1 => some .ctrl
  | 2 => some .cmd
  | 3 => some .status
  | 4 => some .errCode
  | 5 => some .errInfo
  | 6 => some .inLen
  | 7 => some .inBitlen
  | 8 => some .outLen
  | 9 => some .outBitlen
  | 10 => some .hdrLen
  | 11 => some .symCount
  | 12 => some .capIn
  | 13 => some .capOut
  | _ => none

/-- The target of the word at `off AND NOT 3` (R70, R73). -/
def targetOf (off : BitVec 26) : Target :=
  let a := off.toNat / 4 * 4
  if a < 0x1000 then
    match csrOfIndex (a / 4) with
    | some r => .csr r
    | none => .unmapped
  else if a < 0x1400 then .freq (BitVec.ofNat 8 ((a - 0x1000) / 4))
  else if a < 0x4000 then .unmapped
  else if a < 0x8000 then .code (BitVec.ofNat 8 ((a - 0x4000) / 64)) ((a - 0x4000) % 64 / 4)
  else if a < 0x1000000 then .unmapped
  else if a < 0x2000000 then .inWord (a - 0x1000000)
  else if a < 0x3000000 then .outWord (a - 0x2000000)
  else .unmapped

/-! ## Reads -/

/-- The value of a register that a read while BUSY does not promise (R129). -/
def hidden (s : State) (v : Word) : Word := if s.isBusy then Config.freeWord s.draws else v

/-- A control register as the HOST reads it (R24 to R38, R129). While BUSY, SYM_COUNT's reserved bits still read 0
(log entry 9). -/
def readCsr (s : State) : Csr → Word
  | .id => idValue
  | .ctrl => 0#31 ++ BitVec.ofBool s.irqEn
  | .cmd => 0
  | .status =>
    if s.isBusy then statusWord s (Config.freeBit s.draws 4) (Config.freeBit s.draws 5)
    else statusWord s s.treeValid s.codeValid
  | .errCode => s.errCode.setWidth 32
  | .errInfo => s.errInfo
  | .inLen => s.inLen
  | .inBitlen => s.inBitlen
  | .outLen => hidden s s.outLen
  | .outBitlen => hidden s s.outBitlen
  | .hdrLen => hidden s s.hdrLen
  | .symCount => hidden s (BitVec.ofNat 32 (symCount s.freq)) &&& 0x1FF#32
  | .capIn => BitVec.ofNat 32 s.params.capIn
  | .capOut => BitVec.ofNat 32 s.params.capOut

/-- Word `k` of a CODE-window entry that holds the code `e` (R80). -/
def codeWord (e : BitSeq) (k : Nat) : Word :=
  if k = 0 then (BitVec.ofNat 8 e.length).setWidth 32
  else if k ≤ 8 then wordOfCodeBits e (32 * (k - 1))
  else 0

/-- A byte of the IN window: 0 past CAP_IN (R71, R74). -/
def inWindowByte (s : State) (i : Nat) : Byte := if i < s.params.capIn then s.inByte i else 0

/-- A byte of the OUT window: unspecified while BUSY, 0 past CAP_OUT (R71, R78, R129; log entry 10). -/
def outWindowByte (s : State) (i : Nat) : Byte :=
  if i < s.params.capOut then
    if s.isBusy then Config.freeByte s.draws i else s.outByte i
  else 0

/-- `HostRead32(off)`: the word it returns (R120). -/
def hostRead (s : State) (off : BitVec 26) : Word :=
  match targetOf off with
  | .csr r => readCsr s r
  | .freq sym => hidden s (s.freq.get sym)
  | .code sym k => hidden s (codeWord (s.codeOf sym) k)
  | .inWord i =>
    wordOfLanes (inWindowByte s i) (inWindowByte s (i + 1)) (inWindowByte s (i + 2)) (inWindowByte s (i + 3))
  | .outWord i =>
    wordOfLanes (outWindowByte s i) (outWindowByte s (i + 1)) (outWindowByte s (i + 2)) (outWindowByte s (i + 3))
  | .unmapped => 0

/-- The HOST step of a read: the block's state does not change (R83); the HOST gets the word, and the step's draw of
free values is used up. -/
def readStep (off : BitVec 26) (s : State) : State :=
  { s with hostReads := hostRead s off :: s.hostReads, draws := s.draws + 1 }

/-! ## Writes -/

/-- A write of CMD: accepted while IDLE, dropped while BUSY or in INIT; the strobes are ignored (R27, R122, R123). -/
def writeCmd (w : Word) (s : State) : State := if s.isBusy then { s with drop := true } else accept w s

/-- A write of CTRL that reaches lane 0: a soft reset where `wdata[1] = 1`, else IRQ_EN (R26, R342). -/
def writeCtrl (w : Word) (s : State) : State :=
  if w.getLsbD 1 then resetAction s else { s with irqEn := w.getLsbD 0 }

/-- One lane of an IN-window write: byte `i`, where it exists and its strobe is 1 (R77). -/
def writeInLane (i : Nat) (b : Byte) (strobe : Bool) (s : State) : State :=
  if strobe && decide (i < s.params.capIn) then { s with inMem := Memory.set s.inMem i b } else s

/-- An IN-window write while IDLE (R77). -/
def writeInWord (i : Nat) (w : Word) (strb : BitVec 4) (s : State) : State :=
  writeInLane (i + 3) (lane w 3) (strb.getLsbD 3) (writeInLane (i + 2) (lane w 2) (strb.getLsbD 2)
    (writeInLane (i + 1) (lane w 1) (strb.getLsbD 1) (writeInLane i (lane w 0) (strb.getLsbD 0) s)))

/-- A FREQ-window write while IDLE: any strobe invalidates TREE and CODE (R79). -/
def writeFreqWord (sym : Byte) (w : Word) (strb : BitVec 4) (s : State) : State :=
  if strb = 0 then s else writeFreq (s.freq.set sym (mergeLanes (s.freq.get sym) w strb)) s

/-- `HostWrite32(off, wdata, strb)` (R121), with R128 while BUSY. -/
def hostWrite (off : BitVec 26) (w : Word) (strb : BitVec 4) (s : State) : State :=
  match targetOf off with
  | .csr .cmd => writeCmd w s
  | .csr .ctrl => if strb.getLsbD 0 then writeCtrl w s else s
  | .csr .status => if strb.getLsbD 0 then clearStatus w s else s
  | .csr .inLen => if s.isBusy then s else { s with inLen := mergeLanes s.inLen w strb }
  | .csr .inBitlen => if s.isBusy then s else { s with inBitlen := mergeLanes s.inBitlen w strb }
  | .freq sym => if s.isBusy then s else writeFreqWord sym w strb s
  | .inWord i => if s.isBusy then s else writeInWord i w strb s
  | .csr .id => s
  | .csr .errCode => s
  | .csr .errInfo => s
  | .csr .outLen => s
  | .csr .outBitlen => s
  | .csr .hdrLen => s
  | .csr .symCount => s
  | .csr .capIn => s
  | .csr .capOut => s
  | .code _ _ => s
  | .outWord _ => s
  | .unmapped => s

end Sys2Proof.Machine
end

