-- ==== Sys2Proof/Machine/BitPacker.lean ====
section
/-! DEFINITION. The bit packer and unpacker, PACK and UNPACK (R200 to R204 of 44_bit_packer.md). -/

namespace Sys2Proof.Machine

/-- `pack(b)`: the padding byte, then the bits MSB-first (R200). -/
def pack (b : BitSeq) : List Byte := BitVec.ofNat 8 (padCount b.length) :: alignedBytes b

/-- `unpack(B, base)` with the value of IN_LEN for TRUNCATED_INPUT (R201). The stripped bits are not checked (R202). -/
def unpack (B : List Byte) (base : Nat) (inLen : Word) : Except CmdError BitSeq :=
  match B with
  | [] => .error { kind := .truncatedInput, info := inLen }
  | p :: payload =>
    if 7 < p.toNat then .error { kind := .corruptHeader, info := BitVec.ofNat 32 base }
    else if 8 * payload.length < p.toNat then .error { kind := .corruptHeader, info := BitVec.ofNat 32 base }
    else .ok ((bitsOfBytes payload).take (8 * payload.length - p.toNat))

/-- What PACK writes: the packed bytes (R203). -/
def packOutput (s : State) : Except CmdError (List Byte) := do
  checkInBitlen s
  checkFits s (pack s.inputBits)
  return pack s.inputBits

/-- PACK (R203), with the error effects of R302. -/
def execPack (s : State) : Host.Outcome State Fault Refusal :=
  match packOutput s with
  | .ok P => .next (finish (writeOutBitlen s.inBitlen.toNat (writeOut P s)))
  | .error e => .next (raiseError e (dropOutBitlen (dropOut s)))

/-- What UNPACK writes: the bits packed with no padding byte, and their number (R204). -/
def unpackOutput (s : State) : Except CmdError (List Byte × Nat) := do
  checkInLen s
  let b ← unpack s.input 0 s.inLen
  checkFits s (alignedBytes b)
  return (alignedBytes b, b.length)

/-- UNPACK (R204), with the error effects of R302. -/
def execUnpack (s : State) : Host.Outcome State Fault Refusal :=
  match unpackOutput s with
  | .ok (P, n) => .next (finish (writeOutBitlen n (writeOut P s)))
  | .error e => .next (raiseError e (dropOutBitlen (dropOut s)))

end Sys2Proof.Machine
end

