-- ==== Sys2Proof/Machine/TreeBuilder.lean ====
section
/-! DEFINITION. The tree builder and BUILD (R160 to R169 of 42_tree_builder.md). -/

namespace Sys2Proof.Machine

/-- The present symbols with their counts, ascending: the insertion order of the leaves (R161). -/
def present (F : FreqTable) : List (Byte × Count) := F.rows.filter fun e => e.2 != 0

/-- An entry `(w, seq, node)` of the builder's priority structure (R160). -/
structure QEntry where
  /-- The node's weight. -/
  w : Weight
  /-- The insertion sequence number. -/
  seq : Nat
  /-- The node. -/
  node : Node
deriving DecidableEq, Repr

/-- Entry `a` is extracted before entry `b`: by weight, then by insertion order (R160). -/
def QEntry.before (a b : QEntry) : Bool := decide (a.w < b.w) || (a.w == b.w && decide (a.seq < b.seq))

/-- Insertion into the queue, which is kept in extraction order; `extract_min` takes its head. -/
def insertEntry (e : QEntry) : List QEntry → List QEntry
  | [] => [e]
  | x :: rest => if e.before x then e :: x :: rest else x :: insertEntry e rest

/-- The leaf of the `j`-th present symbol, with sequence number `j` (R161). Its weight is the count, widened (R166). -/
def leafEntry (e : Byte × Count) (j : Nat) : QEntry :=
  { w := e.2.setWidth 40, seq := j, node := .leaf e.1 (e.2.setWidth 40) }

/-- The queue of the leaves, inserted in ascending symbol order (R161, R163). -/
def leafQueue (S : List (Byte × Count)) : List QEntry :=
  (S.zipIdx.map fun e => leafEntry e.1 e.2).foldl (fun Q e => insertEntry e Q) []

/-- The node of one merge: the first extracted, `a`, becomes the right child and the second, `b`, the left (R162). -/
def mergeEntries (a b : QEntry) (next : Nat) : QEntry :=
  { w := a.w + b.w, seq := next, node := .inner (a.w + b.w) b.node a.node }

/-- The loop of R163, at most `fuel` merges: while two entries are left, extract two and insert their merge. -/
def mergeLoop : Nat → List QEntry → Nat → List QEntry
  | fuel + 1, a :: b :: rest, next => mergeLoop fuel (insertEntry (mergeEntries a b next) rest) (next + 1)
  | _, Q, _ => Q

/-- `build(F)` (R163, with R164 and R165 for no symbol and for one). The loop ends with one entry, so its last arm is
never taken (log entry 20). -/
def build (F : FreqTable) : HuffTree :=
  match present F with
  | [] => .empty
  | [e] => .root (.single (e.2.setWidth 40) (.leaf e.1 (e.2.setWidth 40)))
  | S =>
    match mergeLoop S.length (leafQueue S) S.length with
    | e :: _ => .root e.node
    | [] => .empty

/-- BUILD (R168). It never raises (R169). -/
def execBuild (s : State) : Host.Outcome State Fault Refusal := .next (finish (writeTree (build s.freq) s))

end Sys2Proof.Machine
end

