-- ==== Sys2Proof/Machine/CodeTable.lean ====
section
/-! DEFINITION. The code table unit and DERIVE (R180 to R184 of 43_code_table.md). -/

namespace Sys2Proof.Machine

/-- The leaves below a node reached by the path `p`, with their paths: 0 for left, 1 for right (R11, R180). -/
def leafCodes : Node → BitSeq → List (Byte × BitSeq)
  | .leaf s _, p => [(s, p)]
  | .inner _ l r, p => leafCodes l (p ++ [false]) ++ leafCodes r (p ++ [true])
  | .single _ l, p => leafCodes l (p ++ [false])

/-- `derive(T)` (R180). It has no argument for NONE: DERIVE refuses that one. -/
def derive : HuffTree → CodeTable
  | .empty => Table.fill []
  | .root n => (leafCodes n []).foldl (fun C e => C.set e.1 e.2) (Table.fill [])

/-- DERIVE (R184). On NOT_READY nothing is written (R302). -/
def execDerive (s : State) : Host.Outcome State Fault Refusal :=
  match s.tree with
  | some T => .next (finish (writeCode (derive T) s))
  | none => .next (raiseError { kind := .notReady, info := 0 } s)

end Sys2Proof.Machine
end

