-- ==== Sys2Proof/Machine/Frequency.lean ====
section
/-! DEFINITION. The frequency table unit and the commands that touch no other: NOP (R125 of 40_host_bus.md), CLEAR and
COUNT (R140 to R142 of 41_frequency_table.md). -/

namespace Sys2Proof.Machine

/-- `count(B)`: how often each symbol stands in `B` (R140). -/
def count (B : List Byte) : FreqTable := Table.ofFn fun s => BitVec.ofNat 32 (B.count s)

/-- NOP (R125). -/
def execNop (s : State) : Host.Outcome State Fault Refusal := .next (finish s)

/-- CLEAR (R141). -/
def execClear (s : State) : Host.Outcome State Fault Refusal := .next (finish (writeFreq (Table.fill 0) s))

/-- COUNT (R142). On an error nothing is written (R302). -/
def execCount (s : State) : Host.Outcome State Fault Refusal :=
  match checkInLen s with
  | .ok () => .next (finish (writeFreq (count s.input) s))
  | .error e => .next (raiseError e s)

end Sys2Proof.Machine
end

