-- ==== Sys2Proof/Machine/Serializer.lean ====
section
/-! DEFINITION. The tree serializer, SERIALIZE and PARSE (R230 to R235 of 45_tree_serializer.md). -/

namespace Sys2Proof.Machine

/-- `serialize(F)`: the table header (R230, R231). -/
def serialize (F : FreqTable) : List Byte :=
  be16 (present F).length ++ (present F).flatMap fun e => e.1 :: be32 e.2

/-- An entry's symbol is not above the one before it: `j > 0 and s <= B[2 + 5(j-1)]` (R232). -/
def outOfOrder (prev : Option Byte) (sym : Byte) : Bool :=
  match prev with
  | none => false
  | some q => decide (sym ≤ q)

/-- The loop of `parse` (R232): `k` entries to go, entry `j` next, `prev` the symbol before it, in an input of `n` bytes.
The caller has checked that the bytes are there, so the last arm is never taken (log entry 21). -/
def parseEntries (n : Nat) : Nat → Nat → Option Byte → List Byte → FreqTable → Except CmdError FreqTable
  | 0, _, _, _, F => .ok F
  | k + 1, j, prev, sym :: c3 :: c2 :: c1 :: c0 :: rest, F =>
    if outOfOrder prev sym then .error { kind := .corruptHeader, info := BitVec.ofNat 32 (2 + 5 * j) }
    else if rdBE32 c3 c2 c1 c0 = 0 then .error { kind := .construction, info := BitVec.ofNat 32 (3 + 5 * j) }
    else parseEntries n k (j + 1) (some sym) rest (F.set sym (rdBE32 c3 c2 c1 c0))
  | _ + 1, _, _, _, _ => .error { kind := .truncatedInput, info := BitVec.ofNat 32 n }

/-- `parse(B)`: the table and the header's length, or the first check that fails (R232). -/
def parse (B : List Byte) : Except CmdError (FreqTable × Nat) :=
  match B with
  | b0 :: b1 :: rest =>
    if 256 < rdBE16 b0 b1 then .error { kind := .corruptHeader, info := 0 }
    else if B.length < 2 + 5 * rdBE16 b0 b1 then .error { kind := .truncatedInput, info := BitVec.ofNat 32 B.length }
    else
      match parseEntries B.length (rdBE16 b0 b1) 0 none rest (Table.fill 0) with
      | .ok F => .ok (F, 2 + 5 * rdBE16 b0 b1)
      | .error e => .error e
  | _ => .error { kind := .truncatedInput, info := BitVec.ofNat 32 B.length }

/-- SERIALIZE (R233), with the error effects of R302. -/
def execSerialize (s : State) : Host.Outcome State Fault Refusal :=
  match checkFits s (serialize s.freq) with
  | .ok () => .next (finish (writeHdrLen (serialize s.freq).length (writeOut (serialize s.freq) s)))
  | .error e => .next (raiseError e (dropHdrLen (dropOut s)))

/-- What PARSE writes: the table and the header's length (R234). -/
def parseOutput (s : State) : Except CmdError (FreqTable × Nat) := do
  checkInLen s
  parse s.input

/-- PARSE (R234). On an error HDR_LEN is 0 and nothing else is written (R302). -/
def execParse (s : State) : Host.Outcome State Fault Refusal :=
  match parseOutput s with
  | .ok (F, H) => .next (finish (writeHdrLen H (writeFreq F s)))
  | .error e => .next (raiseError e (dropHdrLen s))

end Sys2Proof.Machine
end

