-- ==== Sys2Proof/Machine/Codec.lean ====
section
/-! DEFINITION. The codec: the code lookup, the decode walk, ENCODE, DECODE, COMPRESS and DECOMPRESS
(R260 to R269 of 46_codec.md). -/

namespace Sys2Proof.Machine

/-- `encode_bits(C, X, base)`: the codes of the bytes in order; the first byte with no code wins (R260). -/
def encodeBits (C : Byte → BitSeq) : List Byte → Nat → Except CmdError BitSeq
  | [], _ => .ok []
  | x :: rest, base =>
    if (C x).length = 0 then .error { kind := .unmappedSymbol, info := BitVec.ofNat 32 base }
    else
      match encodeBits C rest (base + 1) with
      | .ok b => .ok (C x ++ b)
      | .error e => .error e

/-- The child of a node on bit `b`, if it has one: 0 left, 1 right (R11, R261). -/
def Node.child : Node → Bool → Option Node
  | .leaf _ _, _ => none
  | .inner _ l _, false => some l
  | .inner _ _ r, true => some r
  | .single _ l, false => some l
  | .single _ _, true => none

/-- The loop of `walk` below the root `r`: at node `cur`, bit `i` next (R261). -/
def walkFrom (r : Node) : Node → Nat → BitSeq → Except CmdError (List Byte)
  | cur, i, [] =>
    if cur = r then .ok [] else .error { kind := .malformedStream, info := BitVec.ofNat 32 i }
  | cur, i, b :: rest =>
    match cur.child b with
    | none => .error { kind := .malformedStream, info := BitVec.ofNat 32 i }
    | some (.leaf s _) =>
      match walkFrom r r (i + 1) rest with
      | .ok out => .ok (s :: out)
      | .error e => .error e
    | some nxt => walkFrom r nxt (i + 1) rest

/-- `walk(T, b)`: the decode walk (R261). -/
def walk (T : HuffTree) (b : BitSeq) : Except CmdError (List Byte) :=
  match T with
  | .empty => if b.length = 0 then .ok [] else .error { kind := .malformedStream, info := 0 }
  | .root r => walkFrom r r 0 b

/-- The check of CODE_VALID: NOT_READY where it is 0 (R262, R304). -/
def checkCodeValid (s : State) : Except CmdError Unit :=
  if s.codeValid then .ok () else .error { kind := .notReady, info := 0 }

/-- What ENCODE writes: the packed payload and the number of its bits (R262). -/
def encodeOutput (s : State) : Except CmdError (List Byte × Nat) := do
  checkInLen s
  checkCodeValid s
  let b ← encodeBits s.codeOf s.input 0
  checkFits s (pack b)
  return (pack b, b.length)

/-- ENCODE (R262), with the error effects of R302. -/
def execEncode (s : State) : Host.Outcome State Fault Refusal :=
  match encodeOutput s with
  | .ok (P, n) => .next (finish (writeOutBitlen n (writeOut P s)))
  | .error e => .next (raiseError e (dropOutBitlen (dropOut s)))

/-- TREE, or NOT_READY where it is NONE (R263, R304). -/
def readTree (s : State) : Except CmdError HuffTree :=
  match s.tree with
  | some T => .ok T
  | none => .error { kind := .notReady, info := 0 }

/-- What DECODE writes: the decoded bytes and the number of payload bits (R263). The walk ends before the length is
checked, so MALFORMED_STREAM wins over OUT_OVERFLOW (R304). -/
def decodeOutput (s : State) : Except CmdError (List Byte × Nat) := do
  checkInLen s
  let T ← readTree s
  let b ← unpack s.input 0 s.inLen
  let D ← walk T b
  checkFits s D
  return (D, b.length)

/-- DECODE (R263), with the error effects of R302. -/
def execDecode (s : State) : Host.Outcome State Fault Refusal :=
  match decodeOutput s with
  | .ok (D, n) => .next (finish (writeOutBitlen n (writeOut D s)))
  | .error e => .next (raiseError e (dropOutBitlen (dropOut s)))

/-- The error effects of COMPRESS and DECOMPRESS on the output and all three lengths (R302). -/
def dropArtifact (s : State) : State := dropHdrLen (dropOutBitlen (dropOut s))

/-- The bits of `X` under the codes of its own table: step 3 of COMPRESS (R264). -/
def compressBits (X : List Byte) : Except CmdError BitSeq := encodeBits (derive (build (count X))).get X 0

/-- The artifact of the table `F` and the bits `b` (R266). -/
def artifact (F : FreqTable) (b : BitSeq) : List Byte := serialize F ++ pack b

/-- What COMPRESS writes after its tables: the artifact and the number of encoded bits (R264). -/
def compressOutput (s : State) : Except CmdError (List Byte × Nat) := do
  let b ← compressBits s.input
  checkFits s (artifact (count s.input) b)
  return (artifact (count s.input) b, b.length)

/-- The tables COMPRESS commits before its OUT_OVERFLOW check (R264). -/
def commitCompress (s : State) : State :=
  writeCode (derive (build (count s.input))) (writeTree (build (count s.input)) (writeFreq (count s.input) s))

/-- COMPRESS (R264), with the error effects of R302. -/
def execCompress (s : State) : Host.Outcome State Fault Refusal :=
  match checkInLen s with
  | .error e => .next (raiseError e (dropArtifact s))
  | .ok () =>
    match compressOutput s with
    | .error e => .next (raiseError e (dropArtifact (commitCompress s)))
    | .ok (A, n) =>
      .next (finish (writeHdrLen (serialize (count s.input)).length
        (writeOutBitlen n (writeOut A (commitCompress s)))))

/-- Steps 1 and 2 of DECOMPRESS: the table, the header's length and the payload bits (R265). -/
def decompressHeader (s : State) : Except CmdError (FreqTable × Nat × BitSeq) := do
  checkInLen s
  let (F, H) ← parse s.input
  let b ← unpack (s.input.drop H) H s.inLen
  return (F, H, b)

/-- The tables DECOMPRESS commits before its walk (R265). -/
def commitDecompress (F : FreqTable) (s : State) : State := writeTree (build F) (writeFreq F s)

/-- Step 3 of DECOMPRESS: the decoded bytes (R265). -/
def decompressOutput (s : State) (F : FreqTable) (b : BitSeq) : Except CmdError (List Byte) := do
  let D ← walk (build F) b
  checkFits s D
  return D

/-- DECOMPRESS (R265), with the error effects of R302. It reads no earlier FREQ, TREE or CODE. -/
def execDecompress (s : State) : Host.Outcome State Fault Refusal :=
  match decompressHeader s with
  | .error e => .next (raiseError e (dropArtifact s))
  | .ok (F, H, b) =>
    match decompressOutput s F b with
    | .error e => .next (raiseError e (dropArtifact (commitDecompress F s)))
    | .ok D => .next (finish (writeHdrLen H (writeOutBitlen b.length (writeOut D (commitDecompress F s)))))

end Sys2Proof.Machine
end

