-- ==== Sys2Proof/Machine/Sequencer.lean ====
section
/-! DEFINITION. What each agent's step does (R20 of 10_state.md): the CORE's completion (R124 of 40_host_bus.md, R343
of 70_reset_and_hazards.md), the HOST's next operation (R120, R121), and the platform's reset input (R340). -/

namespace Sys2Proof.Machine

/-- The CORE's step: enabled in INIT and BUSY (R20). It runs the command the latched word selects, or completes an
illegal word (R124, R126). -/
def coreStep (s : State) : Host.Outcome State Fault Refusal :=
  match s.seq with
  | .init => .next (finishInit s)
  | .idle => .next s
  | .busy w =>
    match decode w with
    | .ok i => exec i s
    | .error _ => .next (completeIllegal w s)

/-- The HOST's step: the oldest operation of its script. WAIT stays until a STATUS read finds BUSY 0 (R105). -/
def hostStep (s : State) : State :=
  match s.script with
  | [] => s
  | .rd addr :: rest => readStep (Params.offsetOf s.params addr) { s with script := rest }
  | .wr addr w strb :: rest => hostWrite (Params.offsetOf s.params addr) w strb { s with script := rest }
  | .wait :: rest => if s.isBusy then readStep 0x00C s else readStep 0x00C { s with script := rest }

/-- One turn. While `rst` is asserted neither agent steps; its release is the reset action (R340, R341). -/
def takeTurn (t : Turn) (s : State) : Host.Outcome State Fault Refusal :=
  match t with
  | .rstPin true => .next { s with rst := true }
  | .rstPin false => .next (if s.rst then resetAction { s with rst := false } else s)
  | .host => .next (if s.rst then s else hostStep s)
  | .core => if s.rst then .next s else coreStep s

/-- Who moves when no turn is given: CORE while BUSY, else HOST (log entry 3). -/
def defaultTurn (s : State) : Turn := if s.isBusy then .core else .host

end Sys2Proof.Machine
end

