-- ==== Sys2Proof/Machine/Step.lean ====
section
/-! DEFINITION. One step of the machine: the next turn (R20 of 10_state.md; log entry 3). -/

namespace Sys2Proof.Machine

/-- One step: the next turn of the schedule, or the default one. -/
def step (s : State) : Host.Outcome State Fault Refusal :=
  match s.sched with
  | t :: rest => takeTurn t { s with sched := rest }
  | [] => takeTurn (defaultTurn s) s

/-- `s` with the table row's word latched as an accepted command and the CORE's turn next, so that the next step runs
it: the block fetches nothing, a command word is latched by its CMD write (R87, R122; log entry 16). -/
def State.withFetchWord (s : State) (nbits w : Nat) : State :=
  let t := placeCommand (tableWord nbits w) s
  { t with rst := false, sched := .core :: t.sched }

end Sys2Proof.Machine
end

