-- ==== Sys2Proof/Machine/Script.lean ====
section
/-! DEFINITION. The HOST's script: the statements of R104 and the pseudo-instructions of R105 (30_encoding.md) as
operations of the HOST, for an instance with BASE `base`. A script is what State's `script` holds. -/

namespace Sys2Proof.Machine.Script

/-- `RD off` (R104). -/
def rd (base off : Nat) : List HostOp := [.rd (base + off)]

/-- `WR off, data, strb` (R104). -/
def wrStrb (base off : Nat) (data : Word) (strb : BitVec 4) : List HostOp := [.wr (base + off) data strb]

/-- `WR off, data`: all four strobes (R104). -/
def wr (base off : Nat) (data : Word) : List HostOp := wrStrb base off data 0xF#4

/-- `CMD M` (R105). -/
def cmd (base : Nat) (i : Instr) : List HostOp := wr base 0x008 (encode i)

/-- `ANALYZE`: `CMD COUNT` (R105, R143). -/
def analyze (base : Nat) : List HostOp := cmd base .count

/-- `WAIT` (R105). -/
def wait : List HostOp := [.wait]

/-- `CLRST`: clears DONE, ERR and DROP (R105). -/
def clrst (base : Nat) : List HostOp := wr base 0x00C 0x0000000E#32

/-- `EXPECT off, v`: a read; its claim about the value is the script's, with no bus effect (R105). -/
def expect (base off : Nat) (_v : Word) : List HostOp := rd base off

/-- The IN-window writes of LOADIN, for the bytes from offset `i` on: whole words, then the strobed rest (R105). -/
def loadWords (base : Nat) : Nat → List Byte → List HostOp
  | _, [] => []
  | i, [b0] => wrStrb base (0x1000000 + i) (wordOfLanes b0 0 0 0) 0x1#4
  | i, [b0, b1] => wrStrb base (0x1000000 + i) (wordOfLanes b0 b1 0 0) 0x3#4
  | i, [b0, b1, b2] => wrStrb base (0x1000000 + i) (wordOfLanes b0 b1 b2 0) 0x7#4
  | i, b0 :: b1 :: b2 :: b3 :: rest =>
    wrStrb base (0x1000000 + i) (wordOfLanes b0 b1 b2 b3) 0xF#4 ++ loadWords base (i + 4) rest

/-- `LOADIN`: the bytes into IN_MEM, then IN_LEN (R105). -/
def loadIn (base : Nat) (B : List Byte) : List HostOp :=
  loadWords base 0 B ++ wr base 0x018 (BitVec.ofNat 32 B.length)

/-- `LOADBITS`: LOADIN of the bits zero-filled to bytes, then IN_BITLEN (R105). -/
def loadBits (base : Nat) (b : BitSeq) : List HostOp :=
  loadIn base (alignedBytes b) ++ wr base 0x01C (BitVec.ofNat 32 b.length)

end Sys2Proof.Machine.Script
end

