-- ==== Sys2Proof/Safety.lean ====
section
/-! DEFINITION. What a good state is, in the terms the statements use: the invariant of the machine (R47 of
10_state.md with the bounds of R6, R29, R33, R122), and the shape of a tree (R167 of 42_tree_builder.md). -/

namespace Sys2Proof.Machine

/-- The invariant: what holds in every state a run from reset reaches. -/
structure Invariant (s : State) : Prop where
  /-- The instance is within the bounds of R6. -/
  params_wf : s.params.wf
  /-- IN_MEM is in its canonical form. -/
  inMem_wf : Memory.wf s.inMem
  /-- IN_MEM has no byte at or past CAP_IN (R44). -/
  inMem_inside : ∀ c ∈ s.inMem, c.1 < s.params.capIn
  /-- The specified bytes of OUT_MEM are exactly `OUT[0 .. OUT_LEN)` (R45). -/
  outMem_offsets : s.outMem.map Prod.fst = List.range s.outLen.toNat
  /-- The output fits OUT_MEM (R45). -/
  outLen_inside : s.outLen.toNat ≤ s.params.capOut
  /-- CODE_VALID = 1: TREE_VALID = 1 and CODE = derive(TREE) (R47, item 1). -/
  code_fresh : s.codeValid = true → ∃ T, s.tree = some T ∧ s.code = .written (derive T)
  /-- TREE_VALID = 1: TREE = build(FREQ) (R47, item 2). -/
  tree_fresh : ∀ T, s.tree = some T → T = build s.freq
  /-- In INIT there is no tree (R341). -/
  init_no_tree : s.seq = .init → s.tree = none
  /-- While BUSY or in INIT the completion flags and error registers are 0 (R122, R129, R341). -/
  busy_flags : s.seq ≠ .idle → s.done = false ∧ s.err = false ∧ s.errCode = 0 ∧ s.errInfo = 0
  /-- ERR_CODE is 0..9 (R29). -/
  errCode_range : s.errCode.toNat ≤ 9
  /-- ERR = 1 comes with an error code (R301). -/
  err_has_code : s.err = true → s.errCode ≠ 0

/-- A node's weight. -/
def Node.weight : Node → Weight
  | .leaf _ w => w
  | .inner w _ _ => w
  | .single w _ => w

/-- A node's leaves, left to right, with their weights. -/
def Node.leafWeights : Node → List (Byte × Weight)
  | .leaf s w => [(s, w)]
  | .inner _ l r => l.leafWeights ++ r.leafWeights
  | .single _ l => l.leafWeights

/-- How many internal nodes there are. -/
def Node.innerCount : Node → Nat
  | .leaf _ _ => 0
  | .inner _ l r => l.innerCount + r.innerCount + 1
  | .single _ l => l.innerCount + 1

/-- Every internal node has two children (R167). -/
def Node.full : Node → Bool
  | .leaf _ _ => true
  | .inner _ l r => l.full && r.full
  | .single _ _ => false

/-- Every internal node's weight is the exact sum of its children's (R162, R166). -/
def Node.weightsAdd : Node → Bool
  | .leaf _ _ => true
  | .inner w l r => decide (w.toNat = l.weight.toNat + r.weight.toNat) && l.weightsAdd && r.weightsAdd
  | .single w l => decide (w = l.weight) && l.weightsAdd

/-- The node a path leads to, if it leads to one: 0 left, 1 right (R11). -/
def Node.follow : Node → BitSeq → Option Node
  | n, [] => some n
  | n, b :: p => (n.child b).bind fun m => m.follow p

/-- The turn the next step takes. -/
def State.turn (s : State) : Turn := s.sched.headD (defaultTurn s)

/-- The next step is the HOST's write of `w` with strobes `strb` to the aligned offset `4 * j`. -/
def State.hostWrites (s : State) (j : Nat) (w : Word) (strb : BitVec 4) : Prop :=
  s.turn = .host ∧ s.rst = false ∧
    ∃ addr rest, s.script = .wr addr w strb :: rest ∧ (Params.offsetOf s.params addr).toNat / 4 = j

/-- The next step is a reset (R340): a CTRL write of SRESET with strobe lane 0 (R342), or the release of `rst`. -/
def State.resets (s : State) : Prop :=
  (∃ w strb, s.hostWrites 1 w strb ∧ strb.getLsbD 0 = true ∧ w.getLsbD 1 = true) ∨
    (s.turn = .rstPin false ∧ s.rst = true)

end Sys2Proof.Machine
end

