-- ==== Sys2Proof/Certificates/Slice0/Obligations.lean ====
section
/-! DEFINITION. The statements about the model, from the numbered rules of spec/. A docstring names the rule or the
section a statement formalises. `draws` and `hostReads` are the model's own fields (log entries 2 and 4). -/

open Sys2Proof Sys2Proof.Machine Host

/-! ## The state a rule names, written as a record -/

/-- `finish()` as R124 writes it. -/
def Sys2Proof.Spec.completed (s : State) : State :=
  { s with done := true, seq := .idle, draws := s.draws + 1 }

/-- `raise E(info)` as R301 writes it, after the command's error effects. -/
def Sys2Proof.Spec.failed (code : BitVec 4) (info : Word) (s : State) : State :=
  { s with errCode := code, errInfo := info, err := true, done := true, seq := .idle, draws := s.draws + 1 }

/-- The row of R302 for ENCODE, DECODE, PACK and UNPACK. -/
def Sys2Proof.Spec.noOutput (s : State) : State := { s with outMem := [], outLen := 0, outBitlen := 0 }

/-- The rows of R302 for COMPRESS and DECOMPRESS. -/
def Sys2Proof.Spec.noArtifact (s : State) : State :=
  { s with outMem := [], outLen := 0, outBitlen := 0, hdrLen := 0 }

/-- `s` went on to `t`, whose output is `P` (R10, R78): the bytes of `P` from offset 0 and no other specified byte. -/
def Sys2Proof.Spec.outputs (P : List Byte) (t : State) : Prop :=
  t.outLen = BitVec.ofNat 32 P.length ∧ ∀ a, Memory.get? t.outMem a = P[a]?

/-- The present symbols of a table, ascending (R161, R231). -/
def Sys2Proof.Spec.symbols (F : FreqTable) : List Byte := allSymbols.filter fun x => decide (F.get x ≠ 0)

/-- One turn of the loop of R163: of the entries of `Q`, `a` is extracted first and `b` next (R160), and `Q'` holds the
others and their merge, with the sequence number `next`, the second extracted on the left, the first on the right (R162). -/
def Sys2Proof.Spec.mergesFirstTwo (next : Nat) (Q Q' : List QEntry) : Prop :=
  ∃ a b others, Q.Perm (a :: b :: others) ∧ (∀ x ∈ b :: others, a.before x = true) ∧
    (∀ x ∈ others, b.before x = true) ∧
    Q'.Perm ({ w := a.w + b.w, seq := next, node := .inner (a.w + b.w) b.node a.node } :: others)

open Sys2Proof.Spec

/-! ## Encoding -/

/-- R101: a word selects a command exactly when it is that command's OP with bits 31:4 zero; the words are the table's. -/
def Obligations.WordSelectsCommandExactlyWhenItIsItsWord : Prop :=
  (∀ (w : Word) (i : Instr), decode w = .ok i ↔ w = encode i) ∧
  (∀ (w : Word) (i : Instr), w = encode i ↔
    w.extractLsb' 0 4 = (encode i).extractLsb' 0 4 ∧ w.extractLsb' 4 28 = 0) ∧
  [Instr.nop, .clear, .count, .build, .derive, .serialize, .parse, .encode, .decode, .pack, .unpack, .compress,
    .decompress].map encode = [0x0#32, 0x1, 0x2, 0x3, 0x4, 0x5, 0x6, 0x7, 0x8, 0x9, 0xA, 0xB, 0xC]

/-- R103, R126: the illegal words; one written while IDLE is accepted and completes with ILLEGAL_COMMAND and nothing
else, one written while BUSY or in INIT is dropped. -/
def Obligations.IllegalWordCompletesWithIllegalCommand : Prop :=
  ∀ (s : State) (w : Word) (strb : BitVec 4) (off : BitVec 26),
    (w.extractLsb' 4 28 ≠ 0 ∨ w = 0xD#32 ∨ w = 0xE#32 ∨ w = 0xF#32 ↔ decode w = .error (.illegalWord w)) ∧
    (decode w = .error (.illegalWord w) →
      (s.seq = .busy w → coreStep s = .next (failed 5 w s)) ∧
      (off.toNat / 4 = 2 → s.seq = .idle → coreStep (hostWrite off w strb s) =
        .next (failed 5 w { s with lastOp := w.extractLsb' 0 4 })) ∧
      (off.toNat / 4 = 2 → s.seq ≠ .idle → hostWrite off w strb s = { s with drop := true }))

/-- One word of each family, written out from R100 and R101, decodes to its command; a word with MBZ set does not. -/
def Obligations.SampleWordsDecode : Prop :=
  decodeTableWord 32 0b00000000000000000000000000000000 = some .nop ∧
  decodeTableWord 32 0b00000000000000000000000000000010 = some .count ∧
  decodeTableWord 32 0b00000000000000000000000000000011 = some .build ∧
  decodeTableWord 32 0b00000000000000000000000000000100 = some .derive ∧
  decodeTableWord 32 0b00000000000000000000000000001010 = some .unpack ∧
  decodeTableWord 32 0b00000000000000000000000000000110 = some .parse ∧
  decodeTableWord 32 0b00000000000000000000000000001100 = some .decompress ∧
  decodeTableWord 32 0b00000000000000000000000000010010 = none ∧
  decodeTableWord 32 0b00000000000000000000000000001101 = none

/-! ## Steps -/

/-- A CORE turn in BUSY(w) is exec of the command that `w` selects. The schedule, and that CORE moves while BUSY when it
is empty, are the model's choice (log entry 3). -/
def Obligations.StepRunsTheLatchedCommand : Prop :=
  ∀ (s : State) (w : Word) (i : Instr), s.rst = false → s.seq = .busy w → decode w = .ok i →
    (s.sched = [] → step s = exec i s) ∧
    (∀ rest, s.sched = .core :: rest → step s = exec i { s with sched := rest })

/-- No step faults or is refused: no bus error exists and every command word has a meaning. -/
def Obligations.EveryStepAnswersNext : Prop :=
  ∀ s : State, ∃ t, step s = .next t

/-- A BUSY block whose schedule is empty completes its command in the next step: IDLE, DONE 1. That CORE moves first is
the model's choice (log entry 3). -/
def Obligations.BusyCommandCompletesInOneStep : Prop :=
  ∀ (s : State) (w : Word), s.rst = false → s.sched = [] → s.seq = .busy w →
    ∃ t, step s = .next t ∧ t.seq = .idle ∧ t.done = true ∧ t.lastOp = s.lastOp ∧ t.drop = s.drop

/-- Every step keeps the invariant. -/
def Obligations.StepKeepsInvariant : Prop :=
  ∀ s t : State, Invariant s → step s = .next t → Invariant t

/-- The invariant holds right after reset, on the instance the model chose for it (log entry 1). -/
def Obligations.ResetSatisfiesInvariant : Prop := Invariant State.reset

/-! ## Reset -/

/-- The values of R50 in the state after reset, and after the INIT step that follows it. The model's choice: the instance
whose CAP_IN and CAP_OUT are read (log entry 1), that the next step of State.reset is CORE's (log entry 3), and that FREQ
is 0 in INIT already (log entry 14: R50 against R341). -/
def Obligations.ResetLeavesTheStatedValues : Prop :=
  let s := State.reset
  (hostRead s 0x000 = 0x48554646 ∧ hostRead s 0x004 = 0 ∧ s.isBusy = true ∧ s.done = false ∧ s.err = false ∧
    s.drop = false ∧ s.codeValid = false ∧ s.lastOp = 0 ∧ hostRead s 0x010 = 0 ∧ hostRead s 0x014 = 0 ∧
    s.inLen = 0 ∧ s.inBitlen = 0 ∧ s.outLen = 0 ∧ s.outBitlen = 0 ∧ s.hdrLen = 0 ∧ symCount s.freq = 0 ∧
    hostRead s 0x030 = BitVec.ofNat 32 s.params.capIn ∧ hostRead s 0x034 = BitVec.ofNat 32 s.params.capOut ∧
    (∀ x, s.freq.get x = 0) ∧ s.code = .unspecified ∧ s.tree = none ∧
    (∀ a, Memory.get? s.inMem a = none) ∧ (∀ a, Memory.get? s.outMem a = none) ∧ s.seq = .init ∧ s.irq = false) ∧
  (∃ t, step s = .next t ∧ t.seq = .idle ∧ hostRead t 0x00C = 0 ∧ t.irq = false ∧ ∀ x, t.freq.get x = 0)

/-- A CTRL write with lane 0 and bit 1 resets at once, whatever runs: every register, CODE, TREE and both memories. FREQ
stays as it was until the INIT step clears it: that is the model's choice (log entry 13: R341, "FREQ is cleared by the
INIT step of rule R343, not by this action", against R342, which names FREQ). -/
def Obligations.SoftResetRestoresResetValues : Prop :=
  ∀ (s : State) (off : BitVec 26) (w : Word) (strb : BitVec 4), off.toNat / 4 = 1 →
    (strb.getLsbD 0 = true → w.getLsbD 1 = true →
      hostWrite off w strb s =
        { s with irqEn := false, done := false, err := false, drop := false, codeValid := false, lastOp := 0
                 errCode := 0, errInfo := 0, inLen := 0, inBitlen := 0, outLen := 0, outBitlen := 0, hdrLen := 0
                 code := .unspecified, tree := none, inMem := [], outMem := [], seq := .init } ∧
      (hostWrite off w strb s).irq = false ∧
      ∃ t, coreStep (hostWrite off w strb s) = .next t ∧ t.seq = .idle ∧ t.done = false ∧ ∀ x, t.freq.get x = 0) ∧
    (w.getLsbD 1 = false → strb.getLsbD 0 = true → hostWrite off w strb s = { s with irqEn := w.getLsbD 0 }) ∧
    (strb.getLsbD 0 = false → hostWrite off w strb s = s) ∧
    (hostRead s off).getLsbD 1 = false

/-- INIT ends with one CORE step that clears FREQ and sets no DONE. That CORE moves first is the model's choice (log
entry 3). -/
def Obligations.InitStepClearsFreqAndGoesIdle : Prop :=
  ∀ s : State, s.seq = .init → s.rst = false → s.sched = [] →
    ∃ t, step s = .next t ∧ (∀ x, t.freq.get x = 0) ∧
      t = { s with freq := t.freq, seq := .idle, draws := s.draws + 1 }

/-- The reset input: while it is asserted no agent's turn does anything; its release is the reset action, written out
whole. As after a soft reset, FREQ stays as it was until the INIT step clears it (log entry 13). The pin's turns are the
model's form (log entries 3 and 15). -/
def Obligations.ResetPinFreezesTheBlock : Prop :=
  ∀ (s : State) (rest : List Turn), s.rst = true →
    (s.sched = .host :: rest ∨ s.sched = .core :: rest → step s = .next { s with sched := rest }) ∧
    (s.sched = .rstPin false :: rest →
      step s = .next
        { s with irqEn := false, done := false, err := false, drop := false, codeValid := false, lastOp := 0
                 errCode := 0, errInfo := 0, inLen := 0, inBitlen := 0, outLen := 0, outBitlen := 0, hdrLen := 0
                 code := .unspecified, tree := none, inMem := [], outMem := [], seq := .init
                 rst := false, sched := rest } ∧
      ∀ t, step s = .next t → t.irq = false ∧
        ∃ u, coreStep t = .next u ∧ u.seq = .idle ∧ u.done = false ∧ ∀ x, u.freq.get x = 0)

/-! ## The life of a command -/

/-- R122: acceptance of a CMD write while IDLE, whatever its strobes. -/
def Obligations.CmdWriteWhileIdleIsAccepted : Prop :=
  ∀ (s : State) (off : BitVec 26) (w : Word) (strb : BitVec 4), off.toNat / 4 = 2 → s.seq = .idle →
    hostWrite off w strb s =
      { s with seq := .busy w, done := false, err := false, lastOp := w.extractLsb' 0 4, errCode := 0, errInfo := 0 } ∧
    (hostWrite off w strb s).isBusy = true ∧ (hostWrite off w strb s).irq = false

/-- R123, R128: what each host write does while BUSY, or in INIT; a CMD write is dropped. -/
def Obligations.HostWritesWhileBusy : Prop :=
  ∀ (s : State) (off : BitVec 26) (w : Word) (strb : BitVec 4), s.isBusy = true →
    (off.toNat / 4 = 2 → hostWrite off w strb s = { s with drop := true }) ∧
    (off.toNat / 4 = 1 → strb.getLsbD 0 = true → w.getLsbD 1 = false →
      hostWrite off w strb s = { s with irqEn := w.getLsbD 0 }) ∧
    (off.toNat / 4 = 1 → strb.getLsbD 0 = true → w.getLsbD 1 = true →
      (hostWrite off w strb s).seq = .init ∧ (hostWrite off w strb s).done = false) ∧
    (off.toNat / 4 = 3 → strb.getLsbD 0 = true → s.done = false → s.err = false →
      hostWrite off w strb s = { s with drop := s.drop && !w.getLsbD 3 }) ∧
    (off.toNat / 4 ≠ 1 → off.toNat / 4 ≠ 2 → off.toNat / 4 ≠ 3 → hostWrite off w strb s = s) ∧
    (off.toNat / 4 ≠ 2 → strb.getLsbD 0 = false → hostWrite off w strb s = s)

/-! ## The HOST's bus -/

/-- A transaction is one HOST step. A read returns the word at its offset and changes nothing of the block; a write is
hostWrite at its offset (R121). The script and the words read are the model's form (log entry 2), and so is that HOST
moves on an IDLE block when no turn is scheduled (log entry 3). -/
def Obligations.HostReadChangesNoState : Prop :=
  ∀ (s : State) (addr : Nat) (rest : List HostOp) (more : List Turn), s.rst = false →
    let off := Params.offsetOf s.params addr
    (s.script = .rd addr :: rest →
      (s.sched = .host :: more → step s = .next
        { s with script := rest, sched := more, draws := s.draws + 1, hostReads := hostRead s off :: s.hostReads }) ∧
      (s.sched = [] → s.seq = .idle → step s = .next
        { s with script := rest, draws := s.draws + 1, hostReads := hostRead s off :: s.hostReads })) ∧
    (∀ (w : Word) (strb : BitVec 4), s.script = .wr addr w strb :: rest →
      (s.sched = .host :: more → step s = .next (hostWrite off w strb { s with script := rest, sched := more })) ∧
      (s.sched = [] → s.seq = .idle → step s = .next (hostWrite off w strb { s with script := rest })))

/-- WAIT reads STATUS once a HOST turn, and goes on exactly when the BUSY bit it read was 0. WAIT as one item of the
script is the model's form (log entry 18). -/
def Obligations.WaitPollsStatusUntilNotBusy : Prop :=
  ∀ (s : State) (rest : List HostOp) (more : List Turn), s.rst = false → s.script = .wait :: rest →
    s.sched = .host :: more → ∃ v : Word, v.getLsbD 0 = s.isBusy ∧ v = hostRead s 0x00C ∧
      step s = .next { s with script := if v.getLsbD 0 then .wait :: rest else rest, sched := more
                              hostReads := v :: s.hostReads, draws := s.draws + 1 }

/-- R73: the two low offset bits are ignored, by reads and by writes. -/
def Obligations.LowOffsetBitsAreIgnored : Prop :=
  ∀ (s : State) (off : BitVec 26) (w : Word) (strb : BitVec 4),
    hostRead s off = hostRead s (off &&& ~~~3#26) ∧ hostWrite off w strb s = hostWrite (off &&& ~~~3#26) w strb s

/-- The address map, and the offset of a bus address (log entry 17 on addresses outside the window). -/
def Obligations.AddressMapPlacesEveryRegion : Prop :=
  (∀ (p : Params) (x : Nat), x < 2 ^ 26 → (Params.offsetOf p (p.base + x)).toNat = x) ∧
  ([Csr.id, .ctrl, .cmd, .status, .errCode, .errInfo, .inLen, .inBitlen, .outLen, .outBitlen, .hdrLen, .symCount,
    .capIn, .capOut].map Target.csr =
    [0x000, 0x004, 0x008, 0x00C, 0x010, 0x014, 0x018, 0x01C, 0x020, 0x024, 0x028, 0x02C, 0x030, 0x034].map targetOf) ∧
  (∀ off : BitVec 26, 0x038 ≤ off.toNat → off.toNat < 0x1000 → targetOf off = .unmapped) ∧
  (∀ x : Byte, targetOf (BitVec.ofNat 26 (0x1000 + 4 * x.toNat)) = .freq x) ∧
  (∀ off : BitVec 26, 0x1400 ≤ off.toNat → off.toNat < 0x4000 → targetOf off = .unmapped) ∧
  (∀ (x : Byte) (k : Nat), k < 16 → targetOf (BitVec.ofNat 26 (0x4000 + 64 * x.toNat + 4 * k)) = .code x k) ∧
  (∀ off : BitVec 26, 0x8000 ≤ off.toNat → off.toNat < 0x1000000 → targetOf off = .unmapped) ∧
  (∀ j : Nat, j < 2 ^ 22 → targetOf (BitVec.ofNat 26 (0x1000000 + 4 * j)) = .inWord (4 * j)) ∧
  (∀ j : Nat, j < 2 ^ 22 → targetOf (BitVec.ofNat 26 (0x2000000 + 4 * j)) = .outWord (4 * j)) ∧
  (∀ off : BitVec 26, 0x3000000 ≤ off.toNat → targetOf off = .unmapped)

/-- Unmapped offsets, unused CSR offsets and window bytes past the capacities read 0 and ignore writes (R71), and the
whole OUT window, below CAP_OUT too, ignores writes (R78). That a byte past CAP_OUT reads 0 while BUSY too is the model's
choice (log entry 10: R71 and R129 against R78). -/
def Obligations.UnmappedBytesReadZeroAndIgnoreWrites : Prop :=
  ∀ (s : State) (off : BitVec 26) (w : Word) (strb : BitVec 4),
    ((0x038 ≤ off.toNat ∧ off.toNat < 0x1000) ∨ (0x1400 ≤ off.toNat ∧ off.toNat < 0x4000) ∨
      (0x8000 ≤ off.toNat ∧ off.toNat < 0x1000000) ∨ 0x3000000 ≤ off.toNat →
      hostRead s off = 0 ∧ hostWrite off w strb s = s) ∧
    (∀ j L : Nat, j < 2 ^ 22 → L < 4 → off.toNat = 0x1000000 + 4 * j → s.params.capIn ≤ 4 * j + L →
      (hostRead s off).extractLsb' (8 * L) 8 = 0 ∧
      (Memory.wf s.inMem →
        Memory.get? (hostWrite off w strb s).inMem (4 * j + L) = Memory.get? s.inMem (4 * j + L))) ∧
    (∀ j L : Nat, j < 2 ^ 22 → L < 4 → off.toNat = 0x2000000 + 4 * j → s.params.capOut ≤ 4 * j + L →
      (hostRead s off).extractLsb' (8 * L) 8 = 0) ∧
    (0x2000000 ≤ off.toNat → hostWrite off w strb s = s)

/-- R74: the lanes of the IN and OUT windows are little-endian, bytes past the capacities 0 (OUT while IDLE). -/
def Obligations.MemoryWindowLanesAreLittleEndian : Prop :=
  ∀ (s : State) (j : Nat), j < 2 ^ 22 →
    (let b := fun i => if i < s.params.capIn then (s.inByte i).toNat else 0
     (hostRead s (BitVec.ofNat 26 (0x1000000 + 4 * j))).toNat =
      b (4 * j) + b (4 * j + 1) * 2 ^ 8 + b (4 * j + 2) * 2 ^ 16 + b (4 * j + 3) * 2 ^ 24) ∧
    (s.isBusy = false →
      let b := fun i => if i < s.params.capOut then (s.outByte i).toNat else 0
      (hostRead s (BitVec.ofNat 26 (0x2000000 + 4 * j))).toNat =
        b (4 * j) + b (4 * j + 1) * 2 ^ 8 + b (4 * j + 2) * 2 ^ 16 + b (4 * j + 3) * 2 ^ 24)

/-- An IN-window write while IDLE sets exactly the strobed bytes below CAP_IN, and has no effect while BUSY. -/
def Obligations.InWindowWriteSetsStrobedBytes : Prop :=
  ∀ (s : State) (j k : Nat) (w : Word) (strb : BitVec 4), j < 2 ^ 22 → k < 4 → Memory.wf s.inMem →
    let t := hostWrite (BitVec.ofNat 26 (0x1000000 + 4 * j + k)) w strb s
    (s.isBusy = true → t = s) ∧
    (s.isBusy = false → t = { s with inMem := t.inMem } ∧ ∀ a, Memory.get? t.inMem a =
      if a / 4 = j ∧ strb.getLsbD (a % 4) = true ∧ a < s.params.capIn then some (w.extractLsb' (8 * (a % 4)) 8)
      else Memory.get? s.inMem a)

/-- R79: the FREQ window; any strobed write invalidates TREE and CODE, even one that leaves the value unchanged. -/
def Obligations.FreqWindowReadsAndWritesTheTable : Prop :=
  ∀ (s : State) (x : Byte) (w : Word) (strb : BitVec 4),
    let off := BitVec.ofNat 26 (0x1000 + 4 * x.toNat)
    let t := hostWrite off w strb s
    (s.isBusy = false → hostRead s off = s.freq.get x) ∧
    (s.isBusy = true → t = s) ∧
    (s.isBusy = false → strb = 0 → t = s) ∧
    (s.isBusy = false → strb ≠ 0 →
      t = { s with freq := t.freq, tree := none, codeValid := false } ∧
      (∀ y, y ≠ x → t.freq.get y = s.freq.get y) ∧
      ∀ L : Nat, L < 4 → (t.freq.get x).extractLsb' (8 * L) 8 =
        if strb.getLsbD L = true then w.extractLsb' (8 * L) 8 else (s.freq.get x).extractLsb' (8 * L) 8)

/-- The CODE window while IDLE (R80); writes are ignored. That an entry nothing has written since reset is read in this
form too, with 0 past its free length and in words 9 to 15, is the model's choice (log entry 7: R80 and R341 against U4 of
93_implementation_defined.md). -/
def Obligations.CodeWindowReadsLengthAndLeftAlignedBits : Prop :=
  ∀ (s : State) (x : Byte) (k : Nat) (w : Word) (strb : BitVec 4), k < 16 →
    let off := BitVec.ofNat 26 (0x4000 + 64 * x.toNat + 4 * k)
    hostWrite off w strb s = s ∧
    (s.isBusy = false → (s.codeOf x).length ≤ 255 →
      (k = 0 → (hostRead s off).toNat = (s.codeOf x).length) ∧
      (1 ≤ k → k ≤ 8 → ∀ t : Nat, t < 32 →
        (hostRead s off).getLsbD (31 - t) = (s.codeOf x).getD (32 * (k - 1) + t) false) ∧
      (9 ≤ k → hostRead s off = 0))

/-- The control registers as the HOST reads them while IDLE; the read-only ones ignore writes, and a write of IN_LEN or
IN_BITLEN is kept as written, byte lanes by strobe (R31, R32, R72). -/
def Obligations.ControlRegistersReadTheirFields : Prop :=
  ∀ s : State, s.isBusy = false →
    hostRead s 0x000 = 0x48554646 ∧
    (hostRead s 0x004).toNat = s.irqEn.toNat ∧
    hostRead s 0x008 = 0 ∧
    (hostRead s 0x010).toNat = s.errCode.toNat ∧
    hostRead s 0x014 = s.errInfo ∧ hostRead s 0x018 = s.inLen ∧ hostRead s 0x01C = s.inBitlen ∧
    hostRead s 0x020 = s.outLen ∧ hostRead s 0x024 = s.outBitlen ∧ hostRead s 0x028 = s.hdrLen ∧
    (hostRead s 0x02C).toNat = (symbols s.freq).length ∧
    hostRead s 0x030 = BitVec.ofNat 32 s.params.capIn ∧ hostRead s 0x034 = BitVec.ofNat 32 s.params.capOut ∧
    ∀ (off : BitVec 26) (w : Word) (strb : BitVec 4),
      let lanes := fun (old new : Word) => ∀ L : Nat, L < 4 →
        new.extractLsb' (8 * L) 8 = if strb.getLsbD L = true then w.extractLsb' (8 * L) 8 else old.extractLsb' (8 * L) 8
      let t := hostWrite off w strb s
      (off.toNat / 4 ∈ [0, 4, 5, 8, 9, 10, 11, 12, 13] → t = s) ∧
      (off.toNat / 4 = 6 → t = { s with inLen := t.inLen } ∧ lanes s.inLen t.inLen ∧ (strb = 0xF → t.inLen = w)) ∧
      (off.toNat / 4 = 7 → t = { s with inBitlen := t.inBitlen } ∧ lanes s.inBitlen t.inBitlen ∧
        (strb = 0xF → t.inBitlen = w))

/-- The values that are exact while BUSY, in a state that a run reaches: R129 of 40_host_bus.md, "Exact values: ID, CTRL,
ERR_CODE (0), ERR_INFO (0), IN_LEN, IN_BITLEN, CAP_IN, CAP_OUT". For ERR_CODE, ERR_INFO, IN_LEN and IN_BITLEN that is the
model's choice (log entry 11: R129 against the summary of R345, by which such reads return any value). -/
def Obligations.ExactReadsWhileBusy : Prop :=
  ∀ s : State, Invariant s → s.isBusy = true →
    hostRead s 0x000 = 0x48554646 ∧ (hostRead s 0x004).toNat = s.irqEn.toNat ∧
    hostRead s 0x010 = 0 ∧ hostRead s 0x014 = 0 ∧ hostRead s 0x018 = s.inLen ∧ hostRead s 0x01C = s.inBitlen ∧
    hostRead s 0x030 = BitVec.ofNat 32 s.params.capIn ∧ hostRead s 0x034 = BitVec.ofNat 32 s.params.capOut ∧
    (hostRead s 0x00C).getLsbD 0 = true ∧ (hostRead s 0x00C).getLsbD 1 = false ∧
    (hostRead s 0x00C).getLsbD 2 = false ∧ (hostRead s 0x00C).getLsbD 3 = s.drop ∧
    (hostRead s 0x00C).extractLsb' 6 2 = 0 ∧
    (hostRead s 0x00C).extractLsb' 8 4 = s.lastOp ∧ (hostRead s 0x00C).extractLsb' 12 20 = 0

/-- The layout of STATUS while IDLE, and its write-one-to-clear bits. -/
def Obligations.StatusLayoutAndWriteOneToClear : Prop :=
  ∀ (s : State) (off : BitVec 26) (w : Word) (strb : BitVec 4), off.toNat / 4 = 3 →
    (s.isBusy = false →
      (hostRead s off).getLsbD 0 = false ∧ (hostRead s off).getLsbD 1 = s.done ∧ (hostRead s off).getLsbD 2 = s.err ∧
      (hostRead s off).getLsbD 3 = s.drop ∧ (hostRead s off).getLsbD 4 = s.tree.isSome ∧
      (hostRead s off).getLsbD 5 = s.codeValid ∧ (hostRead s off).extractLsb' 6 2 = 0 ∧
      (hostRead s off).extractLsb' 8 4 = s.lastOp ∧ (hostRead s off).extractLsb' 12 20 = 0) ∧
    (strb.getLsbD 0 = true → hostWrite off w strb s =
      { s with done := if w.getLsbD 1 then false else s.done
               err := if w.getLsbD 2 then false else s.err
               drop := if w.getLsbD 3 then false else s.drop }) ∧
    (strb.getLsbD 0 = false → hostWrite off w strb s = s)

/-! ## What can change a flag, over all steps -/

/-- DONE rises only at a command's completion, and irq only there or when IRQ_EN is set. -/
def Obligations.OnlyCompletionRaisesDoneAndIrq : Prop :=
  ∀ s t : State, step s = .next t →
    t.irq = (t.irqEn && t.done) ∧
    (s.done = false → t.done = true → s.turn = .core ∧ t.seq = .idle ∧ ∃ w, s.seq = .busy w) ∧
    (s.irq = false → t.irq = true →
      (s.turn = .core ∧ t.seq = .idle ∧ ∃ w, s.seq = .busy w) ∨ (s.irqEn = false ∧ t.irqEn = true))

/-- DROP rises only by a CMD write while BUSY, and falls only by its W1C bit or a reset: a CTRL write of SRESET, or the
release of `rst`. -/
def Obligations.OnlyDroppedCommandRaisesDrop : Prop :=
  ∀ s t : State, step s = .next t →
    (s.drop = false → t.drop = true → s.isBusy = true ∧ ∃ w strb, s.hostWrites 2 w strb) ∧
    (s.drop = true → t.drop = false →
      s.resets ∨ ∃ w strb, s.hostWrites 3 w strb ∧ strb.getLsbD 0 = true ∧ w.getLsbD 3 = true)

/-- ERR = 1 with DONE = 0 arises only by a W1C of DONE that leaves ERR. -/
def Obligations.ErrWithoutDoneOnlyAfterW1cOfDone : Prop :=
  ∀ s t : State, (s.err = true → s.done = true) → step s = .next t → t.err = true → t.done = false →
    ∃ w strb, s.hostWrites 3 w strb ∧ strb.getLsbD 0 = true ∧ w.getLsbD 1 = true ∧ w.getLsbD 2 = false

/-- Only DERIVE and COMPRESS write CODE; a reset leaves it unspecified. -/
def Obligations.OnlyDeriveAndCompressWriteCode : Prop :=
  ∀ s t : State, step s = .next t → t.code ≠ s.code →
    (s.resets ∧ t.code = .unspecified) ∨
    (s.turn = .core ∧ (s.seq = .busy (encode .derive) ∨ s.seq = .busy (encode .compress)))

/-- Only the HOST writes IN_MEM, through the IN window while IDLE, and only the CORE writes OUT_MEM; a reset leaves
both unspecified. -/
def Obligations.EachMemoryHasOneWriter : Prop :=
  ∀ s t : State, step s = .next t →
    (t.inMem ≠ s.inMem → (s.resets ∧ t.inMem = []) ∨
      (s.isBusy = false ∧ ∃ j w strb, 0x400000 ≤ j ∧ j < 0x800000 ∧ s.hostWrites j w strb)) ∧
    (t.outMem ≠ s.outMem → (s.resets ∧ t.outMem = []) ∨ (s.turn = .core ∧ ∃ w, s.seq = .busy w))

/-! ## The commands -/

/-- R125: NOP completes; from IDLE, accepting and completing it clears ERR_CODE and ERR_INFO and touches nothing else. -/
def Obligations.NopOnlyCompletes : Prop :=
  ∀ (s : State) (off : BitVec 26) (strb : BitVec 4),
    exec .nop s = .next (completed s) ∧
    (off.toNat / 4 = 2 → s.seq = .idle → coreStep (hostWrite off 0x00000000 strb s) =
      .next { s with done := true, err := false, lastOp := 0, errCode := 0, errInfo := 0, draws := s.draws + 1 }) ∧
    (off.toNat / 4 = 2 → s.seq ≠ .idle → hostWrite off 0x00000000 strb s = { s with drop := true })

/-- R141: CLEAR. -/
def Obligations.ClearEmptiesTheTable : Prop :=
  ∀ s : State, ∃ t, exec .clear s = .next t ∧ (∀ x, t.freq.get x = 0) ∧ symCount t.freq = 0 ∧
    t = { completed s with freq := t.freq, tree := none, codeValid := false }

/-- R140, R142: COUNT; each count is exact, whatever the table held. -/
def Obligations.CountReplacesTheTable : Prop :=
  ∀ s : State,
    (s.inLen.toNat ≤ s.params.capIn → ∃ t, exec .count s = .next t ∧
      (∀ x, (t.freq.get x).toNat = (List.range s.inLen.toNat).countP fun i => s.inByte i == x) ∧
      t = { completed s with freq := t.freq, tree := none, codeValid := false }) ∧
    (s.params.capIn < s.inLen.toNat → exec .count s = .next (failed 6 s.inLen s))

/-- R168: BUILD never raises, and TREE is the build of FREQ: EMPTY for no symbol, the one-child root for one. -/
def Obligations.BuildWritesTheTreeOfFreq : Prop :=
  ∀ s : State, exec .build s = .next { completed s with tree := some (build s.freq), codeValid := false } ∧
    ((∀ x, s.freq.get x = 0) → build s.freq = .empty) ∧
    (∀ x, s.freq.get x ≠ 0 → (∀ y, y ≠ x → s.freq.get y = 0) → build s.freq =
      .root (.single ((s.freq.get x).setWidth 40) (.leaf x ((s.freq.get x).setWidth 40))))

/-- R184: DERIVE writes the codes of TREE, or raises NOT_READY and writes nothing. -/
def Obligations.DeriveWritesTheCodesOfTree : Prop :=
  ∀ s : State,
    (∀ T, s.tree = some T → exec .derive s = .next { completed s with code := .written (derive T), codeValid := true }) ∧
    (s.tree = none → exec .derive s = .next (failed 8 0 s)) ∧
    (s.tree = some .empty → ∀ x, (derive .empty).get x = [])

/-- R233: SERIALIZE writes the table header, or raises OUT_OVERFLOW with its length. -/
def Obligations.SerializeWritesTheHeader : Prop :=
  ∀ s : State, let n := 2 + 5 * (symbols s.freq).length
    (n ≤ s.params.capOut → ∃ t, exec .serialize s = .next t ∧ outputs (serialize s.freq) t ∧
      t = { completed s with outMem := t.outMem, outLen := BitVec.ofNat 32 n, hdrLen := BitVec.ofNat 32 n }) ∧
    (s.params.capOut < n → exec .serialize s =
      .next (failed 7 (BitVec.ofNat 32 n) { s with outMem := [], outLen := 0, hdrLen := 0 }))

/-- R234: PARSE writes the table of the header, or raises what `parse` raises and sets HDR_LEN to 0. -/
def Obligations.ParseWritesTheTable : Prop :=
  ∀ s : State,
    (s.params.capIn < s.inLen.toNat → exec .parse s = .next (failed 6 s.inLen { s with hdrLen := 0 })) ∧
    (s.inLen.toNat ≤ s.params.capIn →
      (∀ F H, parse (s.inBytes s.inLen.toNat) = .ok (F, H) → exec .parse s =
        .next { completed s with freq := F, tree := none, codeValid := false, hdrLen := BitVec.ofNat 32 H }) ∧
      (∀ e, parse (s.inBytes s.inLen.toNat) = .error e →
        exec .parse s = .next (failed e.kind.code e.info { s with hdrLen := 0 })))

/-- R260, R262: ENCODE writes the packed codes of the input bytes in order; its errors in order. -/
def Obligations.EncodeWritesThePackedCodes : Prop :=
  ∀ s : State, let n := s.inLen.toNat
    let b := ((List.range n).map fun i => s.codeOf (s.inByte i)).flatten
    (s.params.capIn < n → exec .encode s = .next (failed 6 s.inLen (noOutput s))) ∧
    (n ≤ s.params.capIn → s.codeValid = false → exec .encode s = .next (failed 8 0 (noOutput s))) ∧
    (n ≤ s.params.capIn → s.codeValid = true →
      (∀ i, i < n → s.codeOf (s.inByte i) = [] → (∀ j, j < i → s.codeOf (s.inByte j) ≠ []) →
        exec .encode s = .next (failed 9 (BitVec.ofNat 32 i) (noOutput s))) ∧
      ((∀ i, i < n → s.codeOf (s.inByte i) ≠ []) →
        (s.params.capOut < 1 + ceil8 b.length →
          exec .encode s = .next (failed 7 (BitVec.ofNat 32 (1 + ceil8 b.length)) (noOutput s))) ∧
        (1 + ceil8 b.length ≤ s.params.capOut → ∃ t, exec .encode s = .next t ∧ outputs (pack b) t ∧
          t = { completed s with outMem := t.outMem, outLen := BitVec.ofNat 32 (1 + ceil8 b.length)
                                 outBitlen := BitVec.ofNat 32 b.length })))

/-- R263: DECODE walks the tree over the unpacked payload; its errors in order. -/
def Obligations.DecodeWritesTheWalkedBytes : Prop :=
  ∀ s : State, let n := s.inLen.toNat
    let p := (s.inByte 0).toNat
    let b := (bitsOfBytes ((s.inBytes n).drop 1)).take (8 * (n - 1) - p)
    (s.params.capIn < n → exec .decode s = .next (failed 6 s.inLen (noOutput s))) ∧
    (n ≤ s.params.capIn → s.tree = none → exec .decode s = .next (failed 8 0 (noOutput s))) ∧
    (n ≤ s.params.capIn → ∀ T, s.tree = some T →
      (n = 0 → exec .decode s = .next (failed 3 s.inLen (noOutput s))) ∧
      (1 ≤ n → 7 < p ∨ 8 * (n - 1) < p → exec .decode s = .next (failed 2 0 (noOutput s))) ∧
      (1 ≤ n → p ≤ 7 → p ≤ 8 * (n - 1) →
        (∀ e, walk T b = .error e → exec .decode s = .next (failed e.kind.code e.info (noOutput s))) ∧
        (∀ D, walk T b = .ok D → D.length ≤ b.length ∧
          (s.params.capOut < D.length → exec .decode s =
            .next (failed 7 (BitVec.ofNat 32 D.length) (noOutput s))) ∧
          (D.length ≤ s.params.capOut → ∃ t, exec .decode s = .next t ∧ outputs D t ∧
            t = { completed s with outMem := t.outMem, outLen := BitVec.ofNat 32 D.length
                                   outBitlen := BitVec.ofNat 32 b.length }))))

/-- R203: PACK packs the first IN_BITLEN bits of IN_MEM; it does not read IN_LEN. -/
def Obligations.PackWritesThePaddedBits : Prop :=
  ∀ s : State, let n := s.inBitlen.toNat
    let b := (bitsOfBytes (s.inBytes (ceil8 n))).take n
    (8 * s.params.capIn < n → exec .pack s = .next (failed 6 s.inBitlen (noOutput s))) ∧
    (n ≤ 8 * s.params.capIn → s.params.capOut < 1 + ceil8 n →
      exec .pack s = .next (failed 7 (BitVec.ofNat 32 (1 + ceil8 n)) (noOutput s))) ∧
    (n ≤ 8 * s.params.capIn → 1 + ceil8 n ≤ s.params.capOut → ∃ t, exec .pack s = .next t ∧ outputs (pack b) t ∧
      t = { completed s with outMem := t.outMem, outLen := BitVec.ofNat 32 (1 + ceil8 n), outBitlen := s.inBitlen })

/-- R204: UNPACK strips the padding and writes the bits, zero-filled to whole bytes; its errors in order. -/
def Obligations.UnpackWritesTheStrippedBits : Prop :=
  ∀ s : State, let n := s.inLen.toNat
    let p := (s.inByte 0).toNat
    let b := (bitsOfBytes ((s.inBytes n).drop 1)).take (8 * (n - 1) - p)
    (s.params.capIn < n → exec .unpack s = .next (failed 6 s.inLen (noOutput s))) ∧
    (n ≤ s.params.capIn →
      (n = 0 → exec .unpack s = .next (failed 3 s.inLen (noOutput s))) ∧
      (1 ≤ n → 7 < p ∨ 8 * (n - 1) < p → exec .unpack s = .next (failed 2 0 (noOutput s))) ∧
      (1 ≤ n → p ≤ 7 → p ≤ 8 * (n - 1) →
        b.length = 8 * (n - 1) - p ∧
        (s.params.capOut < ceil8 b.length →
          exec .unpack s = .next (failed 7 (BitVec.ofNat 32 (ceil8 b.length)) (noOutput s))) ∧
        (ceil8 b.length ≤ s.params.capOut → ∃ t, exec .unpack s = .next t ∧
          outputs (bytesOfBits (b ++ zeros ((8 - b.length % 8) % 8))) t ∧
          t = { completed s with outMem := t.outMem, outLen := BitVec.ofNat 32 (ceil8 b.length)
                                 outBitlen := BitVec.ofNat 32 b.length })))

/-- R264: COMPRESS writes the artifact of the input; its tables are committed before OUT_OVERFLOW; it raises no
other error. -/
def Obligations.CompressWritesTheArtifact : Prop :=
  ∀ s : State, let n := s.inLen.toNat
    let X := s.inBytes n
    let F := count X
    let C := derive (build F)
    let b := (X.map C.get).flatten
    let len := 3 + 5 * (symbols F).length + ceil8 b.length
    let u := { s with freq := F, tree := some (build F), code := .written C, codeValid := true }
    (s.params.capIn < n → exec .compress s = .next (failed 6 s.inLen (noArtifact s))) ∧
    (n ≤ s.params.capIn → s.params.capOut < len →
      exec .compress s = .next (failed 7 (BitVec.ofNat 32 len) (noArtifact u))) ∧
    (n ≤ s.params.capIn → len ≤ s.params.capOut → ∃ t, exec .compress s = .next t ∧
      outputs (serialize F ++ pack b) t ∧
      t = { completed u with outMem := t.outMem, outLen := BitVec.ofNat 32 len, outBitlen := BitVec.ofNat 32 b.length
                             hdrLen := BitVec.ofNat 32 (2 + 5 * (symbols F).length) })

/-- R265: DECOMPRESS parses the header, unpacks the rest, commits FREQ and TREE, and walks; its errors in order. -/
def Obligations.DecompressWritesTheWalkedBytes : Prop :=
  ∀ s : State, let n := s.inLen.toNat
    (s.params.capIn < n → exec .decompress s = .next (failed 6 s.inLen (noArtifact s))) ∧
    (n ≤ s.params.capIn →
      (∀ e, parse (s.inBytes n) = .error e →
        exec .decompress s = .next (failed e.kind.code e.info (noArtifact s))) ∧
      (∀ F H, parse (s.inBytes n) = .ok (F, H) →
        let p := (s.inByte H).toNat
        let b := (bitsOfBytes ((s.inBytes n).drop (H + 1))).take (8 * (n - H - 1) - p)
        let u := { s with freq := F, tree := some (build F), codeValid := false }
        H ≤ n ∧
        (n = H → exec .decompress s = .next (failed 3 s.inLen (noArtifact s))) ∧
        (H < n → 7 < p ∨ 8 * (n - H - 1) < p →
          exec .decompress s = .next (failed 2 (BitVec.ofNat 32 H) (noArtifact s))) ∧
        (H < n → p ≤ 7 → p ≤ 8 * (n - H - 1) →
          (∀ e, walk (build F) b = .error e →
            exec .decompress s = .next (failed e.kind.code e.info (noArtifact u))) ∧
          (∀ D, walk (build F) b = .ok D →
            (s.params.capOut < D.length → exec .decompress s =
              .next (failed 7 (BitVec.ofNat 32 D.length) (noArtifact u))) ∧
            (D.length ≤ s.params.capOut → ∃ t, exec .decompress s = .next t ∧ outputs D t ∧
              t = { completed u with outMem := t.outMem, outLen := BitVec.ofNat 32 D.length
                                     outBitlen := BitVec.ofNat 32 b.length, hdrLen := BitVec.ofNat 32 H })))))

/-! ## Frames and errors, over all commands -/

/-- No command changes its inputs, CTRL, DROP, LAST_OP, the instance or the HOST's side; IN_MEM reads as before at
every offset. -/
def Obligations.CommandsLeaveTheirInputsUnchanged : Prop :=
  ∀ (i : Instr) (s t : State), exec i s = .next t →
    (∀ a, Memory.get? t.inMem a = Memory.get? s.inMem a) ∧ t.inLen = s.inLen ∧ t.inBitlen = s.inBitlen ∧
    t.irqEn = s.irqEn ∧ t.drop = s.drop ∧ t.lastOp = s.lastOp ∧ t.params = s.params ∧ t.rst = s.rst ∧
    t.script = s.script ∧ t.sched = s.sched ∧ t.hostReads = s.hostReads

/-- Which commands leave FREQ, TREE, CODE and CODE_VALID, and OUT_MEM (at every offset) and the length registers, as
they were, in success and in failure. -/
def Obligations.CommandsLeaveOtherResultsUnchanged : Prop :=
  ∀ (i : Instr) (s t : State), exec i s = .next t →
    (i ∈ [Instr.nop, .build, .derive, .serialize, .encode, .decode, .pack, .unpack] → t.freq = s.freq) ∧
    (i ∈ [Instr.nop, .derive, .serialize, .encode, .decode, .pack, .unpack] → t.tree = s.tree) ∧
    (i ∈ [Instr.nop, .clear, .count, .build, .serialize, .parse, .encode, .decode, .pack, .unpack, .decompress] →
      t.code = s.code) ∧
    (i ∈ [Instr.nop, .serialize, .encode, .decode, .pack, .unpack] → t.codeValid = s.codeValid) ∧
    (i ∈ [Instr.nop, .clear, .count, .build, .derive, .parse] →
      (∀ a, Memory.get? t.outMem a = Memory.get? s.outMem a) ∧ t.outLen = s.outLen) ∧
    (i ∈ [Instr.nop, .clear, .count, .build, .derive, .serialize, .parse] → t.outBitlen = s.outBitlen) ∧
    (i ∈ [Instr.nop, .clear, .count, .build, .derive, .encode, .decode, .pack, .unpack] → t.hdrLen = s.hdrLen)

/-- After an error no output is shown: every length the command writes is 0 and no OUT_MEM byte is specified; the
tables change only where DECOMPRESS or COMPRESS had committed them. -/
def Obligations.FailedCommandShowsNoOutput : Prop :=
  ∀ (i : Instr) (s t : State), s.err = false → exec i s = .next t → t.err = true →
    (i ∈ [Instr.serialize, .encode, .decode, .pack, .unpack, .compress, .decompress] →
      t.outLen = 0 ∧ ∀ a, Memory.get? t.outMem a = none) ∧
    (i ∈ [Instr.encode, .decode, .pack, .unpack, .compress, .decompress] → t.outBitlen = 0) ∧
    (i ∈ [Instr.serialize, .parse, .compress, .decompress] → t.hdrLen = 0) ∧
    (i ∉ [Instr.compress, .decompress] →
      t.freq = s.freq ∧ t.tree = s.tree ∧ t.code = s.code ∧ t.codeValid = s.codeValid) ∧
    (t.errCode ∉ [4, 7] → t.freq = s.freq ∧ t.tree = s.tree ∧ t.code = s.code ∧ t.codeValid = s.codeValid)

/-- The error codes each command can raise; NOP, CLEAR and BUILD raise none. -/
def Obligations.EachCommandRaisesOnlyItsErrorCodes : Prop :=
  ∀ (i : Instr) (s t : State), s.err = false → exec i s = .next t → t.err = true →
    t.errCode ∈ (match i with
      | .nop => []
      | .clear => []
      | .count => [6]
      | .build => []
      | .derive => [8]
      | .serialize => [7]
      | .parse => [1, 2, 3, 6]
      | .encode => [6, 7, 8, 9]
      | .decode => [2, 3, 4, 6, 7, 8]
      | .pack => [6, 7]
      | .unpack => [2, 3, 6, 7]
      | .compress => [6, 7]
      | .decompress => [1, 2, 3, 4, 6, 7] : List (BitVec 4))

/-! ## The functions of the units -/

/-- R160 to R163: the order of extraction; inserting an entry with a new sequence number keeps the queue in that order;
and `build` starts from the leaves, numbered in ascending symbol order, and merges the two first entries again and again,
the first extracted on the right and the second on the left, until one is left, whose node is the root. -/
def Obligations.QueueInsertionKeepsExtractionOrder : Prop :=
  (∀ a b : QEntry, a.before b = true ↔ a.w.toNat < b.w.toNat ∨ (a.w.toNat = b.w.toNat ∧ a.seq < b.seq)) ∧
  (∀ (e : QEntry) (Q : List QEntry), (∀ x ∈ Q, x.seq ≠ e.seq) →
    (Q.Pairwise (fun a b => a.before b = true) → (insertEntry e Q).Pairwise fun a b => a.before b = true) ∧
    (insertEntry e Q).Perm (e :: Q)) ∧
  (∀ F : FreqTable, let S := symbols F
    (S = [] → build F = .empty) ∧
    (∀ x, S = [x] → build F =
      .root (.single ((F.get x).setWidth 40) (.leaf x ((F.get x).setWidth 40)))) ∧
    (2 ≤ S.length → ∃ Q : Nat → List QEntry,
      (Q 0).Perm (S.zipIdx.map fun e =>
        { w := (F.get e.1).setWidth 40, seq := e.2, node := .leaf e.1 ((F.get e.1).setWidth 40) }) ∧
      (∀ i, i + 1 < S.length → mergesFirstTwo (S.length + i) (Q i) (Q (i + 1))) ∧
      ∃ e, Q (S.length - 1) = [e] ∧ build F = .root e.node))

/-- R167: for two or more symbols `build` gives a full binary tree over exactly the present symbols, its weights exact
sums, its leaves at depth 1 to k - 1; for one symbol, a root and its leaf. There are at most 256 symbols. -/
def Obligations.BuiltTreeIsFullOverThePresentSymbols : Prop :=
  ∀ F : FreqTable, (symbols F).length ≤ 256 ∧
    (2 ≤ (symbols F).length → ∃ n, build F = .root n ∧ n.full = true ∧ n.weightsAdd = true ∧
      n.innerCount = (symbols F).length - 1 ∧
      n.leafWeights.Perm ((symbols F).map fun x => (x, (F.get x).setWidth 40)) ∧
      n.weight.toNat = (F.entries.map BitVec.toNat).sum ∧
      ∀ p x w, n.follow p = some (.leaf x w) → 1 ≤ p.length ∧ p.length ≤ (symbols F).length - 1) ∧
    (∀ x, symbols F = [x] → ∃ n, build F = .root n ∧ n.innerCount = 1 ∧
      n.leafWeights = [(x, (F.get x).setWidth 40)] ∧ n.weight.toNat = (F.entries.map BitVec.toNat).sum ∧
      ∀ p y w, n.follow p = some (.leaf y w) → p.length = 1)

/-- R180: a leaf's code is its path from the root, and a symbol with no leaf has none. -/
def Obligations.DeriveRecordsThePathOfEachLeaf : Prop :=
  (∀ x, (derive .empty).get x = []) ∧
  ∀ n : Node, (∀ p q x v w, n.follow p = some (.leaf x v) → n.follow q = some (.leaf x w) → p = q) → ∀ x,
    (∀ p w, n.follow p = some (.leaf x w) → (derive (.root n)).get x = p) ∧
    ((∀ p w, n.follow p ≠ some (.leaf x w)) → (derive (.root n)).get x = [])

/-- R181, R182: the derived codes are a prefix code, complete for two or more symbols; one symbol has the code 0;
exactly the present symbols have a code, of at most 255 bits. -/
def Obligations.DerivedCodesAreACompletePrefixCode : Prop :=
  ∀ F : FreqTable, let C := derive (build F)
    (∀ x, C.get x ≠ [] ↔ F.get x ≠ 0) ∧ (∀ x, (C.get x).length ≤ 255) ∧
    (∀ x y, F.get x ≠ 0 → F.get y ≠ 0 → x ≠ y → ¬ C.get x <+: C.get y) ∧
    (2 ≤ (symbols F).length → ((symbols F).map fun x => 2 ^ (255 - (C.get x).length)).sum = 2 ^ 255) ∧
    (∀ x, symbols F = [x] → C.get x = [false] ∧
      ((symbols F).map fun y => 2 ^ (255 - (C.get y).length)).sum = 2 ^ 254)

/-- R205: the laws of `pack` and `unpack`. -/
def Obligations.PackAndUnpackAreInverse : Prop :=
  (∀ (b : BitSeq) (base : Nat) (l : Word), unpack (pack b) base l = .ok b) ∧
  (∀ b : BitSeq, ∃ p payload, pack b = p :: payload ∧ p.toNat ≤ 7 ∧ (pack b).length = 1 + ceil8 b.length ∧
    (bitsOfBytes payload).length = b.length + p.toNat) ∧
  (∀ (p : Byte) (payload : List Byte) (base : Nat) (l : Word) (b : BitSeq), unpack (p :: payload) base l = .ok b →
    (pack b = p :: payload ↔ ∀ x ∈ (bitsOfBytes payload).drop ((bitsOfBytes payload).length - p.toNat), x = false))

/-- R230, R231: the table header byte by byte. -/
def Obligations.HeaderHoldsTheEntriesInOrder : Prop :=
  ∀ F : FreqTable, let S := symbols F
    serialize F = [BitVec.ofNat 8 (S.length / 256), BitVec.ofNat 8 (S.length % 256)] ++
      S.flatMap (fun x => let c := (F.get x).toNat
        [x, BitVec.ofNat 8 (c / 2 ^ 24), BitVec.ofNat 8 (c / 2 ^ 16 % 256), BitVec.ofNat 8 (c / 2 ^ 8 % 256),
          BitVec.ofNat 8 (c % 256)]) ∧
    S.Pairwise (· < ·) ∧ S.length ≤ 256 ∧ (serialize F).length = 2 + 5 * S.length

/-- R232: `parse` reports the first check that fails, in the rule's order, and else returns the entries' table. -/
def Obligations.ParseReportsTheFirstDefect : Prop :=
  ∀ B : List Byte, let n := B.length
    let byte := fun i => (B.getD i 0).toNat
    let N := byte 0 * 2 ^ 8 + byte 1
    let sym := fun j => B.getD (2 + 5 * j) 0
    let cnt := fun j => byte (3 + 5 * j) * 2 ^ 24 + byte (4 + 5 * j) * 2 ^ 16 + byte (5 + 5 * j) * 2 ^ 8 + byte (6 + 5 * j)
    let disordered := fun j => 0 < j ∧ sym j ≤ sym (j - 1)
    (n < 2 → parse B = .error { kind := .truncatedInput, info := BitVec.ofNat 32 n }) ∧
    (2 ≤ n → 256 < N → parse B = .error { kind := .corruptHeader, info := 0 }) ∧
    (2 ≤ n → N ≤ 256 → n < 2 + 5 * N → parse B = .error { kind := .truncatedInput, info := BitVec.ofNat 32 n }) ∧
    (N ≤ 256 → 2 + 5 * N ≤ n →
      (∀ j, j < N → (∀ i, i < j → ¬ disordered i ∧ cnt i ≠ 0) →
        (disordered j → parse B = .error { kind := .corruptHeader, info := BitVec.ofNat 32 (2 + 5 * j) }) ∧
        (¬ disordered j → cnt j = 0 →
          parse B = .error { kind := .construction, info := BitVec.ofNat 32 (3 + 5 * j) })) ∧
      ((∀ j, j < N → ¬ disordered j ∧ cnt j ≠ 0) → ∃ F, parse B = .ok (F, 2 + 5 * N) ∧
        (∀ j, j < N → (F.get (sym j)).toNat = cnt j) ∧ ∀ x, (∀ j, j < N → sym j ≠ x) → F.get x = 0))

/-- R235: parsing a serialized table gives it back, with the header's length, whatever follows it. -/
def Obligations.ParseOfSerializeIsTheTable : Prop :=
  ∀ (F : FreqTable) (R : List Byte), parse (serialize F ++ R) = .ok (F, (serialize F).length)

/-- R261: a walk succeeds exactly on a concatenation of root-to-leaf paths and emits their symbols in order; one that
fails is malformed at the first bit that makes the stream undecodable, or at its end inside the tree. -/
def Obligations.WalkDecodesExactlyLeafPaths : Prop :=
  (∀ b : BitSeq, walk .empty b = if b = [] then .ok [] else .error { kind := .malformedStream, info := 0 }) ∧
  ∀ n : Node, (∀ x w, n ≠ .leaf x w) → ∀ b : BitSeq,
    (∀ D : List Byte, walk (.root n) b = .ok D ↔ ∃ L : List (Byte × BitSeq),
      (∀ e ∈ L, ∃ w, n.follow e.2 = some (.leaf e.1 w)) ∧ D = L.map Prod.fst ∧ b = (L.map Prod.snd).flatten) ∧
    (∀ e : CmdError, walk (.root n) b = .error e → ∃ i, i ≤ b.length ∧
      e = { kind := .malformedStream, info := BitVec.ofNat 32 i } ∧
      (∃ c D, walk (.root n) (b.take i ++ c) = .ok D) ∧
      (i < b.length → ∀ c D, walk (.root n) (b.take (i + 1) ++ c) ≠ .ok D))

/-! ## The codec -/

/-- The artifact's bit count is the sum of count times code length, and is below 2^32. -/
def Obligations.EncodedBitLengthIsTheWeightedCodeLength : Prop :=
  ∀ X : List Byte, X.length ≤ 2 ^ 24 → let F := count X
    let C := derive (build F)
    compressBits X = .ok (X.map C.get).flatten ∧
    (X.map C.get).flatten.length = ((symbols F).map fun x => (F.get x).toNat * (C.get x).length).sum ∧
    (X.map C.get).flatten.length < 2 ^ 32 ∧
    (serialize F ++ pack (X.map C.get).flatten).length =
      3 + 5 * (symbols F).length + ceil8 (X.map C.get).flatten.length

/-- The round trip (item 1 of the laws of 46_codec.md): DECOMPRESS of what COMPRESS wrote gives the input back. For an
input byte that nothing has written it rests on the model's choice that one command reads it once (log entry 5). -/
def Obligations.DecompressOfCompressIsTheInput : Prop :=
  ∀ s t r : State, s.params.wf → s.inLen.toNat ≤ s.params.capIn → s.err = false →
    exec .compress s = .next t → t.err = false →
    r.params = s.params → r.inLen = t.outLen → t.outLen.toNat ≤ s.params.capIn →
    (∀ a, a < t.outLen.toNat → Memory.get? r.inMem a = Memory.get? t.outMem a) →
    s.inLen.toNat ≤ s.params.capOut →
    ∃ u, exec .decompress r = .next u ∧ u.err = r.err ∧ u.errCode = r.errCode ∧ u.outLen = s.inLen ∧
      ∀ a, a < s.inLen.toNat → Memory.get? u.outMem a = some (s.inByte a)

/-- COMPRESS and DECOMPRESS depend on IN_LEN and the input bytes alone, not on what earlier commands left. -/
def Obligations.CompressAndDecompressIgnoreHistory : Prop :=
  ∀ (i : Instr) (s r t u : State), i = .compress ∨ i = .decompress →
    r.params = s.params → r.inLen = s.inLen → s.inLen.toNat ≤ s.params.capIn →
    (∀ a, a < s.inLen.toNat → ∃ b, Memory.get? s.inMem a = some b ∧ Memory.get? r.inMem a = some b) →
    s.err = false → s.errCode = 0 → s.errInfo = 0 → r.err = false → r.errCode = 0 → r.errInfo = 0 →
    exec i s = .next t → exec i r = .next u →
    u.outMem = t.outMem ∧ u.outLen = t.outLen ∧ u.outBitlen = t.outBitlen ∧ u.hdrLen = t.hdrLen ∧
    u.err = t.err ∧ u.errCode = t.errCode ∧ u.errInfo = t.errInfo ∧
    (i = .compress ∨ t.err = false → u.freq = t.freq ∧ u.tree = t.tree ∧ u.codeValid = t.codeValid) ∧
    (i = .compress → u.code = t.code)
end

