-- ==== Sys2Proof/Laws/Tables.lean ====
section
/-! SUPPORT. The small lemmas of tables: reading a written, filled or computed entry, extensionality, and the rows. -/

namespace Sys2Proof.Machine

@[simp] theorem length_allSymbols : allSymbols.length = 256 := by simp [allSymbols]

theorem getElem_allSymbols (i : Nat) (h : i < allSymbols.length) : allSymbols[i] = BitVec.ofNat 8 i := by
  simp [allSymbols]

theorem mem_allSymbols (s : Byte) : s ∈ allSymbols := by
  refine List.mem_map.2 ⟨s.toNat, List.mem_range.2 s.isLt, ?_⟩
  simp

theorem allSymbols_pairwise : allSymbols.Pairwise (· < ·) := by
  rw [List.pairwise_iff_getElem]
  intro i j hi hj hij
  rw [getElem_allSymbols, getElem_allSymbols]
  simp only [length_allSymbols] at hi hj
  simp only [BitVec.lt_def, BitVec.toNat_ofNat]
  omega

namespace Table

variable {α : Type}

@[simp] theorem get_fill (a : α) (s : Byte) : (Table.fill a).get s = a := by
  show (List.replicate 256 a)[s.toNat]'_ = a
  exact List.getElem_replicate _

@[simp] theorem get_ofFn (f : Byte → α) (s : Byte) : (Table.ofFn f).get s = f s := by
  simp [Table.ofFn, Table.get, getElem_allSymbols]

theorem get_set (t : Table α) (s r : Byte) (a : α) : (t.set s a).get r = if s = r then a else t.get r := by
  simp [Table.set, Table.get, List.getElem_set, BitVec.toNat_inj]

@[simp] theorem get_set_same (t : Table α) (s : Byte) (a : α) : (t.set s a).get s = a := by
  simp [get_set]

theorem get_set_other (t : Table α) (s r : Byte) (a : α) (h : s ≠ r) : (t.set s a).get r = t.get r := by
  simp [get_set, h]

theorem ext_get (t u : Table α) (h : ∀ s, t.get s = u.get s) : t = u := by
  cases t with
  | mk l hl =>
    cases u with
    | mk m hm =>
      congr
      refine List.ext_getElem (hl.trans hm.symm) fun i h1 h2 => ?_
      have := h (BitVec.ofNat 8 i)
      have hi : (BitVec.ofNat 8 i).toNat = i := by
        rw [BitVec.toNat_ofNat]
        exact Nat.mod_eq_of_lt (by omega)
      simpa only [Table.get, hi] using this

/-- The rows are the symbols with their entries, ascending. -/
theorem rows_eq_map (t : Table α) : t.rows = allSymbols.map fun s => (s, t.get s) := by
  refine List.ext_getElem (by simp [rows, t.size]) fun i h1 h2 => ?_
  have hi : i < 256 := by simpa using h2
  simp [rows, getElem_allSymbols, Table.get, Nat.mod_eq_of_lt hi]

theorem mem_rows (t : Table α) (e : Byte × α) : e ∈ t.rows ↔ e.2 = t.get e.1 := by
  rw [rows_eq_map]
  constructor
  · rintro h
    obtain ⟨s, -, rfl⟩ := List.mem_map.1 h
    rfl
  · intro h
    exact List.mem_map.2 ⟨e.1, mem_allSymbols _, by rw [← h]⟩

end Table

end Sys2Proof.Machine
end

