-- ==== Sys2Proof/Laws/Bits.lean ====
section
/-! SUPPORT. The lengths and inverses of the bit and byte conversions (R8, R9), of `pack` (R200) and of `serialize`
(R231), and the present symbols of a table (R161). -/

namespace Sys2Proof.Machine

@[simp] theorem length_bitsOfByte (x : Byte) : (bitsOfByte x).length = 8 := rfl

@[simp] theorem bitsOfBytes_nil : bitsOfBytes [] = [] := rfl

@[simp] theorem bitsOfBytes_cons (x : Byte) (B : List Byte) : bitsOfBytes (x :: B) = bitsOfByte x ++ bitsOfBytes B :=
  List.flatMap_cons

@[simp] theorem bitsOfBytes_append (A B : List Byte) : bitsOfBytes (A ++ B) = bitsOfBytes A ++ bitsOfBytes B := by
  simp [bitsOfBytes]

@[simp] theorem length_bitsOfBytes (B : List Byte) : (bitsOfBytes B).length = 8 * B.length := by
  induction B with
  | nil => rfl
  | cons x B ih => simp [ih]; omega

@[simp] theorem length_zeros (n : Nat) : (zeros n).length = n := by simp [zeros]

/-- The bits of the byte that eight bits make. -/
theorem bitsOfByte_natOfBits (b0 b1 b2 b3 b4 b5 b6 b7 : Bool) :
    bitsOfByte (BitVec.ofNat 8 (natOfBits [b0, b1, b2, b3, b4, b5, b6, b7])) = [b0, b1, b2, b3, b4, b5, b6, b7] := by
  revert b0 b1 b2 b3 b4 b5 b6 b7
  decide

/-- A bit sequence of a whole number of bytes is the bits of its bytes. -/
theorem bitsOfBytes_bytesOfBits (b : BitSeq) (h : b.length % 8 = 0) : bitsOfBytes (bytesOfBits b) = b := by
  induction b using bytesOfBits.induct with
  | case1 b0 b1 b2 b3 b4 b5 b6 b7 rest ih =>
    rw [bytesOfBits, bitsOfBytes_cons, bitsOfByte_natOfBits, ih (by simp at h ⊢; omega)]
    rfl
  | case2 b hb =>
    match b, h, hb with
    | [], _, _ => rfl
    | b0 :: b1 :: b2 :: b3 :: b4 :: b5 :: b6 :: b7 :: rest, _, hb => exact absurd rfl (hb b0 b1 b2 b3 b4 b5 b6 b7 rest)

/-- How many bytes a whole number of bytes is. -/
theorem length_bytesOfBits (b : BitSeq) (h : b.length % 8 = 0) : (bytesOfBits b).length = b.length / 8 := by
  have := congrArg List.length (bitsOfBytes_bytesOfBits b h)
  rw [length_bitsOfBytes] at this
  omega

theorem padCount_lt (n : Nat) : padCount n < 8 := by unfold padCount; omega

theorem padCount_aligns (n : Nat) : (n + padCount n) % 8 = 0 := by unfold padCount; omega

/-- The bits of the aligned bytes are the sequence and its padding. -/
theorem bitsOfBytes_alignedBytes (b : BitSeq) : bitsOfBytes (alignedBytes b) = b ++ zeros (padCount b.length) :=
  bitsOfBytes_bytesOfBits _ (by simpa using padCount_aligns b.length)

@[simp] theorem length_alignedBytes (b : BitSeq) : (alignedBytes b).length = ceil8 b.length := by
  rw [alignedBytes, length_bytesOfBits _ (by simpa using padCount_aligns b.length)]
  simp [padCount, ceil8]
  omega

@[simp] theorem length_pack (b : BitSeq) : (pack b).length = 1 + ceil8 b.length := by
  simp [pack, Nat.add_comm]

/-- The lanes of a word made of four bytes. -/
theorem lane_wordOfLanes (b0 b1 b2 b3 : Byte) :
    lane (wordOfLanes b0 b1 b2 b3) 0 = b0 ∧ lane (wordOfLanes b0 b1 b2 b3) 1 = b1 ∧
      lane (wordOfLanes b0 b1 b2 b3) 2 = b2 ∧ lane (wordOfLanes b0 b1 b2 b3) 3 = b3 := by
  have bit : ∀ j, (wordOfLanes b0 b1 b2 b3).getLsbD j =
      if j < 8 then b0.getLsbD j else if j - 8 < 8 then b1.getLsbD (j - 8)
      else if j - 8 - 8 < 8 then b2.getLsbD (j - 8 - 8) else b3.getLsbD (j - 8 - 8 - 8) := by
    intro j
    show BitVec.getLsbD (((b3 ++ b2) ++ b1) ++ b0) j = _
    simp only [BitVec.getLsbD_append]
  refine ⟨?_, ?_, ?_, ?_⟩ <;>
    · apply BitVec.eq_of_getLsbD_eq
      intro i hi
      simp only [lane, BitVec.getLsbD_extractLsb', bit, hi, decide_true, Bool.true_and]
      repeat' split
      all_goals first | omega | (congr 1; omega)

/-- A strobed write replaces the strobed lanes and keeps the others (R72). -/
theorem lane_mergeLanes (old new : Word) (strb : BitVec 4) (L : Nat) (h : L < 4) :
    lane (mergeLanes old new strb) L = if strb.getLsbD L then lane new L else lane old L := by
  unfold mergeLanes
  obtain ⟨p0, p1, p2, p3⟩ := lane_wordOfLanes (if strb.getLsbD 0 then lane new 0 else lane old 0)
    (if strb.getLsbD 1 then lane new 1 else lane old 1) (if strb.getLsbD 2 then lane new 2 else lane old 2)
    (if strb.getLsbD 3 then lane new 3 else lane old 3)
  match L, h with
  | 0, _ => exact p0
  | 1, _ => exact p1
  | 2, _ => exact p2
  | 3, _ => exact p3

/-- A word with the lanes of another is that word. -/
theorem word_eq_of_lanes {v w : Word} (h : ∀ L, L < 4 → lane v L = lane w L) : v = w := by
  apply BitVec.eq_of_getLsbD_eq
  intro i hi
  have hl := congrArg (fun b : Byte => b.getLsbD (i % 8)) (h (i / 8) (by omega))
  simpa [lane, Nat.mod_lt, Nat.div_add_mod] using hl

/-- With every strobe set, the written word replaces the old one. -/
@[simp] theorem mergeLanes_all (old new : Word) : mergeLanes old new 0xF = new :=
  word_eq_of_lanes fun L h => by
    rw [lane_mergeLanes old new 0xF L h, if_pos]
    match L, h with
    | 0, _ => rfl
    | 1, _ => rfl
    | 2, _ => rfl
    | 3, _ => rfl

/-- The present symbols with their counts, by symbol. -/
theorem present_eq_map (F : FreqTable) :
    present F = (allSymbols.filter fun x => decide (F.get x ≠ 0)).map fun x => (x, F.get x) := by
  simp only [present, Table.rows_eq_map, List.filter_map]
  congr 1
  exact List.filter_congr fun x _ => by simp [bne, BEq.beq]

@[simp] theorem length_be32 (x : Word) : (be32 x).length = 4 := rfl

@[simp] theorem length_serialize (F : FreqTable) : (serialize F).length = 2 + 5 * (present F).length := by
  have : ∀ l : List (Byte × Count), (l.flatMap fun e => e.1 :: be32 e.2).length = 5 * l.length := by
    intro l
    induction l with
    | nil => rfl
    | cons e l ih => simp only [List.flatMap_cons, List.length_append, ih, List.length_cons, length_be32]; omega
  simp [serialize, be16, this]
  omega

/-- `encode_bits` succeeds where every byte has a code, with the codes in order (R260). -/
theorem encodeBits_ok (C : Byte → BitSeq) (X : List Byte) (base : Nat) (h : ∀ x ∈ X, C x ≠ []) :
    encodeBits C X base = .ok (X.map C).flatten := by
  induction X generalizing base with
  | nil => rfl
  | cons x X ih =>
    have hx : C x ≠ [] := h x (by simp)
    simp [encodeBits, hx, ih (base + 1) fun y hy => h y (by simp [hy])]

/-- `encode_bits` raises at the first byte with no code (R260). -/
theorem encodeBits_error (C : Byte → BitSeq) (A B : List Byte) (x : Byte) (base : Nat) (hA : ∀ y ∈ A, C y ≠ [])
    (hx : C x = []) : encodeBits C (A ++ x :: B) base =
      .error { kind := .unmappedSymbol, info := BitVec.ofNat 32 (base + A.length) } := by
  induction A generalizing base with
  | nil => simp [encodeBits, hx]
  | cons y A ih =>
    have hy : C y ≠ [] := hA y (by simp)
    have hi : base + 1 + A.length = base + (A.length + 1) := by omega
    simp [encodeBits, hy, ih (base + 1) fun z hz => hA z (by simp [hz]), hi]

/-- The laws of the walk, one bit at a time (R261). -/
theorem walkFrom_nil (r cur : Node) (i : Nat) : walkFrom r cur i [] =
    if cur = r then .ok [] else .error { kind := .malformedStream, info := BitVec.ofNat 32 i } := by
  simp [walkFrom]

theorem walkFrom_none (r cur : Node) (i : Nat) (b : Bool) (rest : BitSeq) (h : cur.child b = none) :
    walkFrom r cur i (b :: rest) = .error { kind := .malformedStream, info := BitVec.ofNat 32 i } := by
  simp [walkFrom, h]

theorem walkFrom_leaf (r cur : Node) (i : Nat) (b : Bool) (rest : BitSeq) (s : Byte) (w : Weight)
    (h : cur.child b = some (.leaf s w)) :
    walkFrom r cur i (b :: rest) = (walkFrom r r (i + 1) rest).map (s :: ·) := by
  simp only [walkFrom, h]
  cases walkFrom r r (i + 1) rest <;> rfl

theorem walkFrom_inside (r cur nxt : Node) (i : Nat) (b : Bool) (rest : BitSeq) (h : cur.child b = some nxt)
    (hn : ∀ s w, nxt ≠ .leaf s w) : walkFrom r cur i (b :: rest) = walkFrom r nxt (i + 1) rest := by
  cases nxt with
  | leaf s w => exact absurd rfl (hn s w)
  | inner w l r => simp [walkFrom, h]
  | single w l => simp [walkFrom, h]

end Sys2Proof.Machine
end

