-- ==== Sys2Proof/Laws/State.lean ====
section
/-! SUPPORT. What each named update of the state does to each field, true by rfl, for simp: later proofs need unfold no
record update. -/

namespace Sys2Proof.Machine

/-! ### clearStatus -/

@[simp] theorem params_clearStatus (w : Word) (s : State) : (clearStatus w s).params = s.params := rfl
@[simp] theorem irqEn_clearStatus (w : Word) (s : State) : (clearStatus w s).irqEn = s.irqEn := rfl
@[simp] theorem done_clearStatus (w : Word) (s : State) : (clearStatus w s).done = (s.done && !w.getLsbD 1) := rfl
@[simp] theorem err_clearStatus (w : Word) (s : State) : (clearStatus w s).err = (s.err && !w.getLsbD 2) := rfl
@[simp] theorem drop_clearStatus (w : Word) (s : State) : (clearStatus w s).drop = (s.drop && !w.getLsbD 3) := rfl
@[simp] theorem codeValid_clearStatus (w : Word) (s : State) : (clearStatus w s).codeValid = s.codeValid := rfl
@[simp] theorem lastOp_clearStatus (w : Word) (s : State) : (clearStatus w s).lastOp = s.lastOp := rfl
@[simp] theorem errCode_clearStatus (w : Word) (s : State) : (clearStatus w s).errCode = s.errCode := rfl
@[simp] theorem errInfo_clearStatus (w : Word) (s : State) : (clearStatus w s).errInfo = s.errInfo := rfl
@[simp] theorem inLen_clearStatus (w : Word) (s : State) : (clearStatus w s).inLen = s.inLen := rfl
@[simp] theorem inBitlen_clearStatus (w : Word) (s : State) : (clearStatus w s).inBitlen = s.inBitlen := rfl
@[simp] theorem outLen_clearStatus (w : Word) (s : State) : (clearStatus w s).outLen = s.outLen := rfl
@[simp] theorem outBitlen_clearStatus (w : Word) (s : State) : (clearStatus w s).outBitlen = s.outBitlen := rfl
@[simp] theorem hdrLen_clearStatus (w : Word) (s : State) : (clearStatus w s).hdrLen = s.hdrLen := rfl
@[simp] theorem freq_clearStatus (w : Word) (s : State) : (clearStatus w s).freq = s.freq := rfl
@[simp] theorem code_clearStatus (w : Word) (s : State) : (clearStatus w s).code = s.code := rfl
@[simp] theorem tree_clearStatus (w : Word) (s : State) : (clearStatus w s).tree = s.tree := rfl
@[simp] theorem inMem_clearStatus (w : Word) (s : State) : (clearStatus w s).inMem = s.inMem := rfl
@[simp] theorem outMem_clearStatus (w : Word) (s : State) : (clearStatus w s).outMem = s.outMem := rfl
@[simp] theorem seq_clearStatus (w : Word) (s : State) : (clearStatus w s).seq = s.seq := rfl
@[simp] theorem rst_clearStatus (w : Word) (s : State) : (clearStatus w s).rst = s.rst := rfl
@[simp] theorem script_clearStatus (w : Word) (s : State) : (clearStatus w s).script = s.script := rfl
@[simp] theorem sched_clearStatus (w : Word) (s : State) : (clearStatus w s).sched = s.sched := rfl
@[simp] theorem hostReads_clearStatus (w : Word) (s : State) : (clearStatus w s).hostReads = s.hostReads := rfl
@[simp] theorem draws_clearStatus (w : Word) (s : State) : (clearStatus w s).draws = s.draws := rfl

/-! ### writeFreq -/

@[simp] theorem params_writeFreq (F : FreqTable) (s : State) : (writeFreq F s).params = s.params := rfl
@[simp] theorem irqEn_writeFreq (F : FreqTable) (s : State) : (writeFreq F s).irqEn = s.irqEn := rfl
@[simp] theorem done_writeFreq (F : FreqTable) (s : State) : (writeFreq F s).done = s.done := rfl
@[simp] theorem err_writeFreq (F : FreqTable) (s : State) : (writeFreq F s).err = s.err := rfl
@[simp] theorem drop_writeFreq (F : FreqTable) (s : State) : (writeFreq F s).drop = s.drop := rfl
@[simp] theorem codeValid_writeFreq (F : FreqTable) (s : State) : (writeFreq F s).codeValid = false := rfl
@[simp] theorem lastOp_writeFreq (F : FreqTable) (s : State) : (writeFreq F s).lastOp = s.lastOp := rfl
@[simp] theorem errCode_writeFreq (F : FreqTable) (s : State) : (writeFreq F s).errCode = s.errCode := rfl
@[simp] theorem errInfo_writeFreq (F : FreqTable) (s : State) : (writeFreq F s).errInfo = s.errInfo := rfl
@[simp] theorem inLen_writeFreq (F : FreqTable) (s : State) : (writeFreq F s).inLen = s.inLen := rfl
@[simp] theorem inBitlen_writeFreq (F : FreqTable) (s : State) : (writeFreq F s).inBitlen = s.inBitlen := rfl
@[simp] theorem outLen_writeFreq (F : FreqTable) (s : State) : (writeFreq F s).outLen = s.outLen := rfl
@[simp] theorem outBitlen_writeFreq (F : FreqTable) (s : State) : (writeFreq F s).outBitlen = s.outBitlen := rfl
@[simp] theorem hdrLen_writeFreq (F : FreqTable) (s : State) : (writeFreq F s).hdrLen = s.hdrLen := rfl
@[simp] theorem freq_writeFreq (F : FreqTable) (s : State) : (writeFreq F s).freq = F := rfl
@[simp] theorem code_writeFreq (F : FreqTable) (s : State) : (writeFreq F s).code = s.code := rfl
@[simp] theorem tree_writeFreq (F : FreqTable) (s : State) : (writeFreq F s).tree = none := rfl
@[simp] theorem inMem_writeFreq (F : FreqTable) (s : State) : (writeFreq F s).inMem = s.inMem := rfl
@[simp] theorem outMem_writeFreq (F : FreqTable) (s : State) : (writeFreq F s).outMem = s.outMem := rfl
@[simp] theorem seq_writeFreq (F : FreqTable) (s : State) : (writeFreq F s).seq = s.seq := rfl
@[simp] theorem rst_writeFreq (F : FreqTable) (s : State) : (writeFreq F s).rst = s.rst := rfl
@[simp] theorem script_writeFreq (F : FreqTable) (s : State) : (writeFreq F s).script = s.script := rfl
@[simp] theorem sched_writeFreq (F : FreqTable) (s : State) : (writeFreq F s).sched = s.sched := rfl
@[simp] theorem hostReads_writeFreq (F : FreqTable) (s : State) : (writeFreq F s).hostReads = s.hostReads := rfl
@[simp] theorem draws_writeFreq (F : FreqTable) (s : State) : (writeFreq F s).draws = s.draws := rfl

/-! ### writeTree -/

@[simp] theorem params_writeTree (T : HuffTree) (s : State) : (writeTree T s).params = s.params := rfl
@[simp] theorem irqEn_writeTree (T : HuffTree) (s : State) : (writeTree T s).irqEn = s.irqEn := rfl
@[simp] theorem done_writeTree (T : HuffTree) (s : State) : (writeTree T s).done = s.done := rfl
@[simp] theorem err_writeTree (T : HuffTree) (s : State) : (writeTree T s).err = s.err := rfl
@[simp] theorem drop_writeTree (T : HuffTree) (s : State) : (writeTree T s).drop = s.drop := rfl
@[simp] theorem codeValid_writeTree (T : HuffTree) (s : State) : (writeTree T s).codeValid = false := rfl
@[simp] theorem lastOp_writeTree (T : HuffTree) (s : State) : (writeTree T s).lastOp = s.lastOp := rfl
@[simp] theorem errCode_writeTree (T : HuffTree) (s : State) : (writeTree T s).errCode = s.errCode := rfl
@[simp] theorem errInfo_writeTree (T : HuffTree) (s : State) : (writeTree T s).errInfo = s.errInfo := rfl
@[simp] theorem inLen_writeTree (T : HuffTree) (s : State) : (writeTree T s).inLen = s.inLen := rfl
@[simp] theorem inBitlen_writeTree (T : HuffTree) (s : State) : (writeTree T s).inBitlen = s.inBitlen := rfl
@[simp] theorem outLen_writeTree (T : HuffTree) (s : State) : (writeTree T s).outLen = s.outLen := rfl
@[simp] theorem outBitlen_writeTree (T : HuffTree) (s : State) : (writeTree T s).outBitlen = s.outBitlen := rfl
@[simp] theorem hdrLen_writeTree (T : HuffTree) (s : State) : (writeTree T s).hdrLen = s.hdrLen := rfl
@[simp] theorem freq_writeTree (T : HuffTree) (s : State) : (writeTree T s).freq = s.freq := rfl
@[simp] theorem code_writeTree (T : HuffTree) (s : State) : (writeTree T s).code = s.code := rfl
@[simp] theorem tree_writeTree (T : HuffTree) (s : State) : (writeTree T s).tree = some T := rfl
@[simp] theorem inMem_writeTree (T : HuffTree) (s : State) : (writeTree T s).inMem = s.inMem := rfl
@[simp] theorem outMem_writeTree (T : HuffTree) (s : State) : (writeTree T s).outMem = s.outMem := rfl
@[simp] theorem seq_writeTree (T : HuffTree) (s : State) : (writeTree T s).seq = s.seq := rfl
@[simp] theorem rst_writeTree (T : HuffTree) (s : State) : (writeTree T s).rst = s.rst := rfl
@[simp] theorem script_writeTree (T : HuffTree) (s : State) : (writeTree T s).script = s.script := rfl
@[simp] theorem sched_writeTree (T : HuffTree) (s : State) : (writeTree T s).sched = s.sched := rfl
@[simp] theorem hostReads_writeTree (T : HuffTree) (s : State) : (writeTree T s).hostReads = s.hostReads := rfl
@[simp] theorem draws_writeTree (T : HuffTree) (s : State) : (writeTree T s).draws = s.draws := rfl

/-! ### writeCode -/

@[simp] theorem params_writeCode (C : CodeTable) (s : State) : (writeCode C s).params = s.params := rfl
@[simp] theorem irqEn_writeCode (C : CodeTable) (s : State) : (writeCode C s).irqEn = s.irqEn := rfl
@[simp] theorem done_writeCode (C : CodeTable) (s : State) : (writeCode C s).done = s.done := rfl
@[simp] theorem err_writeCode (C : CodeTable) (s : State) : (writeCode C s).err = s.err := rfl
@[simp] theorem drop_writeCode (C : CodeTable) (s : State) : (writeCode C s).drop = s.drop := rfl
@[simp] theorem codeValid_writeCode (C : CodeTable) (s : State) : (writeCode C s).codeValid = true := rfl
@[simp] theorem lastOp_writeCode (C : CodeTable) (s : State) : (writeCode C s).lastOp = s.lastOp := rfl
@[simp] theorem errCode_writeCode (C : CodeTable) (s : State) : (writeCode C s).errCode = s.errCode := rfl
@[simp] theorem errInfo_writeCode (C : CodeTable) (s : State) : (writeCode C s).errInfo = s.errInfo := rfl
@[simp] theorem inLen_writeCode (C : CodeTable) (s : State) : (writeCode C s).inLen = s.inLen := rfl
@[simp] theorem inBitlen_writeCode (C : CodeTable) (s : State) : (writeCode C s).inBitlen = s.inBitlen := rfl
@[simp] theorem outLen_writeCode (C : CodeTable) (s : State) : (writeCode C s).outLen = s.outLen := rfl
@[simp] theorem outBitlen_writeCode (C : CodeTable) (s : State) : (writeCode C s).outBitlen = s.outBitlen := rfl
@[simp] theorem hdrLen_writeCode (C : CodeTable) (s : State) : (writeCode C s).hdrLen = s.hdrLen := rfl
@[simp] theorem freq_writeCode (C : CodeTable) (s : State) : (writeCode C s).freq = s.freq := rfl
@[simp] theorem code_writeCode (C : CodeTable) (s : State) : (writeCode C s).code = .written C := rfl
@[simp] theorem tree_writeCode (C : CodeTable) (s : State) : (writeCode C s).tree = s.tree := rfl
@[simp] theorem inMem_writeCode (C : CodeTable) (s : State) : (writeCode C s).inMem = s.inMem := rfl
@[simp] theorem outMem_writeCode (C : CodeTable) (s : State) : (writeCode C s).outMem = s.outMem := rfl
@[simp] theorem seq_writeCode (C : CodeTable) (s : State) : (writeCode C s).seq = s.seq := rfl
@[simp] theorem rst_writeCode (C : CodeTable) (s : State) : (writeCode C s).rst = s.rst := rfl
@[simp] theorem script_writeCode (C : CodeTable) (s : State) : (writeCode C s).script = s.script := rfl
@[simp] theorem sched_writeCode (C : CodeTable) (s : State) : (writeCode C s).sched = s.sched := rfl
@[simp] theorem hostReads_writeCode (C : CodeTable) (s : State) : (writeCode C s).hostReads = s.hostReads := rfl
@[simp] theorem draws_writeCode (C : CodeTable) (s : State) : (writeCode C s).draws = s.draws := rfl

/-! ### writeOut -/

@[simp] theorem params_writeOut (B : List Byte) (s : State) : (writeOut B s).params = s.params := rfl
@[simp] theorem irqEn_writeOut (B : List Byte) (s : State) : (writeOut B s).irqEn = s.irqEn := rfl
@[simp] theorem done_writeOut (B : List Byte) (s : State) : (writeOut B s).done = s.done := rfl
@[simp] theorem err_writeOut (B : List Byte) (s : State) : (writeOut B s).err = s.err := rfl
@[simp] theorem drop_writeOut (B : List Byte) (s : State) : (writeOut B s).drop = s.drop := rfl
@[simp] theorem codeValid_writeOut (B : List Byte) (s : State) : (writeOut B s).codeValid = s.codeValid := rfl
@[simp] theorem lastOp_writeOut (B : List Byte) (s : State) : (writeOut B s).lastOp = s.lastOp := rfl
@[simp] theorem errCode_writeOut (B : List Byte) (s : State) : (writeOut B s).errCode = s.errCode := rfl
@[simp] theorem errInfo_writeOut (B : List Byte) (s : State) : (writeOut B s).errInfo = s.errInfo := rfl
@[simp] theorem inLen_writeOut (B : List Byte) (s : State) : (writeOut B s).inLen = s.inLen := rfl
@[simp] theorem inBitlen_writeOut (B : List Byte) (s : State) : (writeOut B s).inBitlen = s.inBitlen := rfl
@[simp] theorem outLen_writeOut (B : List Byte) (s : State) : (writeOut B s).outLen = BitVec.ofNat 32 B.length := rfl
@[simp] theorem outBitlen_writeOut (B : List Byte) (s : State) : (writeOut B s).outBitlen = s.outBitlen := rfl
@[simp] theorem hdrLen_writeOut (B : List Byte) (s : State) : (writeOut B s).hdrLen = s.hdrLen := rfl
@[simp] theorem freq_writeOut (B : List Byte) (s : State) : (writeOut B s).freq = s.freq := rfl
@[simp] theorem code_writeOut (B : List Byte) (s : State) : (writeOut B s).code = s.code := rfl
@[simp] theorem tree_writeOut (B : List Byte) (s : State) : (writeOut B s).tree = s.tree := rfl
@[simp] theorem inMem_writeOut (B : List Byte) (s : State) : (writeOut B s).inMem = s.inMem := rfl
@[simp] theorem outMem_writeOut (B : List Byte) (s : State) : (writeOut B s).outMem = cellsFrom 0 B := rfl
@[simp] theorem seq_writeOut (B : List Byte) (s : State) : (writeOut B s).seq = s.seq := rfl
@[simp] theorem rst_writeOut (B : List Byte) (s : State) : (writeOut B s).rst = s.rst := rfl
@[simp] theorem script_writeOut (B : List Byte) (s : State) : (writeOut B s).script = s.script := rfl
@[simp] theorem sched_writeOut (B : List Byte) (s : State) : (writeOut B s).sched = s.sched := rfl
@[simp] theorem hostReads_writeOut (B : List Byte) (s : State) : (writeOut B s).hostReads = s.hostReads := rfl
@[simp] theorem draws_writeOut (B : List Byte) (s : State) : (writeOut B s).draws = s.draws := rfl

/-! ### writeOutBitlen -/

@[simp] theorem params_writeOutBitlen (n : Nat) (s : State) : (writeOutBitlen n s).params = s.params := rfl
@[simp] theorem irqEn_writeOutBitlen (n : Nat) (s : State) : (writeOutBitlen n s).irqEn = s.irqEn := rfl
@[simp] theorem done_writeOutBitlen (n : Nat) (s : State) : (writeOutBitlen n s).done = s.done := rfl
@[simp] theorem err_writeOutBitlen (n : Nat) (s : State) : (writeOutBitlen n s).err = s.err := rfl
@[simp] theorem drop_writeOutBitlen (n : Nat) (s : State) : (writeOutBitlen n s).drop = s.drop := rfl
@[simp] theorem codeValid_writeOutBitlen (n : Nat) (s : State) : (writeOutBitlen n s).codeValid = s.codeValid := rfl
@[simp] theorem lastOp_writeOutBitlen (n : Nat) (s : State) : (writeOutBitlen n s).lastOp = s.lastOp := rfl
@[simp] theorem errCode_writeOutBitlen (n : Nat) (s : State) : (writeOutBitlen n s).errCode = s.errCode := rfl
@[simp] theorem errInfo_writeOutBitlen (n : Nat) (s : State) : (writeOutBitlen n s).errInfo = s.errInfo := rfl
@[simp] theorem inLen_writeOutBitlen (n : Nat) (s : State) : (writeOutBitlen n s).inLen = s.inLen := rfl
@[simp] theorem inBitlen_writeOutBitlen (n : Nat) (s : State) : (writeOutBitlen n s).inBitlen = s.inBitlen := rfl
@[simp] theorem outLen_writeOutBitlen (n : Nat) (s : State) : (writeOutBitlen n s).outLen = s.outLen := rfl
@[simp] theorem outBitlen_writeOutBitlen (n : Nat) (s : State) : (writeOutBitlen n s).outBitlen = BitVec.ofNat 32 n := rfl
@[simp] theorem hdrLen_writeOutBitlen (n : Nat) (s : State) : (writeOutBitlen n s).hdrLen = s.hdrLen := rfl
@[simp] theorem freq_writeOutBitlen (n : Nat) (s : State) : (writeOutBitlen n s).freq = s.freq := rfl
@[simp] theorem code_writeOutBitlen (n : Nat) (s : State) : (writeOutBitlen n s).code = s.code := rfl
@[simp] theorem tree_writeOutBitlen (n : Nat) (s : State) : (writeOutBitlen n s).tree = s.tree := rfl
@[simp] theorem inMem_writeOutBitlen (n : Nat) (s : State) : (writeOutBitlen n s).inMem = s.inMem := rfl
@[simp] theorem outMem_writeOutBitlen (n : Nat) (s : State) : (writeOutBitlen n s).outMem = s.outMem := rfl
@[simp] theorem seq_writeOutBitlen (n : Nat) (s : State) : (writeOutBitlen n s).seq = s.seq := rfl
@[simp] theorem rst_writeOutBitlen (n : Nat) (s : State) : (writeOutBitlen n s).rst = s.rst := rfl
@[simp] theorem script_writeOutBitlen (n : Nat) (s : State) : (writeOutBitlen n s).script = s.script := rfl
@[simp] theorem sched_writeOutBitlen (n : Nat) (s : State) : (writeOutBitlen n s).sched = s.sched := rfl
@[simp] theorem hostReads_writeOutBitlen (n : Nat) (s : State) : (writeOutBitlen n s).hostReads = s.hostReads := rfl
@[simp] theorem draws_writeOutBitlen (n : Nat) (s : State) : (writeOutBitlen n s).draws = s.draws := rfl

/-! ### writeHdrLen -/

@[simp] theorem params_writeHdrLen (n : Nat) (s : State) : (writeHdrLen n s).params = s.params := rfl
@[simp] theorem irqEn_writeHdrLen (n : Nat) (s : State) : (writeHdrLen n s).irqEn = s.irqEn := rfl
@[simp] theorem done_writeHdrLen (n : Nat) (s : State) : (writeHdrLen n s).done = s.done := rfl
@[simp] theorem err_writeHdrLen (n : Nat) (s : State) : (writeHdrLen n s).err = s.err := rfl
@[simp] theorem drop_writeHdrLen (n : Nat) (s : State) : (writeHdrLen n s).drop = s.drop := rfl
@[simp] theorem codeValid_writeHdrLen (n : Nat) (s : State) : (writeHdrLen n s).codeValid = s.codeValid := rfl
@[simp] theorem lastOp_writeHdrLen (n : Nat) (s : State) : (writeHdrLen n s).lastOp = s.lastOp := rfl
@[simp] theorem errCode_writeHdrLen (n : Nat) (s : State) : (writeHdrLen n s).errCode = s.errCode := rfl
@[simp] theorem errInfo_writeHdrLen (n : Nat) (s : State) : (writeHdrLen n s).errInfo = s.errInfo := rfl
@[simp] theorem inLen_writeHdrLen (n : Nat) (s : State) : (writeHdrLen n s).inLen = s.inLen := rfl
@[simp] theorem inBitlen_writeHdrLen (n : Nat) (s : State) : (writeHdrLen n s).inBitlen = s.inBitlen := rfl
@[simp] theorem outLen_writeHdrLen (n : Nat) (s : State) : (writeHdrLen n s).outLen = s.outLen := rfl
@[simp] theorem outBitlen_writeHdrLen (n : Nat) (s : State) : (writeHdrLen n s).outBitlen = s.outBitlen := rfl
@[simp] theorem hdrLen_writeHdrLen (n : Nat) (s : State) : (writeHdrLen n s).hdrLen = BitVec.ofNat 32 n := rfl
@[simp] theorem freq_writeHdrLen (n : Nat) (s : State) : (writeHdrLen n s).freq = s.freq := rfl
@[simp] theorem code_writeHdrLen (n : Nat) (s : State) : (writeHdrLen n s).code = s.code := rfl
@[simp] theorem tree_writeHdrLen (n : Nat) (s : State) : (writeHdrLen n s).tree = s.tree := rfl
@[simp] theorem inMem_writeHdrLen (n : Nat) (s : State) : (writeHdrLen n s).inMem = s.inMem := rfl
@[simp] theorem outMem_writeHdrLen (n : Nat) (s : State) : (writeHdrLen n s).outMem = s.outMem := rfl
@[simp] theorem seq_writeHdrLen (n : Nat) (s : State) : (writeHdrLen n s).seq = s.seq := rfl
@[simp] theorem rst_writeHdrLen (n : Nat) (s : State) : (writeHdrLen n s).rst = s.rst := rfl
@[simp] theorem script_writeHdrLen (n : Nat) (s : State) : (writeHdrLen n s).script = s.script := rfl
@[simp] theorem sched_writeHdrLen (n : Nat) (s : State) : (writeHdrLen n s).sched = s.sched := rfl
@[simp] theorem hostReads_writeHdrLen (n : Nat) (s : State) : (writeHdrLen n s).hostReads = s.hostReads := rfl
@[simp] theorem draws_writeHdrLen (n : Nat) (s : State) : (writeHdrLen n s).draws = s.draws := rfl

/-! ### dropOut -/

@[simp] theorem params_dropOut (s : State) : (dropOut s).params = s.params := rfl
@[simp] theorem irqEn_dropOut (s : State) : (dropOut s).irqEn = s.irqEn := rfl
@[simp] theorem done_dropOut (s : State) : (dropOut s).done = s.done := rfl
@[simp] theorem err_dropOut (s : State) : (dropOut s).err = s.err := rfl
@[simp] theorem drop_dropOut (s : State) : (dropOut s).drop = s.drop := rfl
@[simp] theorem codeValid_dropOut (s : State) : (dropOut s).codeValid = s.codeValid := rfl
@[simp] theorem lastOp_dropOut (s : State) : (dropOut s).lastOp = s.lastOp := rfl
@[simp] theorem errCode_dropOut (s : State) : (dropOut s).errCode = s.errCode := rfl
@[simp] theorem errInfo_dropOut (s : State) : (dropOut s).errInfo = s.errInfo := rfl
@[simp] theorem inLen_dropOut (s : State) : (dropOut s).inLen = s.inLen := rfl
@[simp] theorem inBitlen_dropOut (s : State) : (dropOut s).inBitlen = s.inBitlen := rfl
@[simp] theorem outLen_dropOut (s : State) : (dropOut s).outLen = 0 := rfl
@[simp] theorem outBitlen_dropOut (s : State) : (dropOut s).outBitlen = s.outBitlen := rfl
@[simp] theorem hdrLen_dropOut (s : State) : (dropOut s).hdrLen = s.hdrLen := rfl
@[simp] theorem freq_dropOut (s : State) : (dropOut s).freq = s.freq := rfl
@[simp] theorem code_dropOut (s : State) : (dropOut s).code = s.code := rfl
@[simp] theorem tree_dropOut (s : State) : (dropOut s).tree = s.tree := rfl
@[simp] theorem inMem_dropOut (s : State) : (dropOut s).inMem = s.inMem := rfl
@[simp] theorem outMem_dropOut (s : State) : (dropOut s).outMem = [] := rfl
@[simp] theorem seq_dropOut (s : State) : (dropOut s).seq = s.seq := rfl
@[simp] theorem rst_dropOut (s : State) : (dropOut s).rst = s.rst := rfl
@[simp] theorem script_dropOut (s : State) : (dropOut s).script = s.script := rfl
@[simp] theorem sched_dropOut (s : State) : (dropOut s).sched = s.sched := rfl
@[simp] theorem hostReads_dropOut (s : State) : (dropOut s).hostReads = s.hostReads := rfl
@[simp] theorem draws_dropOut (s : State) : (dropOut s).draws = s.draws := rfl

/-! ### dropOutBitlen -/

@[simp] theorem params_dropOutBitlen (s : State) : (dropOutBitlen s).params = s.params := rfl
@[simp] theorem irqEn_dropOutBitlen (s : State) : (dropOutBitlen s).irqEn = s.irqEn := rfl
@[simp] theorem done_dropOutBitlen (s : State) : (dropOutBitlen s).done = s.done := rfl
@[simp] theorem err_dropOutBitlen (s : State) : (dropOutBitlen s).err = s.err := rfl
@[simp] theorem drop_dropOutBitlen (s : State) : (dropOutBitlen s).drop = s.drop := rfl
@[simp] theorem codeValid_dropOutBitlen (s : State) : (dropOutBitlen s).codeValid = s.codeValid := rfl
@[simp] theorem lastOp_dropOutBitlen (s : State) : (dropOutBitlen s).lastOp = s.lastOp := rfl
@[simp] theorem errCode_dropOutBitlen (s : State) : (dropOutBitlen s).errCode = s.errCode := rfl
@[simp] theorem errInfo_dropOutBitlen (s : State) : (dropOutBitlen s).errInfo = s.errInfo := rfl
@[simp] theorem inLen_dropOutBitlen (s : State) : (dropOutBitlen s).inLen = s.inLen := rfl
@[simp] theorem inBitlen_dropOutBitlen (s : State) : (dropOutBitlen s).inBitlen = s.inBitlen := rfl
@[simp] theorem outLen_dropOutBitlen (s : State) : (dropOutBitlen s).outLen = s.outLen := rfl
@[simp] theorem outBitlen_dropOutBitlen (s : State) : (dropOutBitlen s).outBitlen = 0 := rfl
@[simp] theorem hdrLen_dropOutBitlen (s : State) : (dropOutBitlen s).hdrLen = s.hdrLen := rfl
@[simp] theorem freq_dropOutBitlen (s : State) : (dropOutBitlen s).freq = s.freq := rfl
@[simp] theorem code_dropOutBitlen (s : State) : (dropOutBitlen s).code = s.code := rfl
@[simp] theorem tree_dropOutBitlen (s : State) : (dropOutBitlen s).tree = s.tree := rfl
@[simp] theorem inMem_dropOutBitlen (s : State) : (dropOutBitlen s).inMem = s.inMem := rfl
@[simp] theorem outMem_dropOutBitlen (s : State) : (dropOutBitlen s).outMem = s.outMem := rfl
@[simp] theorem seq_dropOutBitlen (s : State) : (dropOutBitlen s).seq = s.seq := rfl
@[simp] theorem rst_dropOutBitlen (s : State) : (dropOutBitlen s).rst = s.rst := rfl
@[simp] theorem script_dropOutBitlen (s : State) : (dropOutBitlen s).script = s.script := rfl
@[simp] theorem sched_dropOutBitlen (s : State) : (dropOutBitlen s).sched = s.sched := rfl
@[simp] theorem hostReads_dropOutBitlen (s : State) : (dropOutBitlen s).hostReads = s.hostReads := rfl
@[simp] theorem draws_dropOutBitlen (s : State) : (dropOutBitlen s).draws = s.draws := rfl

/-! ### dropHdrLen -/

@[simp] theorem params_dropHdrLen (s : State) : (dropHdrLen s).params = s.params := rfl
@[simp] theorem irqEn_dropHdrLen (s : State) : (dropHdrLen s).irqEn = s.irqEn := rfl
@[simp] theorem done_dropHdrLen (s : State) : (dropHdrLen s).done = s.done := rfl
@[simp] theorem err_dropHdrLen (s : State) : (dropHdrLen s).err = s.err := rfl
@[simp] theorem drop_dropHdrLen (s : State) : (dropHdrLen s).drop = s.drop := rfl
@[simp] theorem codeValid_dropHdrLen (s : State) : (dropHdrLen s).codeValid = s.codeValid := rfl
@[simp] theorem lastOp_dropHdrLen (s : State) : (dropHdrLen s).lastOp = s.lastOp := rfl
@[simp] theorem errCode_dropHdrLen (s : State) : (dropHdrLen s).errCode = s.errCode := rfl
@[simp] theorem errInfo_dropHdrLen (s : State) : (dropHdrLen s).errInfo = s.errInfo := rfl
@[simp] theorem inLen_dropHdrLen (s : State) : (dropHdrLen s).inLen = s.inLen := rfl
@[simp] theorem inBitlen_dropHdrLen (s : State) : (dropHdrLen s).inBitlen = s.inBitlen := rfl
@[simp] theorem outLen_dropHdrLen (s : State) : (dropHdrLen s).outLen = s.outLen := rfl
@[simp] theorem outBitlen_dropHdrLen (s : State) : (dropHdrLen s).outBitlen = s.outBitlen := rfl
@[simp] theorem hdrLen_dropHdrLen (s : State) : (dropHdrLen s).hdrLen = 0 := rfl
@[simp] theorem freq_dropHdrLen (s : State) : (dropHdrLen s).freq = s.freq := rfl
@[simp] theorem code_dropHdrLen (s : State) : (dropHdrLen s).code = s.code := rfl
@[simp] theorem tree_dropHdrLen (s : State) : (dropHdrLen s).tree = s.tree := rfl
@[simp] theorem inMem_dropHdrLen (s : State) : (dropHdrLen s).inMem = s.inMem := rfl
@[simp] theorem outMem_dropHdrLen (s : State) : (dropHdrLen s).outMem = s.outMem := rfl
@[simp] theorem seq_dropHdrLen (s : State) : (dropHdrLen s).seq = s.seq := rfl
@[simp] theorem rst_dropHdrLen (s : State) : (dropHdrLen s).rst = s.rst := rfl
@[simp] theorem script_dropHdrLen (s : State) : (dropHdrLen s).script = s.script := rfl
@[simp] theorem sched_dropHdrLen (s : State) : (dropHdrLen s).sched = s.sched := rfl
@[simp] theorem hostReads_dropHdrLen (s : State) : (dropHdrLen s).hostReads = s.hostReads := rfl
@[simp] theorem draws_dropHdrLen (s : State) : (dropHdrLen s).draws = s.draws := rfl

/-! ### accept -/

@[simp] theorem params_accept (w : Word) (s : State) : (accept w s).params = s.params := rfl
@[simp] theorem irqEn_accept (w : Word) (s : State) : (accept w s).irqEn = s.irqEn := rfl
@[simp] theorem done_accept (w : Word) (s : State) : (accept w s).done = false := rfl
@[simp] theorem err_accept (w : Word) (s : State) : (accept w s).err = false := rfl
@[simp] theorem drop_accept (w : Word) (s : State) : (accept w s).drop = s.drop := rfl
@[simp] theorem codeValid_accept (w : Word) (s : State) : (accept w s).codeValid = s.codeValid := rfl
@[simp] theorem lastOp_accept (w : Word) (s : State) : (accept w s).lastOp = opField w := rfl
@[simp] theorem errCode_accept (w : Word) (s : State) : (accept w s).errCode = 0 := rfl
@[simp] theorem errInfo_accept (w : Word) (s : State) : (accept w s).errInfo = 0 := rfl
@[simp] theorem inLen_accept (w : Word) (s : State) : (accept w s).inLen = s.inLen := rfl
@[simp] theorem inBitlen_accept (w : Word) (s : State) : (accept w s).inBitlen = s.inBitlen := rfl
@[simp] theorem outLen_accept (w : Word) (s : State) : (accept w s).outLen = s.outLen := rfl
@[simp] theorem outBitlen_accept (w : Word) (s : State) : (accept w s).outBitlen = s.outBitlen := rfl
@[simp] theorem hdrLen_accept (w : Word) (s : State) : (accept w s).hdrLen = s.hdrLen := rfl
@[simp] theorem freq_accept (w : Word) (s : State) : (accept w s).freq = s.freq := rfl
@[simp] theorem code_accept (w : Word) (s : State) : (accept w s).code = s.code := rfl
@[simp] theorem tree_accept (w : Word) (s : State) : (accept w s).tree = s.tree := rfl
@[simp] theorem inMem_accept (w : Word) (s : State) : (accept w s).inMem = s.inMem := rfl
@[simp] theorem outMem_accept (w : Word) (s : State) : (accept w s).outMem = s.outMem := rfl
@[simp] theorem seq_accept (w : Word) (s : State) : (accept w s).seq = .busy w := rfl
@[simp] theorem rst_accept (w : Word) (s : State) : (accept w s).rst = s.rst := rfl
@[simp] theorem script_accept (w : Word) (s : State) : (accept w s).script = s.script := rfl
@[simp] theorem sched_accept (w : Word) (s : State) : (accept w s).sched = s.sched := rfl
@[simp] theorem hostReads_accept (w : Word) (s : State) : (accept w s).hostReads = s.hostReads := rfl
@[simp] theorem draws_accept (w : Word) (s : State) : (accept w s).draws = s.draws := rfl

/-! ### finish -/

@[simp] theorem params_finish (s : State) : (finish s).params = s.params := rfl
@[simp] theorem irqEn_finish (s : State) : (finish s).irqEn = s.irqEn := rfl
@[simp] theorem done_finish (s : State) : (finish s).done = true := rfl
@[simp] theorem err_finish (s : State) : (finish s).err = s.err := rfl
@[simp] theorem drop_finish (s : State) : (finish s).drop = s.drop := rfl
@[simp] theorem codeValid_finish (s : State) : (finish s).codeValid = s.codeValid := rfl
@[simp] theorem lastOp_finish (s : State) : (finish s).lastOp = s.lastOp := rfl
@[simp] theorem errCode_finish (s : State) : (finish s).errCode = s.errCode := rfl
@[simp] theorem errInfo_finish (s : State) : (finish s).errInfo = s.errInfo := rfl
@[simp] theorem inLen_finish (s : State) : (finish s).inLen = s.inLen := rfl
@[simp] theorem inBitlen_finish (s : State) : (finish s).inBitlen = s.inBitlen := rfl
@[simp] theorem outLen_finish (s : State) : (finish s).outLen = s.outLen := rfl
@[simp] theorem outBitlen_finish (s : State) : (finish s).outBitlen = s.outBitlen := rfl
@[simp] theorem hdrLen_finish (s : State) : (finish s).hdrLen = s.hdrLen := rfl
@[simp] theorem freq_finish (s : State) : (finish s).freq = s.freq := rfl
@[simp] theorem code_finish (s : State) : (finish s).code = s.code := rfl
@[simp] theorem tree_finish (s : State) : (finish s).tree = s.tree := rfl
@[simp] theorem inMem_finish (s : State) : (finish s).inMem = s.inMem := rfl
@[simp] theorem outMem_finish (s : State) : (finish s).outMem = s.outMem := rfl
@[simp] theorem seq_finish (s : State) : (finish s).seq = .idle := rfl
@[simp] theorem rst_finish (s : State) : (finish s).rst = s.rst := rfl
@[simp] theorem script_finish (s : State) : (finish s).script = s.script := rfl
@[simp] theorem sched_finish (s : State) : (finish s).sched = s.sched := rfl
@[simp] theorem hostReads_finish (s : State) : (finish s).hostReads = s.hostReads := rfl
@[simp] theorem draws_finish (s : State) : (finish s).draws = s.draws + 1 := rfl

/-! ### raiseError -/

@[simp] theorem params_raiseError (e : CmdError) (s : State) : (raiseError e s).params = s.params := rfl
@[simp] theorem irqEn_raiseError (e : CmdError) (s : State) : (raiseError e s).irqEn = s.irqEn := rfl
@[simp] theorem done_raiseError (e : CmdError) (s : State) : (raiseError e s).done = true := rfl
@[simp] theorem err_raiseError (e : CmdError) (s : State) : (raiseError e s).err = true := rfl
@[simp] theorem drop_raiseError (e : CmdError) (s : State) : (raiseError e s).drop = s.drop := rfl
@[simp] theorem codeValid_raiseError (e : CmdError) (s : State) : (raiseError e s).codeValid = s.codeValid := rfl
@[simp] theorem lastOp_raiseError (e : CmdError) (s : State) : (raiseError e s).lastOp = s.lastOp := rfl
@[simp] theorem errCode_raiseError (e : CmdError) (s : State) : (raiseError e s).errCode = e.kind.code := rfl
@[simp] theorem errInfo_raiseError (e : CmdError) (s : State) : (raiseError e s).errInfo = e.info := rfl
@[simp] theorem inLen_raiseError (e : CmdError) (s : State) : (raiseError e s).inLen = s.inLen := rfl
@[simp] theorem inBitlen_raiseError (e : CmdError) (s : State) : (raiseError e s).inBitlen = s.inBitlen := rfl
@[simp] theorem outLen_raiseError (e : CmdError) (s : State) : (raiseError e s).outLen = s.outLen := rfl
@[simp] theorem outBitlen_raiseError (e : CmdError) (s : State) : (raiseError e s).outBitlen = s.outBitlen := rfl
@[simp] theorem hdrLen_raiseError (e : CmdError) (s : State) : (raiseError e s).hdrLen = s.hdrLen := rfl
@[simp] theorem freq_raiseError (e : CmdError) (s : State) : (raiseError e s).freq = s.freq := rfl
@[simp] theorem code_raiseError (e : CmdError) (s : State) : (raiseError e s).code = s.code := rfl
@[simp] theorem tree_raiseError (e : CmdError) (s : State) : (raiseError e s).tree = s.tree := rfl
@[simp] theorem inMem_raiseError (e : CmdError) (s : State) : (raiseError e s).inMem = s.inMem := rfl
@[simp] theorem outMem_raiseError (e : CmdError) (s : State) : (raiseError e s).outMem = s.outMem := rfl
@[simp] theorem seq_raiseError (e : CmdError) (s : State) : (raiseError e s).seq = .idle := rfl
@[simp] theorem rst_raiseError (e : CmdError) (s : State) : (raiseError e s).rst = s.rst := rfl
@[simp] theorem script_raiseError (e : CmdError) (s : State) : (raiseError e s).script = s.script := rfl
@[simp] theorem sched_raiseError (e : CmdError) (s : State) : (raiseError e s).sched = s.sched := rfl
@[simp] theorem hostReads_raiseError (e : CmdError) (s : State) : (raiseError e s).hostReads = s.hostReads := rfl
@[simp] theorem draws_raiseError (e : CmdError) (s : State) : (raiseError e s).draws = s.draws + 1 := rfl

/-! ### resetAction -/

@[simp] theorem params_resetAction (s : State) : (resetAction s).params = s.params := rfl
@[simp] theorem irqEn_resetAction (s : State) : (resetAction s).irqEn = false := rfl
@[simp] theorem done_resetAction (s : State) : (resetAction s).done = false := rfl
@[simp] theorem err_resetAction (s : State) : (resetAction s).err = false := rfl
@[simp] theorem drop_resetAction (s : State) : (resetAction s).drop = false := rfl
@[simp] theorem codeValid_resetAction (s : State) : (resetAction s).codeValid = false := rfl
@[simp] theorem lastOp_resetAction (s : State) : (resetAction s).lastOp = 0 := rfl
@[simp] theorem errCode_resetAction (s : State) : (resetAction s).errCode = 0 := rfl
@[simp] theorem errInfo_resetAction (s : State) : (resetAction s).errInfo = 0 := rfl
@[simp] theorem inLen_resetAction (s : State) : (resetAction s).inLen = 0 := rfl
@[simp] theorem inBitlen_resetAction (s : State) : (resetAction s).inBitlen = 0 := rfl
@[simp] theorem outLen_resetAction (s : State) : (resetAction s).outLen = 0 := rfl
@[simp] theorem outBitlen_resetAction (s : State) : (resetAction s).outBitlen = 0 := rfl
@[simp] theorem hdrLen_resetAction (s : State) : (resetAction s).hdrLen = 0 := rfl
@[simp] theorem freq_resetAction (s : State) : (resetAction s).freq = s.freq := rfl
@[simp] theorem code_resetAction (s : State) : (resetAction s).code = .unspecified := rfl
@[simp] theorem tree_resetAction (s : State) : (resetAction s).tree = none := rfl
@[simp] theorem inMem_resetAction (s : State) : (resetAction s).inMem = [] := rfl
@[simp] theorem outMem_resetAction (s : State) : (resetAction s).outMem = [] := rfl
@[simp] theorem seq_resetAction (s : State) : (resetAction s).seq = .init := rfl
@[simp] theorem rst_resetAction (s : State) : (resetAction s).rst = s.rst := rfl
@[simp] theorem script_resetAction (s : State) : (resetAction s).script = s.script := rfl
@[simp] theorem sched_resetAction (s : State) : (resetAction s).sched = s.sched := rfl
@[simp] theorem hostReads_resetAction (s : State) : (resetAction s).hostReads = s.hostReads := rfl
@[simp] theorem draws_resetAction (s : State) : (resetAction s).draws = s.draws := rfl

/-! ### finishInit -/

@[simp] theorem params_finishInit (s : State) : (finishInit s).params = s.params := rfl
@[simp] theorem irqEn_finishInit (s : State) : (finishInit s).irqEn = s.irqEn := rfl
@[simp] theorem done_finishInit (s : State) : (finishInit s).done = s.done := rfl
@[simp] theorem err_finishInit (s : State) : (finishInit s).err = s.err := rfl
@[simp] theorem drop_finishInit (s : State) : (finishInit s).drop = s.drop := rfl
@[simp] theorem codeValid_finishInit (s : State) : (finishInit s).codeValid = s.codeValid := rfl
@[simp] theorem lastOp_finishInit (s : State) : (finishInit s).lastOp = s.lastOp := rfl
@[simp] theorem errCode_finishInit (s : State) : (finishInit s).errCode = s.errCode := rfl
@[simp] theorem errInfo_finishInit (s : State) : (finishInit s).errInfo = s.errInfo := rfl
@[simp] theorem inLen_finishInit (s : State) : (finishInit s).inLen = s.inLen := rfl
@[simp] theorem inBitlen_finishInit (s : State) : (finishInit s).inBitlen = s.inBitlen := rfl
@[simp] theorem outLen_finishInit (s : State) : (finishInit s).outLen = s.outLen := rfl
@[simp] theorem outBitlen_finishInit (s : State) : (finishInit s).outBitlen = s.outBitlen := rfl
@[simp] theorem hdrLen_finishInit (s : State) : (finishInit s).hdrLen = s.hdrLen := rfl
@[simp] theorem freq_finishInit (s : State) : (finishInit s).freq = Table.fill 0 := rfl
@[simp] theorem code_finishInit (s : State) : (finishInit s).code = s.code := rfl
@[simp] theorem tree_finishInit (s : State) : (finishInit s).tree = s.tree := rfl
@[simp] theorem inMem_finishInit (s : State) : (finishInit s).inMem = s.inMem := rfl
@[simp] theorem outMem_finishInit (s : State) : (finishInit s).outMem = s.outMem := rfl
@[simp] theorem seq_finishInit (s : State) : (finishInit s).seq = .idle := rfl
@[simp] theorem rst_finishInit (s : State) : (finishInit s).rst = s.rst := rfl
@[simp] theorem script_finishInit (s : State) : (finishInit s).script = s.script := rfl
@[simp] theorem sched_finishInit (s : State) : (finishInit s).sched = s.sched := rfl
@[simp] theorem hostReads_finishInit (s : State) : (finishInit s).hostReads = s.hostReads := rfl
@[simp] theorem draws_finishInit (s : State) : (finishInit s).draws = s.draws + 1 := rfl

/-! ### readStep -/

@[simp] theorem params_readStep (off : BitVec 26) (s : State) : (readStep off s).params = s.params := rfl
@[simp] theorem irqEn_readStep (off : BitVec 26) (s : State) : (readStep off s).irqEn = s.irqEn := rfl
@[simp] theorem done_readStep (off : BitVec 26) (s : State) : (readStep off s).done = s.done := rfl
@[simp] theorem err_readStep (off : BitVec 26) (s : State) : (readStep off s).err = s.err := rfl
@[simp] theorem drop_readStep (off : BitVec 26) (s : State) : (readStep off s).drop = s.drop := rfl
@[simp] theorem codeValid_readStep (off : BitVec 26) (s : State) : (readStep off s).codeValid = s.codeValid := rfl
@[simp] theorem lastOp_readStep (off : BitVec 26) (s : State) : (readStep off s).lastOp = s.lastOp := rfl
@[simp] theorem errCode_readStep (off : BitVec 26) (s : State) : (readStep off s).errCode = s.errCode := rfl
@[simp] theorem errInfo_readStep (off : BitVec 26) (s : State) : (readStep off s).errInfo = s.errInfo := rfl
@[simp] theorem inLen_readStep (off : BitVec 26) (s : State) : (readStep off s).inLen = s.inLen := rfl
@[simp] theorem inBitlen_readStep (off : BitVec 26) (s : State) : (readStep off s).inBitlen = s.inBitlen := rfl
@[simp] theorem outLen_readStep (off : BitVec 26) (s : State) : (readStep off s).outLen = s.outLen := rfl
@[simp] theorem outBitlen_readStep (off : BitVec 26) (s : State) : (readStep off s).outBitlen = s.outBitlen := rfl
@[simp] theorem hdrLen_readStep (off : BitVec 26) (s : State) : (readStep off s).hdrLen = s.hdrLen := rfl
@[simp] theorem freq_readStep (off : BitVec 26) (s : State) : (readStep off s).freq = s.freq := rfl
@[simp] theorem code_readStep (off : BitVec 26) (s : State) : (readStep off s).code = s.code := rfl
@[simp] theorem tree_readStep (off : BitVec 26) (s : State) : (readStep off s).tree = s.tree := rfl
@[simp] theorem inMem_readStep (off : BitVec 26) (s : State) : (readStep off s).inMem = s.inMem := rfl
@[simp] theorem outMem_readStep (off : BitVec 26) (s : State) : (readStep off s).outMem = s.outMem := rfl
@[simp] theorem seq_readStep (off : BitVec 26) (s : State) : (readStep off s).seq = s.seq := rfl
@[simp] theorem rst_readStep (off : BitVec 26) (s : State) : (readStep off s).rst = s.rst := rfl
@[simp] theorem script_readStep (off : BitVec 26) (s : State) : (readStep off s).script = s.script := rfl
@[simp] theorem sched_readStep (off : BitVec 26) (s : State) : (readStep off s).sched = s.sched := rfl
@[simp] theorem hostReads_readStep (off : BitVec 26) (s : State) : (readStep off s).hostReads = hostRead s off :: s.hostReads := rfl
@[simp] theorem draws_readStep (off : BitVec 26) (s : State) : (readStep off s).draws = s.draws + 1 := rfl

end Sys2Proof.Machine
end

