-- ==== Sys2Proof/Laws/Exec.lean ====
section
/-! SUPPORT. What each command's completion can do, said once: an inversion lemma for each check and each command, and
the shape all commands share (they end in finish or in raiseError, on a state with the same inputs). -/

namespace Sys2Proof.Machine

open Host

/-! ## The checks -/

theorem checkInLen_ok_iff (s : State) : checkInLen s = .ok () ↔ s.inLen.toNat ≤ s.params.capIn := by
  unfold checkInLen
  split <;> simp [*]

theorem checkInLen_error {s : State} {e : CmdError} (h : checkInLen s = .error e) :
    s.params.capIn < s.inLen.toNat ∧ e = { kind := .inRange, info := s.inLen } := by
  unfold checkInLen at h
  split at h
  · cases h
  · cases h
    exact ⟨by omega, rfl⟩

theorem checkInLen_of_le {s : State} (h : s.inLen.toNat ≤ s.params.capIn) : checkInLen s = .ok () :=
  (checkInLen_ok_iff s).2 h

theorem checkInLen_of_lt {s : State} (h : s.params.capIn < s.inLen.toNat) :
    checkInLen s = .error { kind := .inRange, info := s.inLen } := by
  simp [checkInLen, Nat.not_le.2 h]

theorem checkInBitlen_of_le {s : State} (h : s.inBitlen.toNat ≤ 8 * s.params.capIn) : checkInBitlen s = .ok () := by
  simp [checkInBitlen, h]

theorem checkInBitlen_of_lt {s : State} (h : 8 * s.params.capIn < s.inBitlen.toNat) :
    checkInBitlen s = .error { kind := .inRange, info := s.inBitlen } := by
  simp [checkInBitlen, Nat.not_le.2 h]

theorem checkFits_of_le {s : State} {B : List Byte} (h : B.length ≤ s.params.capOut) : checkFits s B = .ok () := by
  simp [checkFits, h]

theorem checkFits_of_lt {s : State} {B : List Byte} (h : s.params.capOut < B.length) :
    checkFits s B = .error { kind := .outOverflow, info := BitVec.ofNat 32 B.length } := by
  simp [checkFits, Nat.not_le.2 h]

theorem checkFits_error {s : State} {B : List Byte} {e : CmdError} (h : checkFits s B = .error e) :
    e.kind = .outOverflow := by
  unfold checkFits at h
  split at h <;> cases h
  rfl

theorem checkFits_ok {s : State} {B : List Byte} (h : checkFits s B = .ok ()) : B.length ≤ s.params.capOut := by
  unfold checkFits at h
  split at h
  · assumption
  · cases h

/-- Sequencing two fallible computations: the second runs on the first's value. -/
theorem bind_ok {α β : Type} {x : Except CmdError α} {f : α → Except CmdError β} {b : β}
    (h : (x >>= f) = .ok b) : ∃ a, x = .ok a ∧ f a = .ok b := by
  cases x with
  | ok a => exact ⟨a, rfl, h⟩
  | error e => cases h

/-- Sequencing two fallible computations: an error is the first's or the second's. -/
theorem bind_error {α β : Type} {x : Except CmdError α} {f : α → Except CmdError β} {e : CmdError}
    (h : (x >>= f) = .error e) : x = .error e ∨ ∃ a, x = .ok a ∧ f a = .error e := by
  cases x with
  | ok a => exact .inr ⟨a, rfl, h⟩
  | error e' => cases h; exact .inl rfl

@[simp] theorem ok_bind {α β : Type} (a : α) (f : α → Except CmdError β) : (Except.ok a >>= f) = f a := rfl

@[simp] theorem error_bind {α β : Type} (e : CmdError) (f : α → Except CmdError β) :
    ((Except.error e : Except CmdError α) >>= f) = .error e := rfl

/-! ## The commands -/

/-- The states `u` that a command can hand to finish or raiseError: the inputs are those of `s`. -/
def SameInputs (s u : State) : Prop :=
  u.params = s.params ∧ u.irqEn = s.irqEn ∧ u.done = s.done ∧ u.err = s.err ∧ u.drop = s.drop ∧ u.lastOp = s.lastOp ∧
  u.errCode = s.errCode ∧ u.errInfo = s.errInfo ∧ u.inLen = s.inLen ∧ u.inBitlen = s.inBitlen ∧ u.inMem = s.inMem ∧
  u.seq = s.seq ∧ u.rst = s.rst ∧ u.script = s.script ∧ u.sched = s.sched ∧ u.hostReads = s.hostReads ∧
  u.draws = s.draws

theorem execNop_eq (s : State) : execNop s = .next (finish s) := rfl

theorem execClear_eq (s : State) : execClear s = .next (finish (writeFreq (Table.fill 0) s)) := rfl

theorem execBuild_eq (s : State) : execBuild s = .next (finish (writeTree (build s.freq) s)) := rfl

theorem execCount_cases (s : State) :
    (s.inLen.toNat ≤ s.params.capIn ∧ execCount s = .next (finish (writeFreq (count s.input) s))) ∨
    (s.params.capIn < s.inLen.toNat ∧
      execCount s = .next (raiseError { kind := .inRange, info := s.inLen } s)) := by
  rcases Nat.lt_or_ge s.params.capIn s.inLen.toNat with h | h
  · exact .inr ⟨h, by simp [execCount, checkInLen_of_lt h]⟩
  · exact .inl ⟨h, by simp [execCount, checkInLen_of_le h]⟩

theorem execDerive_cases (s : State) :
    (∃ T, s.tree = some T ∧ execDerive s = .next (finish (writeCode (derive T) s))) ∨
    (s.tree = none ∧ execDerive s = .next (raiseError { kind := .notReady, info := 0 } s)) := by
  unfold execDerive
  cases h : s.tree with
  | none => exact .inr ⟨rfl, rfl⟩
  | some T => exact .inl ⟨T, rfl, rfl⟩

theorem execSerialize_cases (s : State) :
    ((serialize s.freq).length ≤ s.params.capOut ∧ execSerialize s =
      .next (finish (writeHdrLen (serialize s.freq).length (writeOut (serialize s.freq) s)))) ∨
    (s.params.capOut < (serialize s.freq).length ∧ execSerialize s = .next (raiseError
      { kind := .outOverflow, info := BitVec.ofNat 32 (serialize s.freq).length } (dropHdrLen (dropOut s)))) := by
  rcases Nat.lt_or_ge s.params.capOut (serialize s.freq).length with h | h
  · exact .inr ⟨h, by simp [execSerialize, checkFits_of_lt h]⟩
  · exact .inl ⟨h, by simp [execSerialize, checkFits_of_le h]⟩

theorem execParse_cases (s : State) :
    (∃ F H, parseOutput s = .ok (F, H) ∧ execParse s = .next (finish (writeHdrLen H (writeFreq F s)))) ∨
    (∃ e, parseOutput s = .error e ∧ execParse s = .next (raiseError e (dropHdrLen s))) := by
  unfold execParse
  cases h : parseOutput s with
  | ok r => exact .inl ⟨r.1, r.2, rfl, rfl⟩
  | error e => exact .inr ⟨e, rfl, rfl⟩

theorem execEncode_cases (s : State) :
    (∃ P n, encodeOutput s = .ok (P, n) ∧ execEncode s = .next (finish (writeOutBitlen n (writeOut P s)))) ∨
    (∃ e, encodeOutput s = .error e ∧ execEncode s = .next (raiseError e (dropOutBitlen (dropOut s)))) := by
  unfold execEncode
  cases h : encodeOutput s with
  | ok r => exact .inl ⟨r.1, r.2, rfl, rfl⟩
  | error e => exact .inr ⟨e, rfl, rfl⟩

theorem execDecode_cases (s : State) :
    (∃ D n, decodeOutput s = .ok (D, n) ∧ execDecode s = .next (finish (writeOutBitlen n (writeOut D s)))) ∨
    (∃ e, decodeOutput s = .error e ∧ execDecode s = .next (raiseError e (dropOutBitlen (dropOut s)))) := by
  unfold execDecode
  cases h : decodeOutput s with
  | ok r => exact .inl ⟨r.1, r.2, rfl, rfl⟩
  | error e => exact .inr ⟨e, rfl, rfl⟩

theorem execPack_cases (s : State) :
    (∃ P, packOutput s = .ok P ∧ execPack s = .next (finish (writeOutBitlen s.inBitlen.toNat (writeOut P s)))) ∨
    (∃ e, packOutput s = .error e ∧ execPack s = .next (raiseError e (dropOutBitlen (dropOut s)))) := by
  unfold execPack
  cases h : packOutput s with
  | ok P => exact .inl ⟨P, rfl, rfl⟩
  | error e => exact .inr ⟨e, rfl, rfl⟩

theorem execUnpack_cases (s : State) :
    (∃ P n, unpackOutput s = .ok (P, n) ∧ execUnpack s = .next (finish (writeOutBitlen n (writeOut P s)))) ∨
    (∃ e, unpackOutput s = .error e ∧ execUnpack s = .next (raiseError e (dropOutBitlen (dropOut s)))) := by
  unfold execUnpack
  cases h : unpackOutput s with
  | ok r => exact .inl ⟨r.1, r.2, rfl, rfl⟩
  | error e => exact .inr ⟨e, rfl, rfl⟩

theorem execCompress_cases (s : State) :
    (s.params.capIn < s.inLen.toNat ∧
      execCompress s = .next (raiseError { kind := .inRange, info := s.inLen } (dropArtifact s))) ∨
    (s.inLen.toNat ≤ s.params.capIn ∧ ∃ e, compressOutput s = .error e ∧
      execCompress s = .next (raiseError e (dropArtifact (commitCompress s)))) ∨
    (s.inLen.toNat ≤ s.params.capIn ∧ ∃ A n, compressOutput s = .ok (A, n) ∧ execCompress s =
      .next (finish (writeHdrLen (serialize (count s.input)).length
        (writeOutBitlen n (writeOut A (commitCompress s)))))) := by
  rcases Nat.lt_or_ge s.params.capIn s.inLen.toNat with h | h
  · exact .inl ⟨h, by simp [execCompress, checkInLen_of_lt h]⟩
  · cases hc : compressOutput s with
    | ok r => exact .inr (.inr ⟨h, r.1, r.2, rfl, by simp [execCompress, checkInLen_of_le h, hc]⟩)
    | error e => exact .inr (.inl ⟨h, e, rfl, by simp [execCompress, checkInLen_of_le h, hc]⟩)

theorem execDecompress_cases (s : State) :
    (∃ e, decompressHeader s = .error e ∧ execDecompress s = .next (raiseError e (dropArtifact s))) ∨
    (∃ F H b e, decompressHeader s = .ok (F, H, b) ∧ decompressOutput s F b = .error e ∧
      execDecompress s = .next (raiseError e (dropArtifact (commitDecompress F s)))) ∨
    (∃ F H b D, decompressHeader s = .ok (F, H, b) ∧ decompressOutput s F b = .ok D ∧ execDecompress s =
      .next (finish (writeHdrLen H (writeOutBitlen b.length (writeOut D (commitDecompress F s)))))) := by
  unfold execDecompress
  cases h : decompressHeader s with
  | error e => exact .inl ⟨e, rfl, rfl⟩
  | ok r =>
    obtain ⟨F, H, b⟩ := r
    cases hd : decompressOutput s F b with
    | error e => exact .inr (.inl ⟨F, H, b, e, rfl, hd, by simp [hd]⟩)
    | ok D => exact .inr (.inr ⟨F, H, b, D, rfl, hd, by simp [hd]⟩)

/-! ## What a command writes fits OUT_MEM -/

theorem ErrorKind.code_ne_zero (k : ErrorKind) : k.code ≠ 0 := by cases k <;> decide

theorem ErrorKind.code_le_nine (k : ErrorKind) : k.code.toNat ≤ 9 := by cases k <;> decide

theorem encodeOutput_ok {s : State} {P : List Byte} {n : Nat} (h : encodeOutput s = .ok (P, n)) :
    ∃ b, encodeBits s.codeOf s.input 0 = .ok b ∧ P = pack b ∧ n = b.length ∧ P.length ≤ s.params.capOut := by
  obtain ⟨_, -, h⟩ := bind_ok h
  obtain ⟨_, -, h⟩ := bind_ok h
  obtain ⟨b, hb, h⟩ := bind_ok h
  obtain ⟨_, hf, h⟩ := bind_ok h
  cases h
  exact ⟨b, hb, rfl, rfl, checkFits_ok hf⟩

theorem decodeOutput_ok {s : State} {D : List Byte} {n : Nat} (h : decodeOutput s = .ok (D, n)) :
    ∃ T b, s.tree = some T ∧ unpack s.input 0 s.inLen = .ok b ∧ walk T b = .ok D ∧ n = b.length ∧
      D.length ≤ s.params.capOut := by
  obtain ⟨_, -, h⟩ := bind_ok h
  obtain ⟨T, hT, h⟩ := bind_ok h
  obtain ⟨b, hb, h⟩ := bind_ok h
  obtain ⟨D', hD, h⟩ := bind_ok h
  obtain ⟨_, hf, h⟩ := bind_ok h
  cases h
  refine ⟨T, b, ?_, hb, hD, rfl, checkFits_ok hf⟩
  unfold readTree at hT
  split at hT <;> simp_all

theorem packOutput_ok {s : State} {P : List Byte} (h : packOutput s = .ok P) :
    P = pack s.inputBits ∧ P.length ≤ s.params.capOut := by
  obtain ⟨_, -, h⟩ := bind_ok h
  obtain ⟨_, hf, h⟩ := bind_ok h
  cases h
  exact ⟨rfl, checkFits_ok hf⟩

theorem unpackOutput_ok {s : State} {P : List Byte} {n : Nat} (h : unpackOutput s = .ok (P, n)) :
    ∃ b, unpack s.input 0 s.inLen = .ok b ∧ P = alignedBytes b ∧ n = b.length ∧ P.length ≤ s.params.capOut := by
  obtain ⟨_, -, h⟩ := bind_ok h
  obtain ⟨b, hb, h⟩ := bind_ok h
  obtain ⟨_, hf, h⟩ := bind_ok h
  cases h
  exact ⟨b, hb, rfl, rfl, checkFits_ok hf⟩

theorem compressOutput_ok {s : State} {A : List Byte} {n : Nat} (h : compressOutput s = .ok (A, n)) :
    ∃ b, compressBits s.input = .ok b ∧ A = artifact (count s.input) b ∧ n = b.length ∧
      A.length ≤ s.params.capOut := by
  obtain ⟨b, hb, h⟩ := bind_ok h
  obtain ⟨_, hf, h⟩ := bind_ok h
  cases h
  exact ⟨b, hb, rfl, rfl, checkFits_ok hf⟩

theorem decompressOutput_ok {s : State} {F : FreqTable} {b : BitSeq} {D : List Byte}
    (h : decompressOutput s F b = .ok D) : walk (build F) b = .ok D ∧ D.length ≤ s.params.capOut := by
  obtain ⟨D', hD, h⟩ := bind_ok h
  obtain ⟨_, hf, h⟩ := bind_ok h
  cases h
  exact ⟨hD, checkFits_ok hf⟩

/-- The shape of every completion: finish or raiseError, on a state with the inputs of `s`. -/
theorem exec_shape (i : Instr) (s : State) :
    ∃ u, SameInputs s u ∧ (exec i s = .next (finish u) ∨ ∃ e, exec i s = .next (raiseError e u)) := by
  cases i with
  | nop => exact ⟨s, by simp [SameInputs], .inl rfl⟩
  | clear => exact ⟨_, by simp [SameInputs], .inl rfl⟩
  | build => exact ⟨_, by simp [SameInputs], .inl rfl⟩
  | count =>
    rcases execCount_cases s with ⟨-, h⟩ | ⟨-, h⟩
    · exact ⟨_, by simp [SameInputs], .inl h⟩
    · exact ⟨_, by simp [SameInputs], .inr ⟨_, h⟩⟩
  | derive =>
    rcases execDerive_cases s with ⟨T, -, h⟩ | ⟨-, h⟩
    · exact ⟨_, by simp [SameInputs], .inl h⟩
    · exact ⟨_, by simp [SameInputs], .inr ⟨_, h⟩⟩
  | serialize =>
    rcases execSerialize_cases s with ⟨-, h⟩ | ⟨-, h⟩
    · exact ⟨_, by simp [SameInputs], .inl h⟩
    · exact ⟨_, by simp [SameInputs], .inr ⟨_, h⟩⟩
  | parse =>
    rcases execParse_cases s with ⟨F, H, -, h⟩ | ⟨e, -, h⟩
    · exact ⟨_, by simp [SameInputs], .inl h⟩
    · exact ⟨_, by simp [SameInputs], .inr ⟨_, h⟩⟩
  | encode =>
    rcases execEncode_cases s with ⟨P, n, -, h⟩ | ⟨e, -, h⟩
    · exact ⟨_, by simp [SameInputs], .inl h⟩
    · exact ⟨_, by simp [SameInputs], .inr ⟨_, h⟩⟩
  | decode =>
    rcases execDecode_cases s with ⟨P, n, -, h⟩ | ⟨e, -, h⟩
    · exact ⟨_, by simp [SameInputs], .inl h⟩
    · exact ⟨_, by simp [SameInputs], .inr ⟨_, h⟩⟩
  | pack =>
    rcases execPack_cases s with ⟨P, -, h⟩ | ⟨e, -, h⟩
    · exact ⟨_, by simp [SameInputs], .inl h⟩
    · exact ⟨_, by simp [SameInputs], .inr ⟨_, h⟩⟩
  | unpack =>
    rcases execUnpack_cases s with ⟨P, n, -, h⟩ | ⟨e, -, h⟩
    · exact ⟨_, by simp [SameInputs], .inl h⟩
    · exact ⟨_, by simp [SameInputs], .inr ⟨_, h⟩⟩
  | compress =>
    rcases execCompress_cases s with ⟨-, h⟩ | ⟨-, e, -, h⟩ | ⟨-, A, n, -, h⟩
    · exact ⟨_, by simp [SameInputs, dropArtifact], .inr ⟨_, h⟩⟩
    · exact ⟨_, by simp [SameInputs, dropArtifact, commitCompress], .inr ⟨_, h⟩⟩
    · exact ⟨_, by simp [SameInputs, commitCompress], .inl h⟩
  | decompress =>
    rcases execDecompress_cases s with ⟨e, -, h⟩ | ⟨F, H, b, e, -, -, h⟩ | ⟨F, H, b, D, -, -, h⟩
    · exact ⟨_, by simp [SameInputs, dropArtifact], .inr ⟨_, h⟩⟩
    · exact ⟨_, by simp [SameInputs, dropArtifact, commitDecompress], .inr ⟨_, h⟩⟩
    · exact ⟨_, by simp [SameInputs, commitDecompress], .inl h⟩

end Sys2Proof.Machine
end

