-- ==== Sys2Proof/Laws/Memory.lean ====
section
/-! SUPPORT. The laws of memory: a read after a write, and that every memory operation keeps the canonical form. -/

namespace Sys2Proof.Machine

@[simp] theorem Memory.get?_nil (a : Nat) : Memory.get? [] a = none := rfl

/-- A read after a write: the written byte at its own offset, the byte before at any other. -/
theorem Memory.get?_set (m : Memory) (a c : Nat) (b : Byte) (h : Memory.wf m) :
    Memory.get? (Memory.set m a b) c = if c = a then some b else Memory.get? m c := by
  induction m with
  | nil => simp [Memory.set, Memory.get?, eq_comm]
  | cons x rest ih =>
    obtain ⟨k, v⟩ := x
    obtain ⟨hk, hr⟩ := List.pairwise_cons.1 h
    simp only [Memory.set]
    split
    · by_cases hc : c = a <;> simp [Memory.get?, hc, eq_comm]
      intro hac
      exact absurd hac.symm hc
    · split
      · subst_vars
        by_cases hc : c = k <;> simp [Memory.get?, hc, eq_comm]
      · simp only [Memory.get?, ih hr]
        by_cases hc : c = a
        · subst hc
          simp [show ¬ k = c by omega]
        · simp [hc]

theorem Memory.mem_set {m : Memory} {a : Nat} {b : Byte} {c : Host.Cell} (h : c ∈ Memory.set m a b) :
    c = (a, b) ∨ c ∈ m := by
  induction m with
  | nil => simpa [Memory.set] using h
  | cons x rest ih =>
    obtain ⟨k, v⟩ := x
    simp only [Memory.set] at h
    split at h
    · simpa using h
    · split at h
      · rcases List.mem_cons.1 h with h | h
        · exact .inl h
        · exact .inr (List.mem_cons_of_mem _ h)
      · rcases List.mem_cons.1 h with h | h
        · exact .inr (h ▸ List.mem_cons_self)
        · exact (ih h).imp id (List.mem_cons_of_mem _)

/-- A write keeps the canonical form. -/
theorem Memory.wf_set {m : Memory} (a : Nat) (b : Byte) (h : Memory.wf m) : Memory.wf (Memory.set m a b) := by
  induction m with
  | nil => simp [Memory.set, Memory.wf]
  | cons x rest ih =>
    obtain ⟨k, v⟩ := x
    obtain ⟨hk, hr⟩ := List.pairwise_cons.1 h
    simp only [Memory.set]
    split
    · rename_i hak
      refine List.pairwise_cons.2 ⟨fun c hc => ?_, h⟩
      rcases List.mem_cons.1 hc with rfl | hc
      · exact hak
      · exact Nat.lt_trans hak (hk c hc)
    · split
      · rename_i hak
        exact List.pairwise_cons.2 ⟨fun c hc => hak ▸ hk c hc, hr⟩
      · refine List.pairwise_cons.2 ⟨fun c hc => ?_, ih hr⟩
        rcases Memory.mem_set hc with rfl | hc
        · show k < a
          omega
        · exact hk c hc

theorem cellsFrom_fst (i : Nat) (B : List Byte) : (cellsFrom i B).map Prod.fst = List.range' i B.length := by
  induction B generalizing i with
  | nil => rfl
  | cons b rest ih => simp [cellsFrom, ih, List.range'_succ]

/-- An output's cells are in the canonical form. -/
theorem wf_cellsFrom (i : Nat) (B : List Byte) : Memory.wf (cellsFrom i B) := by
  have h : ((cellsFrom i B).map Prod.fst).Pairwise (· < ·) := by
    rw [cellsFrom_fst]
    exact List.pairwise_lt_range'
  exact List.pairwise_map.1 h

/-- The byte of an output at offset `a`. -/
theorem get?_cellsFrom (i a : Nat) (B : List Byte) :
    Memory.get? (cellsFrom i B) a = if i ≤ a then B[a - i]? else none := by
  induction B generalizing i with
  | nil => simp [cellsFrom]
  | cons b rest ih =>
    simp only [cellsFrom, Memory.get?, ih]
    by_cases h : i = a
    · simp [h]
    · by_cases h2 : i ≤ a
      · have h3 : a - i = (a - (i + 1)) + 1 := by omega
        simp [h, h2, show i + 1 ≤ a by omega, h3]
      · simp [h, h2, show ¬ i + 1 ≤ a by omega]

theorem wf_writeOut (B : List Byte) (s : State) : Memory.wf (writeOut B s).outMem := wf_cellsFrom 0 B

theorem wf_dropOut (s : State) : Memory.wf (dropOut s).outMem := List.Pairwise.nil

theorem wf_reset_memories : Memory.wf State.reset.inMem ∧ Memory.wf State.reset.outMem :=
  ⟨List.Pairwise.nil, List.Pairwise.nil⟩

@[simp] theorem get?_cellsFrom_zero (a : Nat) (B : List Byte) : Memory.get? (cellsFrom 0 B) a = B[a]? := by
  simp [get?_cellsFrom]

/-- One lane of an IN-window write changes IN_MEM only. -/
theorem writeInLane_eq (i : Nat) (b : Byte) (strobe : Bool) (s : State) :
    writeInLane i b strobe s = { s with inMem := (writeInLane i b strobe s).inMem } := by
  unfold writeInLane
  split <;> rfl

theorem wf_writeInLane {s : State} (i : Nat) (b : Byte) (strobe : Bool) (h : Memory.wf s.inMem) :
    Memory.wf (writeInLane i b strobe s).inMem := by
  unfold writeInLane
  split
  · exact Memory.wf_set _ _ h
  · exact h

theorem get?_writeInLane {s : State} (i c : Nat) (b : Byte) (strobe : Bool) (h : Memory.wf s.inMem) :
    Memory.get? (writeInLane i b strobe s).inMem c =
      if c = i ∧ strobe = true ∧ i < s.params.capIn then some b else Memory.get? s.inMem c := by
  unfold writeInLane
  by_cases h1 : strobe = true <;> by_cases h2 : i < s.params.capIn <;> simp [h1, h2, Memory.get?_set _ _ _ _ h]

theorem mem_writeInLane {s : State} {i : Nat} {b : Byte} {strobe : Bool} {c : Host.Cell}
    (h : c ∈ (writeInLane i b strobe s).inMem) : c.1 < s.params.capIn ∨ c ∈ s.inMem := by
  unfold writeInLane at h
  split at h
  · rename_i hc
    rcases Memory.mem_set h with rfl | h
    · simp only [Bool.and_eq_true, decide_eq_true_eq] at hc
      exact .inl hc.2
    · exact .inr h
  · exact .inr h

@[simp] theorem params_writeInLane (i : Nat) (b : Byte) (strobe : Bool) (s : State) :
    (writeInLane i b strobe s).params = s.params := by
  rw [writeInLane_eq]

/-- An IN-window write changes IN_MEM only. -/
theorem writeInWord_eq (i : Nat) (w : Word) (strb : BitVec 4) (s : State) :
    writeInWord i w strb s = { s with inMem := (writeInWord i w strb s).inMem } := by
  unfold writeInWord
  rw [writeInLane_eq (i + 3), writeInLane_eq (i + 2), writeInLane_eq (i + 1), writeInLane_eq i]

/-- An IN-window write keeps the canonical form of IN_MEM. -/
theorem wf_writeInWord {s : State} (i : Nat) (w : Word) (strb : BitVec 4) (h : Memory.wf s.inMem) :
    Memory.wf (writeInWord i w strb s).inMem :=
  wf_writeInLane _ _ _ (wf_writeInLane _ _ _ (wf_writeInLane _ _ _ (wf_writeInLane _ _ _ h)))

/-- An IN-window write adds no byte past CAP_IN. -/
theorem mem_writeInWord {s : State} {i : Nat} {w : Word} {strb : BitVec 4} {c : Host.Cell}
    (h : c ∈ (writeInWord i w strb s).inMem) : c.1 < s.params.capIn ∨ c ∈ s.inMem := by
  unfold writeInWord at h
  rcases mem_writeInLane h with h | h
  · exact .inl (by simpa using h)
  rcases mem_writeInLane h with h | h
  · exact .inl (by simpa using h)
  rcases mem_writeInLane h with h | h
  · exact .inl (by simpa using h)
  exact mem_writeInLane h

end Sys2Proof.Machine
end

