-- ==== Sys2Proof/Laws/PerInstr.lean ====
section
/-! SUPPORT. The families of statements made one command at a time. -/

namespace Sys2Proof.Laws.EncodedWord

/-- A command is well formed, its word has MBZ zero (R100 of 30_encoding.md), and the opcode map sends the word's OP
back to it (R101). -/
def Statement (i : Instr) : Prop :=
  i.wf = true ∧ mbzField (encode i) = 0 ∧ commandOfOp (opField (encode i)) = some i

theorem nop : Statement .nop := by unfold Statement; decide
theorem clear : Statement .clear := by unfold Statement; decide
theorem count : Statement .count := by unfold Statement; decide
theorem build : Statement .build := by unfold Statement; decide
theorem derive : Statement .derive := by unfold Statement; decide
theorem serialize : Statement .serialize := by unfold Statement; decide
theorem parse : Statement .parse := by unfold Statement; decide
theorem encode : Statement .encode := by unfold Statement; decide
theorem decode : Statement .decode := by unfold Statement; decide
theorem pack : Statement .pack := by unfold Statement; decide
theorem unpack : Statement .unpack := by unfold Statement; decide
theorem compress : Statement .compress := by unfold Statement; decide
theorem decompress : Statement .decompress := by unfold Statement; decide

end Sys2Proof.Laws.EncodedWord
end

