-- ==== Sys2Proof/Laws/Step.lean ====
section
/-! SUPPORT. What a step can do, said once: by turn, by the CORE's case, by the HOST's operation and by the target of a
write. -/

namespace Sys2Proof.Machine

open Host

/-- `s` with its next turn taken off the schedule. -/
def State.popTurn (s : State) : State := { s with sched := s.sched.tail }

/-- A step is its turn, taken with the schedule moved on. -/
theorem step_eq (s : State) : step s = takeTurn s.turn s.popTurn := by
  unfold step State.turn State.popTurn
  cases h : s.sched with
  | nil =>
    simp only [List.headD_nil, List.tail_nil]
    congr 1
    cases s
    simp_all
  | cons t rest => rfl

@[simp] theorem popTurn_eq_fields (s : State) : s.popTurn = { s with sched := s.sched.tail } := rfl

/-- What a step can do. -/
theorem step_cases {s t : State} (h : step s = .next t) :
    (s.turn = .core ∧ s.rst = false ∧ coreStep { s with sched := s.sched.tail } = .next t) ∨
    (s.turn = .host ∧ s.rst = false ∧ t = hostStep { s with sched := s.sched.tail }) ∨
    (s.turn = .rstPin true ∧ t = { s with sched := s.sched.tail, rst := true }) ∨
    (s.turn = .rstPin false ∧ s.rst = true ∧ t = resetAction { s with sched := s.sched.tail, rst := false }) ∨
    t = { s with sched := s.sched.tail } := by
  rw [step_eq] at h
  cases hr : s.rst <;> cases ht : s.turn with
  | host => simp_all [takeTurn]
  | core => simp_all [takeTurn]
  | rstPin b => cases b <;> simp_all [takeTurn]

/-- What the CORE's step can do. -/
theorem coreStep_cases {s t : State} (h : coreStep s = .next t) :
    (s.seq = .init ∧ t = finishInit s) ∨ (s.seq = .idle ∧ t = s) ∨
    (∃ w i, s.seq = .busy w ∧ decode w = .ok i ∧ exec i s = .next t) ∨
    (∃ w e, s.seq = .busy w ∧ decode w = .error e ∧ t = completeIllegal w s) := by
  unfold coreStep at h
  cases hs : s.seq with
  | init => simp_all
  | idle => simp_all
  | busy w =>
    cases hd : decode w with
    | ok i => simp_all
    | error e => simp_all

theorem turn_of_sched {s : State} {t : Turn} {more : List Turn} (h : s.sched = t :: more) : s.turn = t := by
  simp [State.turn, h]

/-- With no turn scheduled, HOST moves on an IDLE block. -/
theorem turn_of_idle {s : State} (h : s.sched = []) (hs : s.seq = .idle) : s.turn = .host := by
  simp [State.turn, h, defaultTurn, State.isBusy, hs]

/-- With no turn scheduled, CORE moves in BUSY and INIT. -/
theorem turn_of_busy {s : State} (h : s.sched = []) (hs : s.isBusy = true) : s.turn = .core := by
  simp [State.turn, h, defaultTurn, hs]

/-- What a read returns does not depend on the transactions and turns still to come. -/
@[simp] theorem hostRead_queues (s : State) (script : List HostOp) (sched : List Turn) (off : BitVec 26) :
    hostRead { s with script := script, sched := sched } off = hostRead s off := rfl

/-- The HOST's step of a read. -/
theorem hostStep_rd {s : State} {addr : Nat} {rest : List HostOp} (h : s.script = .rd addr :: rest) :
    hostStep s = readStep (Params.offsetOf s.params addr) { s with script := rest } := by
  simp [hostStep, h]

/-- The HOST's step of a write. -/
theorem hostStep_wr {s : State} {addr : Nat} {w : Word} {strb : BitVec 4} {rest : List HostOp}
    (h : s.script = .wr addr w strb :: rest) :
    hostStep s = hostWrite (Params.offsetOf s.params addr) w strb { s with script := rest } := by
  simp [hostStep, h]

/-- What the HOST's step can do. -/
theorem hostStep_cases (s : State) :
    (s.script = [] ∧ hostStep s = s) ∨
    (∃ off script, hostStep s = readStep off { s with script := script }) ∨
    (∃ addr w strb rest, s.script = .wr addr w strb :: rest ∧
      hostStep s = hostWrite (Params.offsetOf s.params addr) w strb { s with script := rest }) := by
  unfold hostStep
  cases hs : s.script with
  | nil => exact .inl ⟨rfl, rfl⟩
  | cons o rest =>
    cases o with
    | rd addr => exact .inr (.inl ⟨_, _, rfl⟩)
    | wr addr w strb => exact .inr (.inr ⟨addr, w, strb, rest, rfl, rfl⟩)
    | wait =>
      refine .inr (.inl ⟨0x00C, if s.isBusy then s.script else rest, ?_⟩)
      cases s.isBusy <;> simp

/-- The control register that an offset names. -/
theorem targetOf_csr (off : BitVec 26) (r : Csr) (h : targetOf off = .csr r) :
    off.toNat < 0x1000 ∧ csrOfIndex (off.toNat / 4) = some r := by
  unfold targetOf at h
  simp only at h
  split at h
  · rename_i hlt
    rw [show off.toNat / 4 * 4 / 4 = off.toNat / 4 by omega] at h
    split at h
    · rename_i r' hr
      cases h
      exact ⟨by omega, hr⟩
    · cases h
  · repeat' split at h
    all_goals cases h

/-- The target of the word of a control register. -/
theorem targetOf_of_index (off : BitVec 26) (j : Nat) (r : Csr) (hj : off.toNat / 4 = j) (h : csrOfIndex j = some r) :
    targetOf off = .csr r := by
  have hlt : j < 14 := by
    rcases Nat.lt_or_ge j 14 with h14 | h14
    · exact h14
    · unfold csrOfIndex at h
      split at h <;> first | omega | cases h
  unfold targetOf
  simp only
  rw [if_pos (by omega), show off.toNat / 4 * 4 / 4 = j by omega, h]

/-- What a host write can do. -/
theorem hostWrite_cases (off : BitVec 26) (w : Word) (strb : BitVec 4) (s : State) :
    hostWrite off w strb s = s ∨
    (off.toNat / 4 = 2 ∧ s.isBusy = true ∧ hostWrite off w strb s = { s with drop := true }) ∨
    (off.toNat / 4 = 2 ∧ s.isBusy = false ∧ hostWrite off w strb s = accept w s) ∨
    (off.toNat / 4 = 1 ∧ strb.getLsbD 0 = true ∧ w.getLsbD 1 = true ∧ hostWrite off w strb s = resetAction s) ∨
    (off.toNat / 4 = 1 ∧ strb.getLsbD 0 = true ∧ w.getLsbD 1 = false ∧
      hostWrite off w strb s = { s with irqEn := w.getLsbD 0 }) ∨
    (off.toNat / 4 = 3 ∧ strb.getLsbD 0 = true ∧ hostWrite off w strb s = clearStatus w s) ∨
    (s.isBusy = false ∧ hostWrite off w strb s = { s with inLen := mergeLanes s.inLen w strb }) ∨
    (s.isBusy = false ∧ hostWrite off w strb s = { s with inBitlen := mergeLanes s.inBitlen w strb }) ∨
    (∃ sym, s.isBusy = false ∧ hostWrite off w strb s =
      writeFreq (s.freq.set sym (mergeLanes (s.freq.get sym) w strb)) s) ∨
    (s.isBusy = false ∧ 0x1000000 ≤ off.toNat ∧ off.toNat < 0x2000000 ∧
      ∃ i, hostWrite off w strb s = writeInWord i w strb s) := by
  have index : ∀ r, targetOf off = .csr r → csrOfIndex (off.toNat / 4) = some r := fun r h => (targetOf_csr off r h).2
  have number : ∀ j r, csrOfIndex j = some r → (r = .cmd → j = 2) ∧ (r = .ctrl → j = 1) ∧ (r = .status → j = 3) := by
    intro j r h
    unfold csrOfIndex at h
    split at h <;> cases h <;> simp
  cases ht : targetOf off with
  | csr r =>
    obtain ⟨hcmd, hctrl, hstatus⟩ := number _ r (index r ht)
    cases r with
    | cmd =>
      cases hb : s.isBusy with
      | true => exact .inr (.inl ⟨hcmd rfl, rfl, by simp [hostWrite, ht, writeCmd, hb]⟩)
      | false => exact .inr (.inr (.inl ⟨hcmd rfl, rfl, by simp [hostWrite, ht, writeCmd, hb]⟩))
    | ctrl =>
      cases hs : strb.getLsbD 0 with
      | false => exact .inl (by simp only [hostWrite, ht, hs]; rfl)
      | true =>
        cases hw : w.getLsbD 1 with
        | true =>
          exact .inr (.inr (.inr (.inl ⟨hctrl rfl, rfl, rfl, by
            simp only [hostWrite, ht, hs, writeCtrl, hw, if_true]⟩)))
        | false =>
          exact .inr (.inr (.inr (.inr (.inl ⟨hctrl rfl, rfl, rfl, by
            simp only [hostWrite, ht, hs, writeCtrl, hw, if_true]; rfl⟩))))
    | status =>
      cases hs : strb.getLsbD 0 with
      | false => exact .inl (by simp only [hostWrite, ht, hs]; rfl)
      | true =>
        exact .inr (.inr (.inr (.inr (.inr (.inl ⟨hstatus rfl, rfl, by simp only [hostWrite, ht, hs, if_true]⟩)))))
    | inLen =>
      cases hb : s.isBusy with
      | true => exact .inl (by simp [hostWrite, ht, hb])
      | false =>
        exact .inr (.inr (.inr (.inr (.inr (.inr (.inl ⟨rfl, by simp [hostWrite, ht, hb]⟩))))))
    | inBitlen =>
      cases hb : s.isBusy with
      | true => exact .inl (by simp [hostWrite, ht, hb])
      | false =>
        exact .inr (.inr (.inr (.inr (.inr (.inr (.inr (.inl ⟨rfl, by simp [hostWrite, ht, hb]⟩)))))))
    | id => exact .inl (by simp [hostWrite, ht])
    | errCode => exact .inl (by simp [hostWrite, ht])
    | errInfo => exact .inl (by simp [hostWrite, ht])
    | outLen => exact .inl (by simp [hostWrite, ht])
    | outBitlen => exact .inl (by simp [hostWrite, ht])
    | hdrLen => exact .inl (by simp [hostWrite, ht])
    | symCount => exact .inl (by simp [hostWrite, ht])
    | capIn => exact .inl (by simp [hostWrite, ht])
    | capOut => exact .inl (by simp [hostWrite, ht])
  | freq sym =>
    cases hb : s.isBusy with
    | true => exact .inl (by simp [hostWrite, ht, hb])
    | false =>
      by_cases hs : strb = 0
      · exact .inl (by simp [hostWrite, ht, hb, writeFreqWord, hs])
      · exact .inr (.inr (.inr (.inr (.inr (.inr (.inr (.inr (.inl ⟨sym, rfl, by
          simp only [hostWrite, ht, hb, writeFreqWord, Bool.false_eq_true, if_false, if_neg hs]⟩))))))))
  | inWord i =>
    cases hb : s.isBusy with
    | true => exact .inl (by simp [hostWrite, ht, hb])
    | false =>
      refine .inr (.inr (.inr (.inr (.inr (.inr (.inr (.inr (.inr ⟨rfl, ?_⟩))))))))
      have hr : 0x1000000 ≤ off.toNat ∧ off.toNat < 0x2000000 := by
        unfold targetOf at ht
        simp only at ht
        repeat' split at ht
        all_goals first
          | (simp only [reduceCtorEq] at ht)
          | (constructor <;> omega)
      exact ⟨hr.1, hr.2, i, by simp [hostWrite, ht, hb]⟩
  | code _ _ => exact .inl (by simp [hostWrite, ht])
  | outWord _ => exact .inl (by simp [hostWrite, ht])
  | unmapped => exact .inl (by simp [hostWrite, ht])

theorem isBusy_eq_false_iff (s : State) : s.isBusy = false ↔ s.seq = .idle := by
  unfold State.isBusy
  cases s.seq <;> simp

theorem isBusy_eq_true_iff (s : State) : s.isBusy = true ↔ s.seq ≠ .idle := by
  unfold State.isBusy
  cases s.seq <;> simp

end Sys2Proof.Machine
end

