-- ==== Sys2Proof/Laws/TreeBuilder.lean ====
section
/-! SUPPORT. The turns of the tree builder's loop (R163). -/

namespace Sys2Proof.Machine

/-- One merge: the two first entries leave the queue and their merge is inserted. -/
@[simp] theorem mergeLoop_merge (fuel next : Nat) (a b : QEntry) (rest : List QEntry) :
    mergeLoop (fuel + 1) (a :: b :: rest) next =
      mergeLoop fuel (insertEntry (mergeEntries a b next) rest) (next + 1) := rfl

/-- The loop ends on a queue of one entry. -/
@[simp] theorem mergeLoop_single (fuel next : Nat) (e : QEntry) : mergeLoop fuel [e] next = [e] := by
  cases fuel <;> rfl

@[simp] theorem length_insertEntry (e : QEntry) (Q : List QEntry) : (insertEntry e Q).length = Q.length + 1 := by
  induction Q with
  | nil => rfl
  | cons x Q ih =>
    unfold insertEntry
    split <;> simp [ih]

/-- A merge takes one entry off the queue, so with fuel enough the loop ends with one. -/
theorem length_mergeLoop (fuel next : Nat) (Q : List QEntry) (hQ : Q ≠ []) (hf : Q.length ≤ fuel + 1) :
    (mergeLoop fuel Q next).length = 1 := by
  induction fuel generalizing Q next with
  | zero =>
    match Q, hQ, hf with
    | [e], _, _ => rfl
  | succ fuel ih =>
    match Q, hQ, hf with
    | [e], _, _ => rfl
    | a :: b :: rest, _, hf =>
      rw [mergeLoop_merge]
      exact ih _ _ (List.ne_nil_of_length_pos (by simp)) (by simp at hf ⊢; omega)

/-- `build` of two or more present symbols is the node the loop ends with. -/
theorem build_of_two (F : FreqTable) (h : 2 ≤ (present F).length) :
    ∃ e, mergeLoop (present F).length (leafQueue (present F)) (present F).length = [e] ∧ build F = .root e.node := by
  have hq : (leafQueue (present F)).length = (present F).length := by
    have : ∀ (l : List QEntry) (Q : List QEntry),
        (l.foldl (fun Q e => insertEntry e Q) Q).length = Q.length + l.length := by
      intro l
      induction l with
      | nil => simp
      | cons e l ih => intro Q; simp [ih]; omega
    simp [leafQueue, this]
  obtain ⟨e, he⟩ := List.length_eq_one_iff.1 (length_mergeLoop (present F).length (present F).length _
    (List.ne_nil_of_length_pos (by omega)) (by omega : (leafQueue (present F)).length ≤ (present F).length + 1))
  refine ⟨e, he, ?_⟩
  unfold build
  match hp : present F, h with
  | a :: b :: rest, _ =>
    rw [hp] at he
    simp only [he]

end Sys2Proof.Machine
end

