-- ==== Sys2Proof/Tests/Slice0.lean ====
section
/-! SUPPORT. Tests: the checks of WellFormed refuse ill-formed terms, words written out from R100 and R101 decode to
their commands, single steps give the values of 95_test_vectors.md, and every statement with hypotheses has a state that
meets them. A theorem's comment names the vector or rule its expected values come from. -/

namespace Sys2Proof.Tests

open Sys2Proof Sys2Proof.Machine Sys2Proof.Spec Host

-- One declaration at a time: many kernel checks that wait for one another would each hold a thread's stack.
set_option Elab.async false

/-! ## Helpers -/

/-- The outcome is a next state of which `P` holds. -/
def nextHas (o : Outcome State Fault Refusal) (P : State → Bool) : Bool :=
  match o with
  | .next t => P t
  | _ => false

theorem exists_next {o : Outcome State Fault Refusal} {P : State → Prop} [∀ t, Decidable (P t)]
    (h : nextHas o (fun t => decide (P t)) = true) : ∃ t, o = .next t ∧ P t := by
  cases o with
  | next t => exact ⟨t, rfl, of_decide_eq_true h⟩
  | fault r => exact absurd h (by simp [nextHas])
  | refused r => exact absurd h (by simp [nextHas])

/-- Bytes by their numbers. -/
def bytes (l : List Nat) : List Byte := l.map (BitVec.ofNat 8)

/-- The common start of 95_test_vectors.md: after INIT, on the suggested instance. -/
def idle : State := { State.reset with seq := .idle }

/-- `LOADIN`'s end state (R105). -/
def loaded (l : List Nat) : State := { idle with inMem := cellsFrom 0 (bytes l), inLen := BitVec.ofNat 32 l.length }

/-- A table from its present symbols and counts. -/
def table (l : List (Nat × Nat)) : FreqTable :=
  l.foldl (fun F e => F.set (BitVec.ofNat 8 e.1) (BitVec.ofNat 32 e.2)) (Table.fill 0)

/-- `{a:3, b:2}`, T1 of 95_test_vectors.md. -/
def tableAB : FreqTable := table [(0x61, 3), (0x62, 2)]

/-- T1's tree: `ROOT(Inner(5, left = Leaf(0x61, 3), right = Leaf(0x62, 2)))` (R168). -/
def treeAB : HuffTree := .root (.inner 5 (.leaf 0x61 3) (.leaf 0x62 2))

/-- T3's tree: a `01`, b `00`, c `1`. -/
def treeABC : HuffTree := .root (.inner 3 (.inner 2 (.leaf 0x62 1) (.leaf 0x61 1)) (.leaf 0x63 1))

/-- T10's tree: the one symbol a. -/
def treeA : HuffTree := .root (.single 4 (.leaf 0x61 4))

/-- T1's codes: a `0`, b `1`. -/
def codesAB : CodeTable := ((Table.fill []).set 0x61 [false]).set 0x62 [true]

/-- `loaded l` with T1's tables, as after BUILD and DERIVE. -/
def withAB (l : List Nat) : State :=
  { loaded l with freq := tableAB, tree := some treeAB, code := .written codesAB, codeValid := true }

/-- `s` on an instance with `CAP_IN = capIn` and `CAP_OUT = capOut`. -/
def onInstance (capIn capOut : Nat) (s : State) : State := { s with params := { capIn, capOut, base := 0 } }

/-- The artifact K1 of `aaabb`. -/
def artifactAB : List Nat := [0x00, 0x02, 0x61, 0, 0, 0, 3, 0x62, 0, 0, 0, 2, 0x03, 0x18]

/-- The bytes of OUT_MEM that are specified. -/
def outBytes (t : State) : List Byte := t.outMem.map Prod.snd

/-! ## WellFormed and the canonical memory refuse ill-formed terms (R6) -/

theorem test_wf_suggested_instance : Params.suggested.wf := by decide
theorem test_wf_refuses_capIn_zero : ¬ (Params.wf { capIn := 0, capOut := 3, base := 0 }) := by decide
theorem test_wf_refuses_capIn_above : ¬ (Params.wf { capIn := 2 ^ 24 + 1, capOut := 3, base := 0 }) := by decide
theorem test_wf_refuses_capOut_two : ¬ (Params.wf { capIn := 1, capOut := 2, base := 0 }) := by decide
theorem test_wf_refuses_capOut_above : ¬ (Params.wf { capIn := 1, capOut := 2 ^ 24 + 1, base := 0 }) := by decide
theorem test_wf_refuses_base_unaligned : ¬ (Params.wf { capIn := 1, capOut := 3, base := 2 ^ 25 }) := by decide
theorem test_wf_bounds_are_allowed : Params.wf { capIn := 2 ^ 24, capOut := 2 ^ 24, base := 2 ^ 26 } := by decide
theorem test_memory_refuses_repeated_offset : ¬ Memory.wf [(3, 0), (3, 1)] := by decide
theorem test_memory_refuses_falling_offsets : ¬ Memory.wf [(3, 0), (2, 1)] := by decide

/-! ## Words written out from R100 (OP in bits 3:0, MBZ in bits 31:4) and R101 -/

theorem test_decodes_nop : decode 0b0000_0000_0000_0000_0000_0000_0000_0000#32 = .ok .nop := by decide
theorem test_decodes_clear : decode 0b0000_0000_0000_0000_0000_0000_0000_0001#32 = .ok .clear := by decide
theorem test_decodes_count : decode 0b0000_0000_0000_0000_0000_0000_0000_0010#32 = .ok .count := by decide
theorem test_decodes_build : decode 0b0000_0000_0000_0000_0000_0000_0000_0011#32 = .ok .build := by decide
theorem test_decodes_derive : decode 0b0000_0000_0000_0000_0000_0000_0000_0100#32 = .ok .derive := by decide
theorem test_decodes_serialize : decode 0b0000_0000_0000_0000_0000_0000_0000_0101#32 = .ok .serialize := by decide
theorem test_decodes_parse : decode 0b0000_0000_0000_0000_0000_0000_0000_0110#32 = .ok .parse := by decide
theorem test_decodes_encode : decode 0b0000_0000_0000_0000_0000_0000_0000_0111#32 = .ok .encode := by decide
theorem test_decodes_decode : decode 0b0000_0000_0000_0000_0000_0000_0000_1000#32 = .ok .decode := by decide
theorem test_decodes_pack : decode 0b0000_0000_0000_0000_0000_0000_0000_1001#32 = .ok .pack := by decide
theorem test_decodes_unpack : decode 0b0000_0000_0000_0000_0000_0000_0000_1010#32 = .ok .unpack := by decide
theorem test_decodes_compress : decode 0b0000_0000_0000_0000_0000_0000_0000_1011#32 = .ok .compress := by decide
theorem test_decodes_decompress : decode 0b0000_0000_0000_0000_0000_0000_0000_1100#32 = .ok .decompress := by decide
theorem test_refuses_reserved_op : decode 0b0000_0000_0000_0000_0000_0000_0000_1101#32 = .error (.illegalWord 0xD) := by
  decide
theorem test_refuses_nonzero_mbz : decode 0b1000_0000_0000_0000_0000_0000_0000_1011#32 = .error (.illegalWord 0x8000000B) := by
  decide

/-- A table row's word is latched after reset and the next step runs it (H1: NOP ends with DONE). -/
theorem test_withFetchWord_runs_the_word :
    ∃ t, step (State.reset.withFetchWord 32 0) = .next t ∧ t.done = true ∧ t.seq = .idle :=
  exists_next (by decide +kernel)

/-! ## The script (R104, R105) -/

/-- Lines 2 to 5 of Program 1. -/
theorem test_script_loadin_and_cmd :
    Script.loadIn 0 (bytes [0x61, 0x61, 0x61, 0x62, 0x62]) ++ Script.cmd 0 .compress =
      [.wr 0x1000000 0x62616161 0xF, .wr 0x1000004 0x00000062 0x1, .wr 0x018 5 0xF, .wr 0x008 0xB 0xF] := by decide

/-- LOADBITS of `00011`: its one byte is 0x18 (P4). -/
theorem test_script_loadbits : Script.loadBits 0 [false, false, false, true, true] =
    [.wr 0x1000000 0x18 0x1, .wr 0x018 1 0xF, .wr 0x01C 5 0xF] := by decide

/-! ## Single steps -/

/-- H1. -/
theorem test_nop_status : ∃ t, exec .nop idle = .next t ∧ hostRead t 0x00C = 0x00000002 := exists_next (by decide +kernel)

/-- F2. -/
theorem test_clear_empties : ∃ t, exec .clear (withAB []) = .next t ∧ symCount t.freq = 0 ∧ t.tree = none ∧ t.codeValid = false :=
  exists_next (by decide +kernel)

/-- F1. -/
theorem test_count_aaabb : ∃ t, exec .count (loaded [0x61, 0x61, 0x61, 0x62, 0x62]) = .next t ∧ t.freq = tableAB :=
  exists_next (by decide +kernel)

/-- F4. -/
theorem test_count_in_range : ∃ t, exec .count { idle with inLen := 0x00010001 } = .next t ∧
    t.errCode = 6 ∧ t.errInfo = 0x00010001 := exists_next (by decide +kernel)

/-- R168's example. -/
theorem test_build_aaabb : ∃ t, exec .build { idle with freq := tableAB } = .next t ∧ t.tree = some treeAB :=
  exists_next (by decide +kernel)

/-- The trace of R170. -/
theorem test_build_abracadabra : build (table [(0x61, 5), (0x62, 2), (0x63, 1), (0x64, 1), (0x72, 2)]) =
    .root (.inner 11 (.inner 6 (.inner 4 (.leaf 0x72 2) (.leaf 0x62 2)) (.inner 2 (.leaf 0x64 1) (.leaf 0x63 1)))
      (.leaf 0x61 5)) := by decide +kernel

/-- T1, read through the CODE window as in R184's example. -/
theorem test_derive_code_window : ∃ t, exec .derive { idle with tree := some treeAB } = .next t ∧
    hostRead t 0x5840 = 1 ∧ hostRead t 0x5844 = 0 ∧ hostRead t 0x5880 = 1 ∧ hostRead t 0x5884 = 0x80000000 :=
  exists_next (by decide +kernel)

/-- T14. -/
theorem test_derive_not_ready : ∃ t, exec .derive idle = .next t ∧ t.errCode = 8 ∧ t.errInfo = 0 :=
  exists_next (by decide +kernel)

/-- S5: the count is big-endian. -/
theorem test_serialize_big_endian : ∃ t, exec .serialize { idle with freq := table [(0x41, 0x01020304)] } = .next t ∧
    outBytes t = bytes [0x00, 0x01, 0x41, 0x01, 0x02, 0x03, 0x04] ∧ t.outLen = 7 := exists_next (by decide +kernel)

/-- S6. -/
theorem test_parse_aaabb : ∃ t, exec .parse (loaded artifactAB) = .next t ∧ t.freq = tableAB ∧ t.hdrLen = 12 :=
  exists_next (by decide +kernel)

/-- S16: the order of an entry is checked before its count. -/
theorem test_parse_order_before_count : ∃ t,
    exec .parse (loaded [0x00, 0x02, 0x61, 0, 0, 0, 1, 0x61, 0, 0, 0, 0]) = .next t ∧ t.errCode = 2 ∧ t.errInfo = 7 :=
  exists_next (by decide +kernel)

/-- C1. -/
theorem test_encode_aaabb : ∃ t, exec .encode (withAB [0x61, 0x61, 0x61, 0x62, 0x62]) = .next t ∧
    outBytes t = bytes [0x03, 0x18] ∧ t.outBitlen = 5 := exists_next (by decide +kernel)

/-- C3. -/
theorem test_encode_unmapped : ∃ t, exec .encode (withAB [0x61, 0x62, 0x7A]) = .next t ∧
    t.errCode = 9 ∧ t.errInfo = 2 := exists_next (by decide +kernel)

/-- C8. -/
theorem test_decode_aaabb : ∃ t, exec .decode (withAB [0x03, 0x18]) = .next t ∧
    outBytes t = bytes [0x61, 0x61, 0x61, 0x62, 0x62] ∧ t.outBitlen = 5 := exists_next (by decide +kernel)

/-- C11: a walk that ends inside the tree. -/
theorem test_decode_ends_inside : ∃ t, exec .decode { loaded [0x07, 0x00] with tree := some treeABC } = .next t ∧
    t.errCode = 4 ∧ t.errInfo = 1 := exists_next (by decide +kernel)

/-- P9: bits past IN_BITLEN are ignored and zero-filled. -/
theorem test_pack_ignores_tail : ∃ t, exec .pack { loaded [0xFF] with inBitlen := 3 } = .next t ∧
    outBytes t = bytes [0x05, 0xE0] ∧ t.outBitlen = 3 := exists_next (by decide +kernel)

/-- U5: nonzero padding bits are ignored. -/
theorem test_unpack_ignores_padding : ∃ t, exec .unpack (loaded [0x07, 0xFF]) = .next t ∧
    outBytes t = bytes [0x80] ∧ t.outBitlen = 1 := exists_next (by decide +kernel)

/-- U4: a padding count above the payload's bits. -/
theorem test_unpack_padding_above_bits : ∃ t, exec .unpack (loaded [0x03]) = .next t ∧ t.errCode = 2 ∧ t.errInfo = 0 :=
  exists_next (by decide +kernel)

/-- K1. -/
theorem test_compress_aaabb : ∃ t, exec .compress (loaded [0x61, 0x61, 0x61, 0x62, 0x62]) = .next t ∧
    outBytes t = bytes artifactAB ∧ t.outBitlen = 5 ∧ t.hdrLen = 12 := exists_next (by decide +kernel)

/-- K16. -/
theorem test_decompress_aaabb : ∃ t, exec .decompress (loaded artifactAB) = .next t ∧
    outBytes t = bytes [0x61, 0x61, 0x61, 0x62, 0x62] ∧ t.tree = some treeAB ∧ t.codeValid = false :=
  exists_next (by decide +kernel)

/-- K21: the padding byte's offset is H. -/
theorem test_decompress_padding_offset : ∃ t, exec .decompress (loaded [0x00, 0x01, 0x61, 0, 0, 0, 3, 3]) = .next t ∧
    t.errCode = 2 ∧ t.errInfo = 7 := exists_next (by decide +kernel)

/-- H4: a word with an MBZ bit set is not COUNT. -/
theorem test_illegal_word_status : ∃ t, coreStep (accept 0x12 idle) = .next t ∧ hostRead t 0x00C = 0x00000206 ∧
    t.errInfo = 0x12 := exists_next (by decide +kernel)

/-- H15: the low offset bits are ignored, and only the strobed bytes are written. -/
theorem test_in_window_lanes : (hostWrite 0x1000002 0x44332211 0b0011 idle).inMem = [(0, 0x11), (1, 0x22)] := by
  decide +kernel

/-- F8. -/
theorem test_freq_window_strobe : hostRead (hostWrite 0x1184 0x12345678 0b0001 idle) 0x1184 = 0x00000078 := by
  decide +kernel

/-- R31 with R72: IN_LEN is kept as written, byte lanes by strobe. -/
theorem test_in_len_strobe : (hostWrite 0x018 0x11223344 0b0010 { idle with inLen := 0xAABBCCDD }).inLen = 0xAABB33DD := by
  decide +kernel

/-- R4 of section 2.8: a soft reset abandons the command and ignores IRQ_EN. -/
theorem test_soft_reset_aborts : (hostWrite 0x004 3 0xF (accept 0xB idle)).seq = .init ∧
    (hostWrite 0x004 3 0xF (accept 0xB idle)).irqEn = false := by decide +kernel

/-! ## Every statement's hypotheses are met: by a concrete state and operands, each clause at a bound of its range -/

/-- A block that runs `w`, accepted on `s`. -/
def running (w : Word) (s : State) : State := accept w s

/-- The end state of Program 1 of 95_test_vectors.md: COMPRESS of `aaabb` has completed. -/
def afterCompress : State :=
  { withAB [0x61, 0x61, 0x61, 0x62, 0x62] with
    outMem := cellsFrom 0 (bytes artifactAB), outLen := 14, outBitlen := 5, hdrLen := 12, done := true, lastOp := 0xB }

theorem afterCompress_inv : Invariant afterCompress where
  params_wf := by decide
  inMem_wf := by decide
  inMem_inside := by decide
  outMem_offsets := by decide
  outLen_inside := by decide
  code_fresh := fun _ => ⟨treeAB, rfl, congrArg CodeStore.written (by decide +kernel)⟩
  tree_fresh := by
    have h : treeAB = build afterCompress.freq := by decide +kernel
    intro T hT
    cases hT
    exact h
  init_no_tree := by decide
  busy_flags := by decide
  errCode_range := by decide
  err_has_code := by decide

/-- The same block with the next COMPRESS latched. -/
def compressAgain : State := running 0xB afterCompress

theorem compressAgain_inv : Invariant compressAgain where
  params_wf := afterCompress_inv.params_wf
  inMem_wf := afterCompress_inv.inMem_wf
  inMem_inside := afterCompress_inv.inMem_inside
  outMem_offsets := afterCompress_inv.outMem_offsets
  outLen_inside := afterCompress_inv.outLen_inside
  code_fresh := afterCompress_inv.code_fresh
  tree_fresh := afterCompress_inv.tree_fresh
  init_no_tree := by decide
  busy_flags := by decide
  errCode_range := by decide
  err_has_code := by decide

theorem witness_illegal_words :
    decode 0x10 = .error (.illegalWord 0x10) ∧ decode 0x80000000 = .error (.illegalWord 0x80000000) ∧
    decode 0xD = .error (.illegalWord 0xD) ∧ decode 0xF = .error (.illegalWord 0xF) ∧
    (running 0x10 idle).seq = .busy 0x10 ∧ (0x00B#26).toNat / 4 = 2 ∧ (0x008#26).toNat / 4 = 2 ∧ idle.seq = .idle ∧
    State.reset.seq ≠ .idle ∧ (running 0x10 idle).seq ≠ .idle := by decide

theorem witness_step_runs_command :
    (compressAgain.rst = false ∧ compressAgain.seq = .busy 0xB ∧ decode 0xB#32 = .ok .compress ∧
      compressAgain.sched = []) ∧
    (let s := State.reset.withFetchWord 32 0xC
     s.rst = false ∧ s.seq = .busy 0xC ∧ decode 0xC#32 = .ok .decompress ∧ s.sched = .core :: []) := by decide

theorem witness_busy_completes :
    compressAgain.rst = false ∧ compressAgain.sched = [] ∧ compressAgain.seq = .busy 0xB := by decide

theorem witness_step_keeps_invariant : Invariant compressAgain ∧ ∃ t, step compressAgain = .next t ∧ t.outLen = 14 :=
  ⟨compressAgain_inv, exists_next (by decide +kernel)⟩

theorem witness_soft_reset :
    (0x004#26).toNat / 4 = 1 ∧ (0x007#26).toNat / 4 = 1 ∧ (0b0001#4).getLsbD 0 = true ∧ (0b1110#4).getLsbD 0 = false ∧
    (0x2#32).getLsbD 1 = true ∧ (0x1#32).getLsbD 1 = false := by decide

theorem witness_init_step : State.reset.seq = .init ∧ State.reset.rst = false ∧ State.reset.sched = [] := by decide

theorem witness_reset_pin :
    (∀ t ∈ [Turn.host, .core, .rstPin false], { compressAgain with rst := true, sched := [t] }.rst = true ∧
      { compressAgain with rst := true, sched := [t] }.sched = t :: []) := by decide

theorem witness_cmd_write_while_idle :
    (0x008#26).toNat / 4 = 2 ∧ (0x00B#26).toNat / 4 = 2 ∧ afterCompress.seq = .idle := by decide

theorem witness_host_writes_while_busy :
    compressAgain.isBusy = true ∧ State.reset.isBusy = true ∧ compressAgain.done = false ∧ compressAgain.err = false ∧
    (0x008#26).toNat / 4 = 2 ∧ (0x004#26).toNat / 4 = 1 ∧ (0x00C#26).toNat / 4 = 3 ∧ (0x018#26).toNat / 4 = 6 ∧
    (0x000#26).toNat / 4 = 0 ∧ (0x3FFFFFF#26).toNat / 4 = 0xFFFFFF ∧ (0x1#32).getLsbD 1 = false ∧
    (0x3#32).getLsbD 1 = true ∧ (0x1#4).getLsbD 0 = true ∧ (0xE#4).getLsbD 0 = false := by decide

theorem witness_host_read :
    let s : State := { afterCompress with script := [.rd 0x2000000], sched := [.host] }
    s.rst = false ∧ s.script = .rd 0x2000000 :: [] ∧ s.sched = .host :: [] := by decide

theorem witness_host_transaction_by_default :
    (let s : State := { afterCompress with script := [.rd 0x2000000] }
     s.rst = false ∧ s.script = .rd 0x2000000 :: [] ∧ s.sched = [] ∧ s.seq = .idle) ∧
    (let s : State := { afterCompress with script := [.wr 0x1000004 0x99 0x1] }
     s.rst = false ∧ s.script = .wr 0x1000004 0x99 0x1 :: [] ∧ s.sched = [] ∧ s.seq = .idle) := by decide

theorem witness_host_write :
    let s : State := { compressAgain with script := [.wr 0x008 0x2 0xF], sched := [.host] }
    s.rst = false ∧ s.script = .wr 0x008 0x2 0xF :: [] ∧ s.sched = .host :: [] := by decide

theorem witness_wait :
    let s : State := { compressAgain with script := [.wait], sched := [.host] }
    s.rst = false ∧ s.script = .wait :: [] ∧ s.sched = .host :: [] := by decide

/-- The bounds of every range of R70, and the targets there. -/
theorem test_address_map_bounds :
    targetOf 0x034 = .csr .capOut ∧ targetOf 0x038 = .unmapped ∧ targetOf 0xFFF = .unmapped ∧
    targetOf 0x1000 = .freq 0 ∧ targetOf 0x13FC = .freq 0xFF ∧ targetOf 0x1400 = .unmapped ∧
    targetOf 0x3FFF = .unmapped ∧ targetOf 0x4000 = .code 0 0 ∧ targetOf 0x7FFC = .code 0xFF 15 ∧
    targetOf 0x8000 = .unmapped ∧ targetOf 0xFFFFFF = .unmapped ∧ targetOf 0x1000000 = .inWord 0 ∧
    targetOf 0x1FFFFFC = .inWord 0xFFFFFC ∧ targetOf 0x2000000 = .outWord 0 ∧ targetOf 0x2FFFFFC = .outWord 0xFFFFFC ∧
    targetOf 0x3000000 = .unmapped ∧ targetOf 0x3FFFFFF = .unmapped := by decide

/-- The bounds of the hypotheses on offsets, words and lanes of the map and the windows. -/
theorem witness_offset_bounds :
    (0x3FFFFFF : Nat) < 2 ^ 26 ∧ 0x038 ≤ (0x038#26).toNat ∧ (0xFFF#26).toNat < 0x1000 ∧ 0x1400 ≤ (0x1400#26).toNat ∧
    (0x3FFF#26).toNat < 0x4000 ∧ 0x8000 ≤ (0x8000#26).toNat ∧ (0xFFFFFF#26).toNat < 0x1000000 ∧
    0x3000000 ≤ (0x3000000#26).toNat ∧ 15 < 16 ∧ (0x3FFFFF : Nat) < 2 ^ 22 ∧ 3 < 4 := by decide

theorem witness_unmapped_window_bytes :
    (let s := onInstance 2 3 idle
     (0x1000000#26).toNat = 0x1000000 + 4 * 0 ∧ s.params.capIn ≤ 4 * 0 + 2 ∧ Memory.wf s.inMem ∧
     (0x2000000#26).toNat = 0x2000000 + 4 * 0 ∧ s.params.capOut ≤ 4 * 0 + 3) ∧
    (let s := onInstance (2 ^ 24 - 1) (2 ^ 24 - 1) idle
     (0x1FFFFFC#26).toNat = 0x1000000 + 4 * 0x3FFFFF ∧ s.params.capIn ≤ 4 * 0x3FFFFF + 3 ∧
     (0x2FFFFFC#26).toNat = 0x2000000 + 4 * 0x3FFFFF ∧ s.params.capOut ≤ 4 * 0x3FFFFF + 3) ∧
    0x2000000 ≤ (0x2000000#26).toNat ∧ 0x2000000 ≤ (0x3FFFFFF#26).toNat := by decide

theorem witness_windows :
    afterCompress.isBusy = false ∧ compressAgain.isBusy = true ∧ Memory.wf afterCompress.inMem ∧
    Memory.wf compressAgain.inMem ∧ (0x3FFFFF : Nat) < 2 ^ 22 ∧ (3 : Nat) < 4 ∧ (0xF#4) ≠ 0 := by decide

theorem witness_code_window :
    afterCompress.isBusy = false ∧ (afterCompress.codeOf 0x61).length ≤ 255 ∧ (0 : Nat) < 16 ∧ (15 : Nat) < 16 ∧
    (1 : Nat) ≤ 8 ∧ (9 : Nat) ≤ 15 := by decide +kernel

theorem witness_control_registers : afterCompress.isBusy = false ∧
    [0x000#26, 0x010, 0x014, 0x020, 0x024, 0x028, 0x02C, 0x030, 0x037].map (·.toNat / 4) =
      [0, 4, 5, 8, 9, 10, 11, 12, 13] ∧
    [0x018#26, 0x01B, 0x01C, 0x01F].map (·.toNat / 4) = [6, 6, 7, 7] ∧ (3 : Nat) < 4 := by decide

theorem witness_exact_reads_while_busy : Invariant compressAgain ∧ compressAgain.isBusy = true :=
  ⟨compressAgain_inv, by decide⟩

theorem witness_status_layout :
    (0x00C#26).toNat / 4 = 3 ∧ (0x00F#26).toNat / 4 = 3 ∧ afterCompress.isBusy = false ∧ (0x1#4).getLsbD 0 = true ∧
    (0xE#4).getLsbD 0 = false := by decide

theorem witness_done_and_irq_rise :
    (∃ t, step { running 0 idle with irqEn := true } = .next t ∧ t.done = true ∧ t.irq = true) ∧
    ({ running 0 idle with irqEn := true }.done = false ∧ { running 0 idle with irqEn := true }.irq = false) ∧
    (let s : State := { afterCompress with script := [.wr 0x004 1 0xF], sched := [.host] }
     s.irq = false ∧ ∃ t, step s = .next t ∧ t.irq = true) :=
  ⟨exists_next (by decide +kernel), by decide, by decide, exists_next (by decide +kernel)⟩

theorem witness_drop_rises_and_falls :
    (let s : State := { compressAgain with script := [.wr 0x008 1 0xF], sched := [.host] }
     s.drop = false ∧ ∃ t, step s = .next t ∧ t.drop = true) ∧
    (let s : State := { afterCompress with drop := true, script := [.wr 0x00C 8 0x1], sched := [.host] }
     s.drop = true ∧ ∃ t, step s = .next t ∧ t.drop = false) ∧
    (let s : State := { afterCompress with drop := true, rst := true, sched := [.rstPin false] }
     s.drop = true ∧ ∃ t, step s = .next t ∧ t.drop = false) ∧
    (let s : State := { State.reset with drop := true, script := [.wr 0x004 2 0x1], sched := [.host] }
     s.drop = true ∧ ∃ t, step s = .next t ∧ t.drop = false) :=
  ⟨⟨by decide, exists_next (by decide +kernel)⟩, ⟨by decide, exists_next (by decide +kernel)⟩,
    ⟨by decide, exists_next (by decide +kernel)⟩, ⟨by decide, exists_next (by decide +kernel)⟩⟩

theorem witness_err_without_done :
    let s : State := { afterCompress with err := true, errCode := 7, script := [.wr 0x00C 2 0xF], sched := [.host] }
    (s.err = true → s.done = true) ∧ ∃ t, step s = .next t ∧ t.err = true ∧ t.done = false :=
  ⟨by decide, exists_next (by decide +kernel)⟩

theorem witness_code_changes :
    (∃ t, step (running 0x4 { idle with tree := some treeAB }) = .next t ∧
      t.code ≠ (running 0x4 { idle with tree := some treeAB }).code) ∧
    (∃ t, step { afterCompress with rst := true, sched := [.rstPin false] } = .next t ∧ t.code ≠ afterCompress.code) :=
  ⟨exists_next (by decide +kernel), exists_next (by decide +kernel)⟩

theorem witness_memories_change :
    (∃ t, step { afterCompress with script := [.wr 0x1000004 0x99 0xF], sched := [.host] } = .next t ∧
      t.inMem ≠ afterCompress.inMem) ∧
    (∃ t, step (running 0x9 afterCompress) = .next t ∧ t.outMem ≠ afterCompress.outMem) ∧
    (∃ t, step { afterCompress with rst := true, sched := [.rstPin false] } = .next t ∧
      t.inMem ≠ afterCompress.inMem ∧ t.outMem ≠ afterCompress.outMem) :=
  ⟨exists_next (by decide +kernel), exists_next (by decide +kernel), exists_next (by decide +kernel)⟩

theorem witness_nop : (0x008#26).toNat / 4 = 2 ∧ (0x00B#26).toNat / 4 = 2 ∧ idle.seq = .idle ∧
    State.reset.seq ≠ .idle := by decide

theorem witness_count :
    (let s := onInstance 5 3 (loaded [0x61, 0x61, 0x61, 0x62, 0x62]); s.inLen.toNat ≤ s.params.capIn) ∧
    (let s := onInstance 4 3 (loaded [0x61, 0x61, 0x61, 0x62, 0x62]); s.params.capIn < s.inLen.toNat) := by decide

theorem witness_build :
    (∀ x, (Table.fill 0 : FreqTable).get x = 0) ∧
    (let F : FreqTable := (Table.fill 0).set 0x61 4
     F.get 0x61 ≠ 0 ∧ ∀ y, y ≠ 0x61 → F.get y = 0) := by
  refine ⟨fun x => Table.get_fill 0 x, by decide +kernel, fun y hy => ?_⟩
  rw [Table.get_set_other _ _ _ _ (Ne.symm hy), Table.get_fill]

theorem witness_derive : (withAB []).tree = some treeAB ∧ idle.tree = none ∧
    { idle with tree := some HuffTree.empty }.tree = some .empty := by decide

theorem witness_serialize :
    (let s := onInstance 1 12 (withAB []); 2 + 5 * (symbols s.freq).length ≤ s.params.capOut) ∧
    (let s := onInstance 1 11 (withAB []); s.params.capOut < 2 + 5 * (symbols s.freq).length) := by decide +kernel

theorem witness_parse :
    (let s := onInstance 13 3 (loaded artifactAB); s.params.capIn < s.inLen.toNat) ∧
    (let s := onInstance 14 3 (loaded artifactAB)
     s.inLen.toNat ≤ s.params.capIn ∧ parse (s.inBytes s.inLen.toNat) = .ok (tableAB, 12)) ∧
    (let s := loaded [0x00, 0x01, 0x61, 0, 0, 0, 0]
     s.inLen.toNat ≤ s.params.capIn ∧
       parse (s.inBytes s.inLen.toNat) = .error { kind := .construction, info := 3 }) := by decide +kernel

theorem witness_encode :
    (let s := onInstance 1 3 (withAB [0x61, 0x62]); s.params.capIn < s.inLen.toNat) ∧
    (let s := loaded [0x61]; s.inLen.toNat ≤ s.params.capIn ∧ s.codeValid = false) ∧
    (let s := withAB [0x61, 0x62, 0x7A]
     s.inLen.toNat ≤ s.params.capIn ∧ s.codeValid = true ∧ s.codeOf (s.inByte 2) = [] ∧
       ∀ j, j < 2 → s.codeOf (s.inByte j) ≠ []) ∧
    (∀ c ∈ [1, 2], let s := onInstance 5 c (withAB [0x61, 0x61, 0x61, 0x62, 0x62])
     let b := ((List.range s.inLen.toNat).map fun i => s.codeOf (s.inByte i)).flatten
     s.inLen.toNat ≤ s.params.capIn ∧ s.codeValid = true ∧
       (∀ i, i < s.inLen.toNat → s.codeOf (s.inByte i) ≠ []) ∧ 1 + ceil8 b.length = 2 ∧ s.params.capOut = c) := by
  decide +kernel

theorem witness_decode :
    (let s := onInstance 1 3 (withAB [0x03, 0x18]); s.params.capIn < s.inLen.toNat) ∧
    (let s := loaded [0x03, 0x18]; s.inLen.toNat ≤ s.params.capIn ∧ s.tree = none) ∧
    ((withAB []).inLen.toNat = 0 ∧ (withAB []).tree = some treeAB) ∧
    (let s := withAB [0x08, 0x00]; 1 ≤ s.inLen.toNat ∧ 7 < (s.inByte 0).toNat) ∧
    (let s := withAB [0x01]; 1 ≤ s.inLen.toNat ∧ 8 * (s.inLen.toNat - 1) < (s.inByte 0).toNat) ∧
    (let s := withAB [0x07, 0x00]
     1 ≤ s.inLen.toNat ∧ (s.inByte 0).toNat ≤ 7 ∧ (s.inByte 0).toNat ≤ 8 * (s.inLen.toNat - 1) ∧
     walk treeABC [false] = .error { kind := .malformedStream, info := 1 }) ∧
    walk treeAB [false, false, false, true, true] = .ok (bytes [0x61, 0x61, 0x61, 0x62, 0x62]) ∧
    (onInstance 2 4 (withAB [])).params.capOut < 5 ∧ 5 ≤ (onInstance 2 5 (withAB [])).params.capOut := by
  decide +kernel

theorem witness_pack :
    (let s := onInstance 1 3 { idle with inBitlen := 9 }; 8 * s.params.capIn < s.inBitlen.toNat) ∧
    (let s := onInstance 3 3 { idle with inBitlen := 24 }
     s.inBitlen.toNat ≤ 8 * s.params.capIn ∧ s.params.capOut < 1 + ceil8 s.inBitlen.toNat) ∧
    (let s := onInstance 3 4 { idle with inBitlen := 24 }
     s.inBitlen.toNat ≤ 8 * s.params.capIn ∧ 1 + ceil8 s.inBitlen.toNat ≤ s.params.capOut) := by decide

theorem witness_unpack :
    (let s := onInstance 1 3 (loaded [0x07, 0xFF]); s.params.capIn < s.inLen.toNat) ∧
    (loaded []).inLen.toNat = 0 ∧
    (let s := loaded [0x08]; 1 ≤ s.inLen.toNat ∧ 7 < (s.inByte 0).toNat) ∧
    (let s := loaded [0x03]; 1 ≤ s.inLen.toNat ∧ 8 * (s.inLen.toNat - 1) < (s.inByte 0).toNat) ∧
    (∀ c ∈ [3, 4], let s := onInstance 5 c (loaded [0x00, 1, 2, 3, 4])
     s.inLen.toNat ≤ s.params.capIn ∧ 1 ≤ s.inLen.toNat ∧ (s.inByte 0).toNat ≤ 7 ∧
       (s.inByte 0).toNat ≤ 8 * (s.inLen.toNat - 1) ∧
       ceil8 ((bitsOfBytes ((s.inBytes s.inLen.toNat).drop 1)).take (8 * (s.inLen.toNat - 1) - (s.inByte 0).toNat)).length = 4 ∧
       s.params.capOut = c) := by decide +kernel

/-- K1 needs 14 bytes: CAP_OUT 14 holds it and 13 does not. -/
theorem witness_compress :
    (let s := onInstance 4 14 (loaded [0x61, 0x61, 0x61, 0x62, 0x62]); s.params.capIn < s.inLen.toNat) ∧
    (∀ c ∈ [13, 14], let s := onInstance 5 c (loaded [0x61, 0x61, 0x61, 0x62, 0x62])
     let X := s.inBytes s.inLen.toNat
     s.inLen.toNat ≤ s.params.capIn ∧ s.params.capOut = c ∧
       3 + 5 * (symbols (count X)).length + ceil8 (X.map (derive (build (count X))).get).flatten.length = 14) := by
  decide +kernel

theorem witness_decompress :
    (let s := onInstance 13 5 (loaded artifactAB); s.params.capIn < s.inLen.toNat) ∧
    (let s := loaded [0x00]; parse (s.inBytes s.inLen.toNat) = .error { kind := .truncatedInput, info := 1 }) ∧
    (let s := loaded (artifactAB.take 12); parse (s.inBytes s.inLen.toNat) = .ok (tableAB, s.inLen.toNat)) ∧
    (let s := loaded (artifactAB.take 12 ++ [8, 0])
     parse (s.inBytes s.inLen.toNat) = .ok (tableAB, 12) ∧ 12 < s.inLen.toNat ∧ 7 < (s.inByte 12).toNat) ∧
    (∀ c ∈ [4, 5], let s := onInstance 14 c (loaded artifactAB)
     s.inLen.toNat ≤ s.params.capIn ∧ parse (s.inBytes s.inLen.toNat) = .ok (tableAB, 12) ∧ 12 < s.inLen.toNat ∧
       (s.inByte 12).toNat ≤ 7 ∧ (s.inByte 12).toNat ≤ 8 * (s.inLen.toNat - 12 - 1) ∧
       walk (build tableAB) [false, false, false, true, true] = .ok (bytes [0x61, 0x61, 0x61, 0x62, 0x62]) ∧
       s.params.capOut = c) ∧
    walk (build (table [(0x61, 1), (0x62, 1), (0x63, 1)])) [false] = .error { kind := .malformedStream, info := 1 } := by
  decide +kernel

/-- A completion with success, for the frames of every command. -/
theorem witness_frames_success :
    ∀ i ∈ [Instr.nop, .clear, .count, .build, .derive, .serialize, .pack], nextHas (exec i (withAB [0x00, 0x00])) (! ·.err) = true := by
  decide +kernel

theorem witness_frames_success_of_inputs :
    nextHas (exec .parse (withAB artifactAB)) (! ·.err) = true ∧ nextHas (exec .encode (withAB [0x61])) (! ·.err) = true ∧
    nextHas (exec .decode (withAB [0x03, 0x18])) (! ·.err) = true ∧ nextHas (exec .unpack (withAB [0x07, 0xFF])) (! ·.err) = true ∧
    nextHas (exec .compress (withAB [0x61])) (! ·.err) = true ∧ nextHas (exec .decompress (withAB artifactAB)) (! ·.err) = true := by
  decide +kernel

/-- An error completion of every command that has one, with ERR 0 before it. -/
theorem witness_failures :
    (∀ i ∈ [Instr.count, .parse, .encode, .decode, .unpack, .compress, .decompress],
      nextHas (exec i { idle with inLen := 0x00010001 }) (fun t => t.err && (t.errCode == 6)) = true) ∧
    nextHas (exec .derive idle) (fun t => t.err && (t.errCode == 8)) = true ∧
    nextHas (exec .serialize (onInstance 1 3 (withAB []))) (fun t => t.err && (t.errCode == 7)) = true ∧
    nextHas (exec .pack { idle with inBitlen := 0x00080001 }) (fun t => t.err && (t.errCode == 6)) = true ∧
    nextHas (exec .decompress (onInstance 14 4 (loaded artifactAB))) (fun t => t.err && (t.errCode == 7)) = true ∧
    idle.err = false := by decide +kernel

theorem witness_queue_insertion :
    let Q : List QEntry := [{ w := 1, seq := 2, node := .leaf 2 1 }, { w := 2, seq := 0, node := .leaf 0 2 }]
    let e : QEntry := { w := 2, seq := 1, node := .leaf 1 2 }
    (∀ x ∈ Q, x.seq ≠ e.seq) ∧ Q.Pairwise (fun a b => a.before b = true) := by decide

theorem witness_built_tree : 2 ≤ (symbols tableAB).length ∧ build tableAB = treeAB ∧
    symbols (table [(0x61, 4)]) = [0x61] ∧ symbols (table []) = [] := by decide +kernel

theorem witness_derive_paths :
    let n : Node := .inner 5 (.leaf 0x61 3) (.leaf 0x62 2)
    n.follow [true] = some (.leaf 0x62 2) ∧
    ∀ p q x v w, n.follow p = some (.leaf x v) → n.follow q = some (.leaf x w) → p = q := by
  refine ⟨rfl, ?_⟩
  have path : ∀ p x v, (Node.inner 5 (.leaf 0x61 3) (.leaf 0x62 2)).follow p = some (.leaf x v) →
      p = [false] ∧ x = 0x61 ∨ p = [true] ∧ x = 0x62 := by
    intro p x v h
    match p with
    | [] => simp [Node.follow] at h
    | [false] => simp_all [Node.follow, Node.child]
    | [true] => simp_all [Node.follow, Node.child]
    | false :: _ :: _ => simp [Node.follow, Node.child] at h
    | true :: _ :: _ => simp [Node.follow, Node.child] at h
  intro p q x v w hp hq
  rcases path p x v hp with ⟨rfl, rfl⟩ | ⟨rfl, rfl⟩ <;> rcases path q _ w hq with ⟨rfl, h⟩ | ⟨rfl, h⟩ <;>
    first | rfl | exact absurd h (by decide)

theorem witness_derived_codes :
    tableAB.get 0x61 ≠ 0 ∧ tableAB.get 0x62 ≠ 0 ∧ (0x61 : Byte) ≠ 0x62 ∧ 2 ≤ (symbols tableAB).length ∧
    symbols (table [(0x61, 4)]) = [0x61] := by decide +kernel

theorem witness_unpack_ok :
    unpack (bytes [0x03, 0x18]) 0 2 = .ok [false, false, false, true, true] ∧ unpack (bytes [0x07, 0xFF]) 0 2 = .ok [true] := by
  decide

/-- Each clause of `parse`, at the bound of its range (S9 to S16). -/
theorem witness_parse_clauses :
    (bytes [0x00]).length < 2 ∧ (bytes [0x01, 0x01]).length = 2 ∧ 256 < 0x01 * 2 ^ 8 + 0x01 ∧
    (bytes [0x00, 0x01, 0x61, 0, 0, 0]).length < 2 + 5 * 1 ∧ (bytes [0x00, 0x01, 0x61, 0, 0, 0, 0]).length = 2 + 5 * 1 ∧
    (let B := bytes [0x00, 0x02, 0x61, 0, 0, 0, 1, 0x61, 0, 0, 0, 1]
     2 + 5 * 2 ≤ B.length ∧ B.getD 7 0 ≤ B.getD 2 0) ∧
    (let B := bytes [0x00, 0x02, 0x61, 0, 0, 0, 1, 0x62, 0, 0, 0, 0]
     2 + 5 * 2 ≤ B.length ∧ ¬ B.getD 7 0 ≤ B.getD 2 0 ∧ B.getD 11 0 = 0) ∧
    (let B := bytes artifactAB
     2 + 5 * 2 ≤ B.length ∧ ¬ B.getD 7 0 ≤ B.getD 2 0 ∧ B.getD 6 0 = 3 ∧ B.getD 11 0 = 2) := by decide

/-- A walk that succeeds, one that finds no node and one that ends inside the tree, on a tree whose root is no leaf. -/
theorem witness_walk :
    walk treeABC [false, true, false, false, true] = .ok (bytes [0x61, 0x62, 0x63]) ∧
    walk treeA [false, true] = .error { kind := .malformedStream, info := 1 } ∧
    walk treeABC [false] = .error { kind := .malformedStream, info := 1 } ∧
    (∀ x w, Node.single 4 (.leaf 0x61 4) ≠ .leaf x w) := by
  refine ⟨by decide, by decide, by decide, fun x w h => by cases h⟩

theorem witness_encoded_length : (bytes [0x61, 0x62]).length ≤ 2 ^ 24 := by decide

/-- The round trip's premises, on K1: its artifact, copied into another block's IN_MEM. -/
theorem witness_round_trip :
    let s := onInstance 14 14 (loaded [0x61, 0x61, 0x61, 0x62, 0x62])
    let r := onInstance 14 14 (loaded artifactAB)
    s.params.wf ∧ s.inLen.toNat ≤ s.params.capIn ∧ s.err = false ∧ s.inLen.toNat ≤ s.params.capOut ∧
    r.params = s.params ∧ ∃ t, exec .compress s = .next t ∧ t.err = false ∧ r.inLen = t.outLen ∧
      t.outLen.toNat ≤ s.params.capIn ∧ ∀ a, a < t.outLen.toNat → Memory.get? r.inMem a = Memory.get? t.outMem a :=
  ⟨by decide, by decide, by decide, by decide, by decide, exists_next (by decide +kernel)⟩

/-- Two blocks with one input and other histories. -/
theorem witness_no_history :
    let s := loaded [0x61, 0x61, 0x61, 0x62, 0x62]
    let r := { withAB [0x61, 0x61, 0x61, 0x62, 0x62] with outMem := [(0, 1)], outLen := 1, draws := 7 }
    r.params = s.params ∧ r.inLen = s.inLen ∧ s.inLen.toNat ≤ s.params.capIn ∧
    (∀ a, a < s.inLen.toNat → ∃ b, Memory.get? s.inMem a = some b ∧ Memory.get? r.inMem a = some b) ∧
    s.err = false ∧ s.errCode = 0 ∧ s.errInfo = 0 ∧ r.err = false ∧ r.errCode = 0 ∧ r.errInfo = 0 ∧
    (∃ t, exec .compress s = .next t ∧ t.err = false) ∧ ∃ u, exec .compress r = .next u ∧ u.err = false := by
  refine ⟨by decide, by decide, by decide, ?_, by decide, by decide, by decide, by decide, by decide, by decide,
    exists_next (by decide +kernel), exists_next (by decide +kernel)⟩
  intro a ha
  have : a < 5 := ha
  refine ⟨(bytes [0x61, 0x61, 0x61, 0x62, 0x62])[a]'this, ?_, ?_⟩ <;>
    exact (get?_cellsFrom_zero a _).trans (List.getElem?_eq_getElem _)

end Sys2Proof.Tests
end

section
/-! The HOST's bus by target: which target an aligned word has, what a read and a write of it do, and the statements
of the memory windows (R73, R74, R79 of 20_memory.md). -/

namespace Sys2Proof.Machine

/-! ## The target of a word -/

/-- An offset's target is the target of its word. -/
theorem targetOf_congr {off off' : BitVec 26} (h : off.toNat / 4 = off'.toNat / 4) : targetOf off = targetOf off' := by
  unfold targetOf
  rw [h]

theorem toNat_clearLowBits_div_four (off : BitVec 26) : (off &&& ~~~3#26).toNat / 4 = off.toNat / 4 :=
  calc (off &&& ~~~3#26).toNat / 4
    _ = (off.toNat &&& (2 ^ 26 - 4)) / 2 ^ 2 := rfl
    _ = off.toNat / 4 &&& (2 ^ 24 - 1) := Nat.and_div_two_pow
    _ = off.toNat / 4 % 2 ^ 24 := Nat.and_two_pow_sub_one_eq_mod _ 24
    _ = off.toNat / 4 := Nat.mod_eq_of_lt (by have := off.isLt; omega)

/-- The target of every byte of a FREQ-window word (R79). -/
theorem targetOf_freq {off : BitVec 26} {x : Byte} (h : off.toNat / 4 = 0x400 + x.toNat) : targetOf off = .freq x := by
  have hx := x.isLt
  have hsym : (off.toNat / 4 * 4 - 0x1000) / 4 = x.toNat := by omega
  unfold targetOf
  simp only
  rw [if_neg (by omega), if_pos (by omega), hsym, BitVec.ofNat_toNat, BitVec.setWidth_eq]

/-- The target of every byte of an IN-window word (R77). -/
theorem targetOf_inWord {off : BitVec 26} {j : Nat} (hj : j < 2 ^ 22) (h : off.toNat / 4 = 0x400000 + j) :
    targetOf off = .inWord (4 * j) := by
  have hbyte : off.toNat / 4 * 4 - 0x1000000 = 4 * j := by omega
  unfold targetOf
  simp only
  rw [if_neg (by omega), if_neg (by omega), if_neg (by omega), if_neg (by omega), if_neg (by omega), if_pos (by omega),
    hbyte]

/-- The target of every byte of an OUT-window word (R78). -/
theorem targetOf_outWord {off : BitVec 26} {j : Nat} (hj : j < 2 ^ 22) (h : off.toNat / 4 = 0x800000 + j) :
    targetOf off = .outWord (4 * j) := by
  have hbyte : off.toNat / 4 * 4 - 0x2000000 = 4 * j := by omega
  unfold targetOf
  simp only
  rw [if_neg (by omega), if_neg (by omega), if_neg (by omega), if_neg (by omega), if_neg (by omega), if_neg (by omega),
    if_pos (by omega), hbyte]

/-! ## Reads and writes by target -/

/-- A read depends on its offset through the target only. -/
theorem hostRead_congr {off off' : BitVec 26} (s : State) (h : targetOf off = targetOf off') :
    hostRead s off = hostRead s off' := by
  unfold hostRead
  rw [h]

/-- A write depends on its offset through the target only. -/
theorem hostWrite_congr {off off' : BitVec 26} (w : Word) (strb : BitVec 4) (s : State)
    (h : targetOf off = targetOf off') : hostWrite off w strb s = hostWrite off' w strb s := by
  unfold hostWrite
  rw [h]

theorem hostRead_of_inWord {off : BitVec 26} {i : Nat} (s : State) (h : targetOf off = .inWord i) :
    hostRead s off = wordOfLanes (inWindowByte s i) (inWindowByte s (i + 1)) (inWindowByte s (i + 2))
      (inWindowByte s (i + 3)) := by
  simp only [hostRead, h]

theorem hostRead_of_outWord {off : BitVec 26} {i : Nat} (s : State) (h : targetOf off = .outWord i) :
    hostRead s off = wordOfLanes (outWindowByte s i) (outWindowByte s (i + 1)) (outWindowByte s (i + 2))
      (outWindowByte s (i + 3)) := by
  simp only [hostRead, h]

theorem hostRead_of_freq {off : BitVec 26} {x : Byte} (s : State) (h : targetOf off = .freq x) :
    hostRead s off = hidden s (s.freq.get x) := by
  simp only [hostRead, h]

theorem hostWrite_of_freq {off : BitVec 26} {x : Byte} (w : Word) (strb : BitVec 4) (s : State)
    (h : targetOf off = .freq x) : hostWrite off w strb s = if s.isBusy then s else writeFreqWord x w strb s := by
  simp only [hostWrite, h]

theorem hidden_of_idle {s : State} (h : s.isBusy = false) (v : Word) : hidden s v = v := by simp [hidden, h]

/-! ## The windows' bytes and words -/

/-- The number of a word made of four bytes, the first the lowest (R74). -/
theorem toNat_wordOfLanes (b0 b1 b2 b3 : Byte) : (wordOfLanes b0 b1 b2 b3).toNat =
    b0.toNat + b1.toNat * 2 ^ 8 + b2.toNat * 2 ^ 16 + b3.toNat * 2 ^ 24 := by
  have append (n : Nat) (hi : BitVec n) (lo : Byte) : (hi ++ lo).toNat = hi.toNat * 2 ^ 8 + lo.toNat := by
    rw [BitVec.toNat_append, ← Nat.shiftLeft_add_eq_or_of_lt lo.isLt, Nat.shiftLeft_eq]
  simp only [wordOfLanes, append]
  omega

theorem toNat_inWindowByte (s : State) (i : Nat) :
    (inWindowByte s i).toNat = if i < s.params.capIn then (s.inByte i).toNat else 0 := by
  unfold inWindowByte
  split <;> rfl

theorem toNat_outWindowByte_of_idle {s : State} (h : s.isBusy = false) (i : Nat) :
    (outWindowByte s i).toNat = if i < s.params.capOut then (s.outByte i).toNat else 0 := by
  unfold outWindowByte
  split <;> simp [h]

/-- Any strobe of a FREQ-window write merges the strobed lanes and invalidates TREE and CODE (R79). -/
theorem writeFreqWord_of_strobe {strb : BitVec 4} (h : strb ≠ 0) (x : Byte) (w : Word) (s : State) :
    writeFreqWord x w strb s = writeFreq (s.freq.set x (mergeLanes (s.freq.get x) w strb)) s := if_neg h

@[simp] theorem writeFreqWord_zero (x : Byte) (w : Word) (s : State) : writeFreqWord x w 0#4 s = s := if_pos rfl

/-! ## The statements -/

/-- Settles O17: an offset and its aligned word have one target, and both transactions go by the target. -/
theorem lowOffsetBitsAreIgnored : Obligations.LowOffsetBitsAreIgnored := by
  intro s off w strb
  have htarget : targetOf off = targetOf (off &&& ~~~3#26) := targetOf_congr (toNat_clearLowBits_div_four off).symm
  exact ⟨hostRead_congr s htarget, hostWrite_congr w strb s htarget⟩

/-- Settles O20: a window's word has the window's four bytes as its lanes. -/
theorem memoryWindowLanesAreLittleEndian : Obligations.MemoryWindowLanesAreLittleEndian := by
  intro s j hj
  refine ⟨?inWindow, fun hidle => ?outWindow⟩
  case inWindow =>
    have htarget : targetOf (BitVec.ofNat 26 (0x1000000 + 4 * j)) = .inWord (4 * j) :=
      targetOf_inWord hj (by rw [BitVec.toNat_ofNat]; omega)
    simp only [hostRead_of_inWord s htarget, toNat_wordOfLanes, toNat_inWindowByte]
  case outWindow =>
    have htarget : targetOf (BitVec.ofNat 26 (0x2000000 + 4 * j)) = .outWord (4 * j) :=
      targetOf_outWord hj (by rw [BitVec.toNat_ofNat]; omega)
    simp only [hostRead_of_outWord s htarget, toNat_wordOfLanes, toNat_outWindowByte_of_idle hidle]

/-- Settles O22: while IDLE a strobed write is `writeFreq` of the table with the merged entry. -/
theorem freqWindowReadsAndWritesTheTable : Obligations.FreqWindowReadsAndWritesTheTable := by
  intro s x w strb off t
  have htarget : targetOf off = .freq x := targetOf_freq (by have := x.isLt; rw [BitVec.toNat_ofNat]; omega)
  have hwrite : t = if s.isBusy then s else writeFreqWord x w strb s := hostWrite_of_freq w strb s htarget
  refine ⟨fun hidle => ?read, fun hbusy => ?busy, fun hidle hstrb => ?noStrobe, fun hidle hstrb => ?strobed⟩
  case read => rw [hostRead_of_freq s htarget, hidden_of_idle hidle]
  case busy => rw [hwrite, if_pos hbusy]
  case noStrobe => simp [hwrite, hstrb]
  case strobed =>
    have ht : t = writeFreq (s.freq.set x (mergeLanes (s.freq.get x) w strb)) s := by
      rw [hwrite, if_neg (by simp [hidle]), writeFreqWord_of_strobe hstrb]
    rw [ht]
    refine ⟨rfl, fun y hy => Table.get_set_other _ _ _ _ (Ne.symm hy), fun L hL => ?_⟩
    rw [freq_writeFreq, Table.get_set_same]
    exact lane_mergeLanes _ _ _ L hL

end Sys2Proof.Machine
end

section
/-! The command word: its fields, which command it selects, and what an illegal word does (R100, R101, R103 of
30_encoding.md, R126 of 40_host_bus.md). -/

namespace Sys2Proof

/-! ## The fields of a word -/

/-- A word is its MBZ field above its OP field (R100). -/
theorem mbzField_append_opField (w : Word) : mbzField w ++ opField w = w :=
  (BitVec.extractLsb'_append_extractLsb'_eq_extractLsb' rfl).trans BitVec.extractLsb'_eq_self

theorem word_eq_iff_fields {v w : Word} : v = w ↔ opField v = opField w ∧ mbzField v = mbzField w := by
  refine ⟨fun h => h ▸ ⟨rfl, rfl⟩, fun ⟨hop, hmbz⟩ => ?_⟩
  rw [← mbzField_append_opField v, hop, hmbz, mbzField_append_opField]

/-- Words with the same MBZ field differ in OP only. -/
theorem word_eq_iff_opField {v w : Word} (h : mbzField v = mbzField w) : v = w ↔ opField v = opField w :=
  word_eq_iff_fields.trans (and_iff_left h)

/-! ## The opcode map -/

/-- The law of a command's word, of whichever command. -/
theorem encodedWord : ∀ i : Instr, Laws.EncodedWord.Statement i
  | .nop => Laws.EncodedWord.nop
  | .clear => Laws.EncodedWord.clear
  | .count => Laws.EncodedWord.count
  | .build => Laws.EncodedWord.build
  | .derive => Laws.EncodedWord.derive
  | .serialize => Laws.EncodedWord.serialize
  | .parse => Laws.EncodedWord.parse
  | .encode => Laws.EncodedWord.encode
  | .decode => Laws.EncodedWord.decode
  | .pack => Laws.EncodedWord.pack
  | .unpack => Laws.EncodedWord.unpack
  | .compress => Laws.EncodedWord.compress
  | .decompress => Laws.EncodedWord.decompress

@[simp] theorem mbzField_encode (i : Instr) : mbzField (encode i) = 0 := (encodedWord i).2.1

@[simp] theorem commandOfOp_opField_encode (i : Instr) : commandOfOp (opField (encode i)) = some i :=
  (encodedWord i).2.2

/-- A command has one row in the opcode map (R101): over the 16 values of OP. -/
theorem opField_encode_of_commandOfOp : ∀ op : BitVec 4, ∀ i ∈ commandOfOp op, opField (encode i) = op := by
  decide

theorem commandOfOp_eq_some_iff {op : BitVec 4} {i : Instr} : commandOfOp op = some i ↔ op = opField (encode i) :=
  ⟨fun h => (opField_encode_of_commandOfOp op i h).symm, fun h => h ▸ commandOfOp_opField_encode i⟩

/-- The reserved values of OP (R101). -/
theorem commandOfOp_eq_none_iff : ∀ {op : BitVec 4}, commandOfOp op = none ↔ op = 0xD ∨ op = 0xE ∨ op = 0xF := by
  decide

/-! ## The decoder -/

theorem decode_eq_ok_iff {w : Word} {i : Instr} :
    decode w = .ok i ↔ mbzField w = 0 ∧ commandOfOp (opField w) = some i := by
  unfold decode
  by_cases hmbz : mbzField w = 0
  · rw [if_pos hmbz]
    cases commandOfOp (opField w) <;> simp [hmbz]
  · rw [if_neg hmbz]
    exact iff_of_false nofun fun h => hmbz h.1

theorem decode_eq_error_iff {w : Word} :
    decode w = .error (.illegalWord w) ↔ mbzField w ≠ 0 ∨ commandOfOp (opField w) = none := by
  unfold decode
  by_cases hmbz : mbzField w = 0
  · rw [if_pos hmbz]
    cases commandOfOp (opField w) <;> simp [hmbz]
  · rw [if_neg hmbz]
    exact iff_of_true rfl (.inl hmbz)

/-- The word of a command has its OP, and MBZ 0 (R101). -/
theorem eq_encode_iff {w : Word} {i : Instr} : w = encode i ↔ opField w = opField (encode i) ∧ mbzField w = 0 := by
  rw [word_eq_iff_fields, mbzField_encode]

theorem decode_eq_ok_iff_eq_encode {w : Word} {i : Instr} : decode w = .ok i ↔ w = encode i :=
  calc decode w = .ok i
    _ ↔ mbzField w = 0 ∧ commandOfOp (opField w) = some i := decode_eq_ok_iff
    _ ↔ opField w = opField (encode i) ∧ mbzField w = 0 := by rw [commandOfOp_eq_some_iff, and_comm]
    _ ↔ w = encode i := eq_encode_iff.symm

/-- The illegal words (R103). -/
theorem decode_eq_error_iff_reserved {w : Word} :
    decode w = .error (.illegalWord w) ↔ mbzField w ≠ 0 ∨ w = 0xD#32 ∨ w = 0xE#32 ∨ w = 0xF#32 := by
  rw [decode_eq_error_iff, commandOfOp_eq_none_iff]
  refine or_congr_right' fun hmbz => ?_
  have hword (v : Word) (hv : mbzField v = 0) : w = v ↔ opField w = opField v :=
    word_eq_iff_opField ((not_not.mp hmbz).trans hv.symm)
  rw [hword 0xD#32 rfl, hword 0xE#32 rfl, hword 0xF#32 rfl]
  rfl

end Sys2Proof

namespace Sys2Proof.Machine

/-! ## A CMD write, and the completion of an illegal word -/

/-- A write of any byte of the CMD word, whatever its strobes, is a write of CMD (R27, R73). -/
theorem hostWrite_of_cmd {off : BitVec 26} (w : Word) (strb : BitVec 4) (s : State) (h : off.toNat / 4 = 2) :
    hostWrite off w strb s = writeCmd w s := by
  have htarget : targetOf off = .csr .cmd := targetOf_of_index off 2 .cmd h rfl
  simp only [hostWrite, htarget]

theorem writeCmd_of_idle {s : State} (w : Word) (h : s.seq = .idle) : writeCmd w s = accept w s :=
  if_neg (by simp [(isBusy_eq_false_iff s).mpr h])

theorem writeCmd_of_not_idle {s : State} (w : Word) (h : s.seq ≠ .idle) : writeCmd w s = { s with drop := true } :=
  if_pos ((isBusy_eq_true_iff s).mpr h)

theorem coreStep_of_illegal {s : State} {w : Word} {e : DecodeError} (hseq : s.seq = .busy w)
    (hdecode : decode w = .error e) : coreStep s = .next (completeIllegal w s) := by
  simp only [coreStep, hseq, hdecode]

/-! ## The statements -/

/-- Settles O1: OP and MBZ determine a word, and the opcode map gives each command one OP. -/
theorem wordSelectsCommandExactlyWhenItIsItsWord : Obligations.WordSelectsCommandExactlyWhenItIsItsWord :=
  ⟨fun _ _ => decode_eq_ok_iff_eq_encode, fun _ _ => eq_encode_iff, rfl⟩

/-- Settles O2: CMD takes or drops an illegal word as it does any other, and the CORE's step completes it. -/
theorem illegalWordCompletesWithIllegalCommand : Obligations.IllegalWordCompletesWithIllegalCommand := by
  intro s w strb off
  refine ⟨decode_eq_error_iff_reserved.symm, fun hillegal => ⟨fun hbusy => ?latched, fun hoff hidle => ?accepted,
    fun hoff hseq => ?dropped⟩⟩
  case latched => exact coreStep_of_illegal hbusy hillegal
  case accepted =>
    rw [hostWrite_of_cmd w strb s hoff, writeCmd_of_idle w hidle]
    exact coreStep_of_illegal (seq_accept w s) hillegal
  case dropped => rw [hostWrite_of_cmd w strb s hoff, writeCmd_of_not_idle w hseq]

end Sys2Proof.Machine
end

section
/-! Host writes of the control registers, while IDLE and while BUSY, and the completion of NOP (R122, R123, R125, R128
of 40_host_bus.md). -/

namespace Sys2Proof.Machine

/-! ## Writes of CTRL and STATUS -/

theorem hostWrite_of_ctrl {off : BitVec 26} (w : Word) (strb : BitVec 4) (s : State) (h : off.toNat / 4 = 1) :
    hostWrite off w strb s = if strb.getLsbD 0 then writeCtrl w s else s := by
  have htarget : targetOf off = .csr .ctrl := targetOf_of_index off 1 .ctrl h rfl
  simp only [hostWrite, htarget]

theorem hostWrite_of_status {off : BitVec 26} (w : Word) (strb : BitVec 4) (s : State) (h : off.toNat / 4 = 3) :
    hostWrite off w strb s = if strb.getLsbD 0 then clearStatus w s else s := by
  have htarget : targetOf off = .csr .status := targetOf_of_index off 3 .status h rfl
  simp only [hostWrite, htarget]

theorem writeCtrl_of_softReset {w : Word} (s : State) (h : w.getLsbD 1 = true) : writeCtrl w s = resetAction s :=
  if_pos h

theorem writeCtrl_of_not_softReset {w : Word} (s : State) (h : w.getLsbD 1 = false) :
    writeCtrl w s = { s with irqEn := w.getLsbD 0 } :=
  if_neg (ne_true_of_eq_false h)

/-- Where DONE and ERR are 0 already, the W1C bits can clear DROP only (R28). -/
theorem clearStatus_of_not_done_not_err {s : State} (w : Word) (hdone : s.done = false) (herr : s.err = false) :
    clearStatus w s = { s with drop := s.drop && !w.getLsbD 3 } := by
  simp [clearStatus, hdone, herr]

/-! ## Writes while BUSY -/

/-- While BUSY only a CMD write, and one of CTRL or STATUS that reaches lane 0, does anything (R128): the other
writes of `hostWrite_cases` need IDLE. -/
theorem hostWrite_of_busy_other {off : BitVec 26} {strb : BitVec 4} {s : State} (w : Word) (hbusy : s.isBusy = true)
    (hcmd : off.toNat / 4 ≠ 2) (hlane0 : strb.getLsbD 0 = true → off.toNat / 4 ≠ 1 ∧ off.toNat / 4 ≠ 3) :
    hostWrite off w strb s = s := by
  have hnotIdle : s.isBusy ≠ false := ne_false_of_eq_true hbusy
  obtain hself | ⟨hoff, -⟩ | ⟨hoff, -⟩ | ⟨hoff, hstrb, -⟩ | ⟨hoff, hstrb, -⟩ | ⟨hoff, hstrb, -⟩ | ⟨hidle, -⟩ |
    ⟨hidle, -⟩ | ⟨_, hidle, -⟩ | ⟨hidle, -⟩ := hostWrite_cases off w strb s
  · exact hself
  · exact absurd hoff hcmd
  · exact absurd hoff hcmd
  · exact absurd hoff (hlane0 hstrb).1
  · exact absurd hoff (hlane0 hstrb).1
  · exact absurd hoff (hlane0 hstrb).2
  all_goals exact absurd hidle hnotIdle

/-! ## The completion of a command -/

/-- The CORE's step in BUSY runs the command that the latched word selects (R124). -/
theorem coreStep_of_command {s : State} {w : Word} {i : Instr} (hseq : s.seq = .busy w) (hdecode : decode w = .ok i) :
    coreStep s = exec i s := by
  simp only [coreStep, hseq, hdecode]

theorem exec_nop (s : State) : exec .nop s = .next (finish s) := execNop_eq s

/-- NOP accepted while IDLE and completed: the flags of acceptance and DONE (R122, R125). -/
theorem finish_accept_nop {s : State} (hidle : s.seq = .idle) : finish (accept (encode .nop) s) =
    { s with done := true, err := false, lastOp := 0, errCode := 0, errInfo := 0, draws := s.draws + 1 } := by
  have hop : opField (encode .nop) = 0 := rfl
  simp only [finish, accept, hop, hidle]

/-! ## The statements -/

/-- Settles O14: each register's write by its own rule, and every other write by `hostWrite_of_busy_other`. -/
theorem hostWritesWhileBusy : Obligations.HostWritesWhileBusy := by
  intro s off w strb hbusy
  refine ⟨fun hoff => ?cmd, fun hoff hstrb hsreset => ?irqEn, fun hoff hstrb hsreset => ?softReset,
    fun hoff hstrb hdone herr => ?status, fun hctrl hcmd hstatus => ?elsewhere, fun hcmd hstrb => ?noLane0⟩
  case cmd => rw [hostWrite_of_cmd w strb s hoff, writeCmd_of_not_idle w ((isBusy_eq_true_iff s).mp hbusy)]
  case irqEn => rw [hostWrite_of_ctrl w strb s hoff, if_pos hstrb, writeCtrl_of_not_softReset s hsreset]
  case softReset =>
    rw [hostWrite_of_ctrl w strb s hoff, if_pos hstrb, writeCtrl_of_softReset s hsreset]
    exact ⟨seq_resetAction s, done_resetAction s⟩
  case status =>
    rw [hostWrite_of_status w strb s hoff, if_pos hstrb, clearStatus_of_not_done_not_err w hdone herr]
  case elsewhere => exact hostWrite_of_busy_other w hbusy hcmd fun _ => ⟨hctrl, hstatus⟩
  case noLane0 => exact hostWrite_of_busy_other w hbusy hcmd fun hlane0 => absurd hlane0 (ne_true_of_eq_false hstrb)

/-- Settles O13: a CMD write while IDLE is `accept`, which sets BUSY and clears DONE. -/
theorem cmdWriteWhileIdleIsAccepted : Obligations.CmdWriteWhileIdleIsAccepted := by
  intro s off w strb hoff hidle
  have haccept : hostWrite off w strb s = accept w s := by
    rw [hostWrite_of_cmd w strb s hoff, writeCmd_of_idle w hidle]
  rw [haccept]
  refine ⟨rfl, ?isBusy, ?irq⟩
  case isBusy => exact (isBusy_eq_true_iff _).mpr (by simp)
  case irq => simp [State.irq]

/-- Settles O32: the CORE's step after acceptance runs NOP, which is `finish` alone. -/
theorem nopOnlyCompletes : Obligations.NopOnlyCompletes := by
  intro s off strb
  refine ⟨exec_nop s, fun hoff hidle => ?accepted, fun hoff hseq => ?dropped⟩
  case accepted =>
    have hdecode : decode (encode .nop) = .ok .nop := decode_eq_ok_iff_eq_encode.mpr rfl
    calc coreStep (hostWrite off (encode .nop) strb s)
      _ = coreStep (accept (encode .nop) s) := by
        rw [hostWrite_of_cmd _ strb s hoff, writeCmd_of_idle _ hidle]
      _ = exec .nop (accept (encode .nop) s) := coreStep_of_command (seq_accept _ s) hdecode
      _ = .next (finish (accept (encode .nop) s)) := exec_nop _
      _ = _ := by rw [finish_accept_nop hidle]
  case dropped => rw [hostWrite_of_cmd _ strb s hoff, writeCmd_of_not_idle _ hseq]

end Sys2Proof.Machine
end

section
/-! The frequency table: what SYM_COUNT 0 says, the exact counts of a byte list, and the completions of CLEAR and COUNT
(R36 of 10_state.md, R140 to R142 of 41_frequency_table.md). -/

namespace Sys2Proof.Machine

/-! ## The table -/

/-- A table's entries are what it gives for some symbol. -/
theorem Table.mem_entries {α : Type} (t : Table α) (a : α) : a ∈ t.entries ↔ ∃ x, t.get x = a := by
  constructor
  · intro ha
    obtain ⟨i, hi, rfl⟩ := List.getElem_of_mem ha
    have hbyte : (BitVec.ofNat 8 i).toNat = i := by
      rw [BitVec.toNat_ofNat]
      exact Nat.mod_eq_of_lt (hi.trans_eq t.size)
    exact ⟨BitVec.ofNat 8 i, by simp only [Table.get, hbyte]⟩
  · rintro ⟨x, rfl⟩
    exact List.getElem_mem _

/-- SYM_COUNT is 0 exactly for the empty table (R36). -/
theorem symCount_eq_zero_iff (F : FreqTable) : symCount F = 0 ↔ ∀ x, F.get x = 0 := by
  simp [symCount, List.countP_eq_zero, Table.mem_entries]

/-- A count that fits its 32 bits is exact (R140). -/
theorem toNat_get_count {B : List Byte} (h : B.length < 2 ^ 32) (x : Byte) : ((count B).get x).toNat = B.count x := by
  have hcount : B.count x < 2 ^ 32 := List.count_le_length.trans_lt h
  rw [count, Table.get_ofFn, BitVec.toNat_ofNat, Nat.mod_eq_of_lt hcount]

/-! ## The input -/

@[simp] theorem length_inBytes (s : State) (n : Nat) : (s.inBytes n).length = n := by simp [State.inBytes]

/-- IN_LEN bounds the input's length, so no count of it wraps (R140). -/
theorem length_input_lt (s : State) : s.input.length < 2 ^ 32 := (length_inBytes s _).trans_lt s.inLen.isLt

theorem count_inBytes (s : State) (n : Nat) (x : Byte) :
    (s.inBytes n).count x = (List.range n).countP fun i => s.inByte i == x :=
  List.countP_map

/-! ## The completions -/

theorem exec_clear (s : State) : exec .clear s = .next (finish (writeFreq (Table.fill 0) s)) := execClear_eq s

theorem exec_count_of_le {s : State} (h : s.inLen.toNat ≤ s.params.capIn) :
    exec .count s = .next (finish (writeFreq (count s.input) s)) := by
  obtain ⟨-, hexec⟩ | ⟨hlt, -⟩ := execCount_cases s
  · exact hexec
  · exact absurd h (Nat.not_le.mpr hlt)

theorem exec_count_of_lt {s : State} (h : s.params.capIn < s.inLen.toNat) :
    exec .count s = .next (raiseError { kind := .inRange, info := s.inLen } s) := by
  obtain ⟨hle, -⟩ | ⟨-, hexec⟩ := execCount_cases s
  · exact absurd hle (Nat.not_le.mpr h)
  · exact hexec

/-! ## The statements -/

/-- Settles O34: the new table is `count` of the input, whose length is below 2^32, so each entry is exact. -/
theorem countReplacesTheTable : Obligations.CountReplacesTheTable := by
  intro s
  refine ⟨fun hle => ⟨_, exec_count_of_le hle, fun x => ?counts, rfl⟩, fun hlt => exec_count_of_lt hlt⟩
  case counts =>
    calc ((count s.input).get x).toNat
      _ = s.input.count x := toNat_get_count (length_input_lt s) x
      _ = (List.range s.inLen.toNat).countP fun i => s.inByte i == x := count_inBytes s _ x

/-- Settles O33: the new table is 0 at every symbol, so its SYM_COUNT is 0. -/
theorem clearEmptiesTheTable : Obligations.ClearEmptiesTheTable := by
  intro s
  have hzero (x : Byte) : (Table.fill 0 : FreqTable).get x = 0 := Table.get_fill 0 x
  exact ⟨_, exec_clear s, hzero, (symCount_eq_zero_iff _).mpr hzero, rfl⟩

end Sys2Proof.Machine
end

section
/-! The builder's queue (R160 to R163 of 42_tree_builder.md): the extraction order, insertion, and the run of merges by
which `build` makes the tree. -/

namespace Sys2Proof.Machine

open Sys2Proof.Spec

/-! ## The extraction order -/

theorem QEntry.before_iff (a b : QEntry) :
    a.before b = true ↔ a.w.toNat < b.w.toNat ∨ (a.w.toNat = b.w.toNat ∧ a.seq < b.seq) := by
  simp [QEntry.before, BitVec.lt_def, BitVec.toNat_inj]

theorem QEntry.before_trans {a b c : QEntry} (hab : a.before b = true) (hbc : b.before c = true) :
    a.before c = true := by
  rw [before_iff] at *
  omega

/-- Entries with different sequence numbers are comparable, so the order is total on a queue (R160). -/
theorem QEntry.before_of_not_before {a b : QEntry} (hseq : b.seq ≠ a.seq) (h : ¬ a.before b = true) :
    b.before a = true := by
  rw [before_iff] at *
  omega

/-! ## Insertion -/

theorem insertEntry_perm (e : QEntry) (Q : List QEntry) : (insertEntry e Q).Perm (e :: Q) := by
  induction Q with
  | nil => rfl
  | cons x Q ih =>
    unfold insertEntry
    split
    · rfl
    · exact (ih.cons x).trans (.swap e x Q)

theorem insertEntry_pairwise {e : QEntry} {Q : List QEntry} (hseq : ∀ x ∈ Q, x.seq ≠ e.seq)
    (hQ : Q.Pairwise fun a b => a.before b = true) : (insertEntry e Q).Pairwise fun a b => a.before b = true := by
  induction Q with
  | nil => exact List.pairwise_singleton _ e
  | cons x Q ih =>
    obtain ⟨hx, hrest⟩ := List.pairwise_cons.mp hQ
    obtain ⟨hxe, hseqRest⟩ := List.forall_mem_cons.mp hseq
    unfold insertEntry
    split
    next hex =>
      exact List.pairwise_cons.mpr
        ⟨List.forall_mem_cons.mpr ⟨hex, fun y hy => QEntry.before_trans hex (hx y hy)⟩, hQ⟩
    next hex =>
      refine List.pairwise_cons.mpr ⟨fun y hy => ?_, ih hseqRest hrest⟩
      obtain rfl | hy := List.mem_cons.mp ((insertEntry_perm e Q).mem_iff.mp hy)
      · exact QEntry.before_of_not_before hxe hex
      · exact hx y hy

/-- A queue of the builder's loop when `next` is the number of the next merge: in extraction order, its entries
numbered below `next`. -/
structure QueueInOrder (next : Nat) (Q : List QEntry) : Prop where
  /-- The queue is in extraction order (R160). -/
  pairwise : Q.Pairwise fun a b => a.before b = true
  /-- The sequence number `next` is new. -/
  seq_lt : ∀ x ∈ Q, x.seq < next

theorem queueInOrder_insertEntry {next : Nat} {e : QEntry} {Q : List QEntry} (hQ : QueueInOrder next Q)
    (he : e.seq = next) : QueueInOrder (next + 1) (insertEntry e Q) where
  pairwise := insertEntry_pairwise (fun x hx => he ▸ (hQ.seq_lt x hx).ne) hQ.pairwise
  seq_lt x hx := by
    obtain rfl | hx := List.mem_cons.mp ((insertEntry_perm e Q).mem_iff.mp hx)
    · omega
    · exact (hQ.seq_lt x hx).trans (Nat.lt_succ_self next)

theorem QueueInOrder.tail {next : Nat} {a : QEntry} {Q : List QEntry} (h : QueueInOrder next (a :: Q)) :
    QueueInOrder next Q :=
  ⟨h.pairwise.of_cons, fun x hx => h.seq_lt x (List.mem_cons_of_mem a hx)⟩

/-! ## The queue of the leaves -/

theorem foldl_insertEntry_perm (l Q : List QEntry) :
    (l.foldl (fun Q e => insertEntry e Q) Q).Perm (Q ++ l) := by
  induction l generalizing Q with
  | nil => simp
  | cons e l ih => exact (ih _).trans (((insertEntry_perm e Q).append_right l).trans List.perm_middle.symm)

/-- Entries with different sequence numbers, inserted one by one, are in extraction order (R161). -/
theorem foldl_insertEntry_pairwise {l Q : List QEntry} (hseq : (Q ++ l).Pairwise fun a b => a.seq ≠ b.seq)
    (hQ : Q.Pairwise fun a b => a.before b = true) :
    (l.foldl (fun Q e => insertEntry e Q) Q).Pairwise fun a b => a.before b = true := by
  induction l generalizing Q with
  | nil => exact hQ
  | cons e l ih =>
    have hperm : (Q ++ e :: l).Perm (insertEntry e Q ++ l) :=
      List.perm_middle.trans ((insertEntry_perm e Q).append_right l).symm
    have hnew : ∀ x ∈ Q, x.seq ≠ e.seq := fun x hx =>
      (List.pairwise_append.mp hseq).2.2 x hx e List.mem_cons_self
    exact ih (hperm.pairwise hseq Ne.symm) (insertEntry_pairwise hnew hQ)

theorem leafQueue_perm (S : List (Byte × Count)) :
    (leafQueue S).Perm (S.zipIdx.map fun e => leafEntry e.1 e.2) :=
  foldl_insertEntry_perm _ []

@[simp] theorem length_leafQueue (S : List (Byte × Count)) : (leafQueue S).length = S.length := by
  simp [(leafQueue_perm S).length_eq]

theorem leafQueue_inOrder (S : List (Byte × Count)) : QueueInOrder S.length (leafQueue S) where
  pairwise :=
    have hseq : (S.zipIdx.map fun e => leafEntry e.1 e.2).Pairwise fun a b => a.seq ≠ b.seq :=
      List.pairwise_map.mpr (List.pairwise_map.mp (List.nodup_zipIdx_map_snd S))
    foldl_insertEntry_pairwise hseq .nil
  seq_lt x hx := by
    obtain ⟨e, he, rfl⟩ := List.mem_map.mp ((leafQueue_perm S).mem_iff.mp hx)
    exact List.snd_lt_of_mem_zipIdx he

/-! ## The run of merges -/

/-- With one more unit of fuel the loop takes one more turn at its end. -/
theorem mergeLoop_succ (n next : Nat) (Q : List QEntry) :
    mergeLoop (n + 1) Q next = mergeLoop 1 (mergeLoop n Q next) (next + n) := by
  induction n generalizing Q next with
  | zero => rfl
  | succ n ih =>
    match Q with
    | [] => rfl
    | [e] => simp
    | a :: b :: rest => rw [mergeLoop_merge, ih, mergeLoop_merge, Nat.add_right_comm, Nat.add_assoc]

/-- A merge takes one entry off the queue. -/
theorem length_mergeLoop_of_lt {n : Nat} (next : Nat) {Q : List QEntry} (h : n < Q.length) :
    (mergeLoop n Q next).length = Q.length - n := by
  induction n generalizing Q next with
  | zero => rfl
  | succ n ih =>
    match Q, h with
    | a :: b :: rest, h =>
      simp only [List.length_cons] at h
      rw [mergeLoop_merge, ih _ (by simp; omega)]
      simp only [length_insertEntry, List.length_cons]
      omega

theorem queueInOrder_mergeLoop {n next : Nat} {Q : List QEntry} (h : QueueInOrder next Q) :
    QueueInOrder (next + n) (mergeLoop n Q next) := by
  induction n generalizing Q next with
  | zero => exact h
  | succ n ih =>
    match Q, h with
    | [], h => exact ⟨.nil, nofun⟩
    | [e], h => exact ⟨h.pairwise, fun x hx => (h.seq_lt x hx).trans_le (Nat.le_add_right _ _)⟩
    | a :: b :: rest, h =>
      rw [mergeLoop_merge, Nat.add_comm n 1, ← Nat.add_assoc]
      exact ih (queueInOrder_insertEntry h.tail.tail rfl)

/-- The loop's turn on a queue in order is the merge of R162 and R163. -/
theorem mergesFirstTwo_mergeLoop_one {next : Nat} {Q : List QEntry} (h : QueueInOrder next Q)
    (hlen : 2 ≤ Q.length) : mergesFirstTwo next Q (mergeLoop 1 Q next) := by
  match Q, h, hlen with
  | a :: b :: rest, h, _ =>
    exact ⟨a, b, rest, .rfl, (List.pairwise_cons.mp h.pairwise).1, (List.pairwise_cons.mp h.pairwise.of_cons).1,
      insertEntry_perm _ _⟩

/-! ## `build` by the number of present symbols -/

theorem present_eq_map_symbols (F : FreqTable) : present F = (symbols F).map fun x => (x, F.get x) :=
  present_eq_map F

@[simp] theorem length_present (F : FreqTable) : (present F).length = (symbols F).length := by
  simp [present_eq_map_symbols]

theorem build_of_symbols_nil {F : FreqTable} (h : symbols F = []) : build F = .empty := by
  simp [build, present_eq_map_symbols, h]

theorem build_of_symbols_singleton {F : FreqTable} {x : Byte} (h : symbols F = [x]) : build F =
    .root (.single ((F.get x).setWidth 40) (.leaf x ((F.get x).setWidth 40))) := by
  simp [build, present_eq_map_symbols, h]

/-- The entry of the leaf of symbol `x`, the `j`-th present one (R161). -/
def symbolEntry (F : FreqTable) (x : Byte) (j : Nat) : QEntry :=
  { w := (F.get x).setWidth 40, seq := j, node := .leaf x ((F.get x).setWidth 40) }

theorem leafQueue_perm_symbols (F : FreqTable) :
    (leafQueue (present F)).Perm ((symbols F).zipIdx.map fun e => symbolEntry F e.1 e.2) := by
  refine (leafQueue_perm _).trans (.of_eq ?_)
  rw [present_eq_map_symbols, List.zipIdx_map, List.map_map]
  rfl

/-- The run of R163: after `i` turns the queue is `mergeLoop i` of the leaves' queue. -/
theorem exists_merge_run {F : FreqTable} (h : 2 ≤ (symbols F).length) : ∃ Q : Nat → List QEntry,
    (Q 0).Perm ((symbols F).zipIdx.map fun e => symbolEntry F e.1 e.2) ∧
    (∀ i, i + 1 < (symbols F).length → mergesFirstTwo ((symbols F).length + i) (Q i) (Q (i + 1))) ∧
    ∃ e, Q ((symbols F).length - 1) = [e] ∧ build F = .root e.node := by
  have hpresent := length_present F
  generalize hk : (symbols F).length = k at *
  have horder : QueueInOrder k (leafQueue (present F)) := hpresent ▸ leafQueue_inOrder (present F)
  have hlen (i : Nat) (hi : i < k) : (mergeLoop i (leafQueue (present F)) k).length = k - i := by
    rw [length_mergeLoop_of_lt k (by simpa [hk] using hi), length_leafQueue, hpresent]
  refine ⟨fun i => mergeLoop i (leafQueue (present F)) k, leafQueue_perm_symbols F, fun i hi => ?turn, ?last⟩
  case turn =>
    show mergesFirstTwo _ _ (mergeLoop (i + 1) _ _)
    rw [mergeLoop_succ]
    exact mergesFirstTwo_mergeLoop_one (queueInOrder_mergeLoop horder) (by rw [hlen i (by omega)]; omega)
  case last =>
    obtain ⟨e, he, hbuild⟩ := build_of_two F (by omega)
    obtain ⟨e', he'⟩ := List.length_eq_one_iff.mp ((hlen (k - 1) (by omega)).trans (by omega))
    have hsame : [e'] = [e] :=
      calc [e']
        _ = mergeLoop 1 (mergeLoop (k - 1) (leafQueue (present F)) k) (k + (k - 1)) := by
          rw [he', mergeLoop_single]
        _ = mergeLoop k (leafQueue (present F)) k := by rw [← mergeLoop_succ, Nat.sub_add_cancel (by omega)]
        _ = [e] := by rw [← he, hpresent]
    exact ⟨e, he'.trans hsame, hbuild⟩

/-! ## The statement -/

/-- Settles O49: insertion keeps the order, so each turn of the loop merges the two first entries of R160. -/
theorem queueInsertionKeepsExtractionOrder : Obligations.QueueInsertionKeepsExtractionOrder :=
  ⟨QEntry.before_iff, fun e Q hseq => ⟨insertEntry_pairwise hseq, insertEntry_perm e Q⟩,
    fun _ => ⟨build_of_symbols_nil, fun _ => build_of_symbols_singleton, exists_merge_run⟩⟩

end Sys2Proof.Machine
end

section
/-! The tree that `build` makes (R162, R166, R167 of 42_tree_builder.md): what every merge keeps of the shape, the weights
and the leaves. -/

namespace Sys2Proof.Machine

open Sys2Proof.Spec

/-! ## Full trees with exact weights -/

/-- The exact sum of the leaves' weights. -/
def totalWeight (L : List (Byte × Weight)) : Nat := (L.map fun e => e.2.toNat).sum

@[simp] theorem totalWeight_append (L M : List (Byte × Weight)) :
    totalWeight (L ++ M) = totalWeight L + totalWeight M := by
  simp [totalWeight]

theorem totalWeight_perm {L M : List (Byte × Weight)} (h : L.Perm M) : totalWeight L = totalWeight M :=
  (h.map _).sum_eq

/-- Where every inner weight is the exact sum of its children's, it is the exact sum of its leaves' (R166). -/
theorem Node.toNat_weight_of_weightsAdd {n : Node} (h : n.weightsAdd = true) :
    n.weight.toNat = totalWeight n.leafWeights := by
  induction n with
  | leaf x w => simp [weight, leafWeights, totalWeight]
  | inner w l r ihl ihr =>
    simp only [weightsAdd, Bool.and_eq_true, decide_eq_true_eq] at h
    obtain ⟨⟨hw, hl⟩, hr⟩ := h
    rw [leafWeights, totalWeight_append, ← ihl hl, ← ihr hr]
    exact hw
  | single w l ih =>
    simp only [weightsAdd, Bool.and_eq_true, decide_eq_true_eq] at h
    obtain ⟨rfl, hl⟩ := h
    exact ih hl

/-- A full binary tree has one leaf more than inner nodes (R167). -/
theorem Node.length_leafWeights_of_full {n : Node} (h : n.full = true) :
    n.leafWeights.length = n.innerCount + 1 := by
  induction n with
  | leaf x w => rfl
  | inner w l r ihl ihr =>
    simp only [full, Bool.and_eq_true] at h
    simp only [leafWeights, innerCount, List.length_append, ihl h.1, ihr h.2]
    omega
  | single w l => exact absurd h (by simp [full])

/-- A path to a leaf passes each inner node at most once. -/
theorem Node.length_le_innerCount_of_follow {n : Node} {p : BitSeq} {x : Byte} {w : Weight}
    (h : n.follow p = some (.leaf x w)) : p.length ≤ n.innerCount := by
  induction n generalizing p with
  | leaf y v =>
    match p, h with
    | [], _ => exact Nat.le_refl 0
  | inner v l r ihl ihr =>
    match p, h with
    | false :: p, h =>
      have := ihl (p := p) h
      simp only [innerCount, List.length_cons]
      omega
    | true :: p, h =>
      have := ihr (p := p) h
      simp only [innerCount, List.length_cons]
      omega
  | single v l ih =>
    match p, h with
    | false :: p, h => exact Nat.succ_le_succ (ih (p := p) h)

theorem Node.length_pos_of_follow_leaf {n : Node} {p : BitSeq} {x : Byte} {w : Weight}
    (h : n.follow p = some (.leaf x w)) (hn : 0 < n.innerCount) : 0 < p.length := by
  match p, h with
  | [], h =>
    obtain rfl : n = .leaf x w := Option.some.inj h
    exact absurd hn (Nat.lt_irrefl 0)
  | _ :: p, _ => exact Nat.succ_pos _

/-! ## What every merge keeps -/

/-- The entry's node is a full tree with exact weights, its root weight the entry's. -/
structure QEntry.WellBuilt (e : QEntry) : Prop where
  /-- Every inner node has two children (R162). -/
  full : e.node.full = true
  /-- Every inner weight is the exact sum of its children's (R166). -/
  weightsAdd : e.node.weightsAdd = true
  /-- The entry's weight is its node's. -/
  weight : e.node.weight = e.w

theorem QEntry.WellBuilt.toNat_w {e : QEntry} (h : e.WellBuilt) : e.w.toNat = totalWeight e.node.leafWeights :=
  h.weight ▸ Node.toNat_weight_of_weightsAdd h.weightsAdd

theorem QEntry.WellBuilt.merge {a b : QEntry} (ha : a.WellBuilt) (hb : b.WellBuilt)
    (hexact : (a.w + b.w).toNat = a.w.toNat + b.w.toNat) (next : Nat) : (mergeEntries a b next).WellBuilt where
  full := by simp [mergeEntries, Node.full, ha.full, hb.full]
  weightsAdd := by
    simp [mergeEntries, Node.weightsAdd, ha.weightsAdd, hb.weightsAdd, ha.weight, hb.weight, hexact, Nat.add_comm]
  weight := rfl

/-- The queue's trees are well built, and their leaves together are those of `L`. -/
structure IsForest (L : List (Byte × Weight)) (Q : List QEntry) : Prop where
  /-- Each entry is well built. -/
  wellBuilt : ∀ e ∈ Q, e.WellBuilt
  /-- No leaf is lost and none is added. -/
  leaves : (Q.flatMap fun e => e.node.leafWeights).Perm L

theorem IsForest.perm {L : List (Byte × Weight)} {Q Q' : List QEntry} (h : IsForest L Q) (hQ : Q'.Perm Q) :
    IsForest L Q' where
  wellBuilt e he := h.wellBuilt e (hQ.mem_iff.mp he)
  leaves := (hQ.flatMap_right _).trans h.leaves

/-- The weight of a merge does not wrap where the leaves' total fits 40 bits (R166). -/
theorem IsForest.toNat_add {L : List (Byte × Weight)} {a b : QEntry} {Q : List QEntry}
    (h : IsForest L (a :: b :: Q)) (hL : totalWeight L < 2 ^ 40) :
    (a.w + b.w).toNat = a.w.toNat + b.w.toNat := by
  have hsum : a.w.toNat + (b.w.toNat + totalWeight (Q.flatMap fun e => e.node.leafWeights)) = totalWeight L := by
    rw [← totalWeight_perm h.leaves, (h.wellBuilt a (by simp)).toNat_w, (h.wellBuilt b (by simp)).toNat_w]
    simp
  rw [BitVec.toNat_add, Nat.mod_eq_of_lt (by omega)]

theorem IsForest.merge {L : List (Byte × Weight)} {a b : QEntry} {Q : List QEntry} (h : IsForest L (a :: b :: Q))
    (hL : totalWeight L < 2 ^ 40) (next : Nat) : IsForest L (mergeEntries a b next :: Q) where
  wellBuilt := by
    obtain ⟨ha, hrest⟩ := List.forall_mem_cons.mp h.wellBuilt
    obtain ⟨hb, hQ⟩ := List.forall_mem_cons.mp hrest
    exact List.forall_mem_cons.mpr ⟨ha.merge hb (h.toNat_add hL) next, hQ⟩
  leaves := by
    refine List.Perm.trans ?_ h.leaves
    simpa [mergeEntries, Node.leafWeights] using List.perm_append_comm_assoc _ _ _

theorem isForest_of_mergesFirstTwo {L : List (Byte × Weight)} {next : Nat} {Q Q' : List QEntry} (h : IsForest L Q)
    (hL : totalWeight L < 2 ^ 40) (hmerge : mergesFirstTwo next Q Q') : IsForest L Q' := by
  obtain ⟨a, b, others, hQ, -, -, hQ'⟩ := hmerge
  exact ((h.perm hQ.symm).merge hL next).perm hQ'

/-! ## The leaves of a table -/

/-- The leaves of R161 with their weights, in ascending symbol order. -/
def symbolLeaves (F : FreqTable) : List (Byte × Weight) := (symbols F).map fun x => (x, (F.get x).setWidth 40)

theorem entries_eq_map (F : FreqTable) : F.entries = allSymbols.map F.get :=
  calc F.entries
    _ = F.rows.map Prod.snd := (List.map_snd_zip (by simp [F.size])).symm
    _ = allSymbols.map F.get := by simp [Table.rows_eq_map]

/-- The absent symbols add nothing to the sum of a table, and widening a count keeps it (R166). -/
theorem totalWeight_symbolLeaves (F : FreqTable) :
    totalWeight (symbolLeaves F) = (F.entries.map BitVec.toNat).sum := by
  have hpresent : ∀ x, decide (F.get x ≠ 0) = ((F.get x).toNat != 0) := fun x => by
    rw [Bool.eq_iff_iff]
    simp [BitVec.toNat_eq]
  have hwiden : ∀ c : Count, (c.setWidth 40).toNat = c.toNat := fun c => by
    have := c.isLt
    rw [BitVec.toNat_setWidth, Nat.mod_eq_of_lt (by omega)]
  calc totalWeight (symbolLeaves F)
    _ = ((symbols F).map fun x => (F.get x).toNat).sum := by
      simp [totalWeight, symbolLeaves, Function.comp_def, hwiden]
    _ = ((allSymbols.map fun x => (F.get x).toNat).filter (· != 0)).sum := by
      simp only [symbols, hpresent, List.filter_map, Function.comp_def]
    _ = (allSymbols.map fun x => (F.get x).toNat).sum := List.sum_filter_bne_zero _
    _ = (F.entries.map BitVec.toNat).sum := by simp [entries_eq_map, Function.comp_def]

/-- The sum of 256 counts of 32 bits fits the 40 bits of a weight (R166). -/
theorem totalWeight_symbolLeaves_lt (F : FreqTable) : totalWeight (symbolLeaves F) < 2 ^ 40 := by
  have hle := List.sum_le_card_nsmul (F.entries.map BitVec.toNat) (2 ^ 32 - 1) fun c hc => by
    obtain ⟨c, -, rfl⟩ := List.mem_map.mp hc
    exact Nat.le_sub_one_of_lt c.isLt
  rw [List.length_map, F.size, smul_eq_mul] at hle
  rw [totalWeight_symbolLeaves]
  omega

theorem length_symbols_le (F : FreqTable) : (symbols F).length ≤ 256 :=
  (List.length_filter_le _ _).trans_eq length_allSymbols

theorem isForest_symbolEntries (F : FreqTable) :
    IsForest (symbolLeaves F) ((symbols F).zipIdx.map fun e => symbolEntry F e.1 e.2) where
  wellBuilt := List.forall_mem_map.mpr fun _ _ => ⟨rfl, rfl, rfl⟩
  leaves := .of_eq <|
    calc _
      _ = (symbols F).zipIdx.flatMap fun e => [(e.1, (F.get e.1).setWidth 40)] := List.flatMap_map _ _ _
      _ = ((symbols F).zipIdx.map Prod.fst).map fun x => (x, (F.get x).setWidth 40) := by
        rw [← List.map_eq_flatMap, List.map_map, Function.comp_def]
      _ = symbolLeaves F := by rw [List.zipIdx_map_fst]; rfl

/-- The root of two or more present symbols is a full tree over their leaves: every queue of the run is a forest. -/
theorem exists_build_root {F : FreqTable} (h : 2 ≤ (symbols F).length) : ∃ n, build F = .root n ∧ n.full = true ∧
    n.weightsAdd = true ∧ n.leafWeights.Perm (symbolLeaves F) := by
  obtain ⟨Q, hzero, hmerges, e, hlast, hbuild⟩ := exists_merge_run h
  have hforest (i : Nat) (hi : i < (symbols F).length) : IsForest (symbolLeaves F) (Q i) := by
    induction i with
    | zero => exact (isForest_symbolEntries F).perm hzero
    | succ i ih => exact isForest_of_mergesFirstTwo (ih (by omega)) (totalWeight_symbolLeaves_lt F) (hmerges i hi)
  have hroot : IsForest (symbolLeaves F) [e] := hlast ▸ hforest _ (by omega)
  have he : e.WellBuilt := hroot.wellBuilt e (by simp)
  exact ⟨e.node, hbuild, he.full, he.weightsAdd, by simpa using hroot.leaves⟩

/-! ## The statement -/

/-- Settles O50: the counts follow from the root being full over the leaves of the present symbols. -/
theorem builtTreeIsFullOverThePresentSymbols : Obligations.BuiltTreeIsFullOverThePresentSymbols := by
  intro F
  refine ⟨length_symbols_le F, fun hk => ?many, fun x hx => ?one⟩
  case many =>
    obtain ⟨n, hbuild, hfull, hadd, hleaves⟩ := exists_build_root hk
    have hweight : n.weight.toNat = (F.entries.map BitVec.toNat).sum := by
      rw [Node.toNat_weight_of_weightsAdd hadd, totalWeight_perm hleaves, totalWeight_symbolLeaves]
    have hinner : n.innerCount = (symbols F).length - 1 := by
      have hlen : n.innerCount + 1 = (symbols F).length := by
        rw [← Node.length_leafWeights_of_full hfull, hleaves.length_eq, symbolLeaves, List.length_map]
      omega
    refine ⟨n, hbuild, hfull, hadd, hinner, hleaves, hweight, fun p y w hp => ⟨?_, ?_⟩⟩
    · exact Node.length_pos_of_follow_leaf hp (by omega)
    · exact (Node.length_le_innerCount_of_follow hp).trans_eq hinner
  case one =>
    refine ⟨_, build_of_symbols_singleton hx, rfl, rfl, ?_, fun p y w hp => ?_⟩
    · rw [← totalWeight_symbolLeaves, symbolLeaves, hx]
      simp [Node.weight, totalWeight]
    · exact Nat.le_antisymm (Node.length_le_innerCount_of_follow hp)
        (Node.length_pos_of_follow_leaf hp Nat.one_pos)

end Sys2Proof.Machine
end

section
/-! The completion of BUILD, and its tree of an empty and of a one-symbol table (R164, R165, R168 of 42_tree_builder.md). -/

namespace Sys2Proof.Machine

open Sys2Proof.Spec

/-! ## The present symbols of an empty and of a one-symbol table -/

theorem symbols_eq_nil {F : FreqTable} (h : ∀ x, F.get x = 0) : symbols F = [] := by
  simp [symbols, h]

theorem symbols_eq_singleton {F : FreqTable} {x : Byte} (hx : F.get x ≠ 0) (h : ∀ y, y ≠ x → F.get y = 0) :
    symbols F = [x] := by
  have honly (y : Byte) : decide (F.get y ≠ 0) = (y == x) := by
    by_cases hy : y = x
    · simpa [hy] using hx
    · simp [hy, h y hy]
  have hnodup : allSymbols.Nodup := allSymbols_pairwise.imp fun hlt => BitVec.ne_of_lt hlt
  simp only [symbols, honly, List.filter_beq, List.count_eq_one_of_mem hnodup (mem_allSymbols x), List.replicate_one]

/-! ## The completion -/

theorem exec_build (s : State) : exec .build s = .next (finish (writeTree (build s.freq) s)) := execBuild_eq s

/-! ## The statement -/

/-- Settles O35: BUILD is the write of `build` of FREQ and the completion. -/
theorem buildWritesTheTreeOfFreq : Obligations.BuildWritesTheTreeOfFreq := fun s =>
  ⟨exec_build s, fun hzero => build_of_symbols_nil (symbols_eq_nil hzero),
    fun _ hx honly => build_of_symbols_singleton (symbols_eq_singleton hx honly)⟩

end Sys2Proof.Machine
end

section
/-! The code table unit (R180, R184 of 43_code_table.md): paths to leaves, the paths `leafCodes` lists, what `derive`
records of them, and the completions of DERIVE. -/

namespace Sys2Proof.Machine

/-! ## Paths to leaves -/

@[simp] theorem Node.follow_nil (n : Node) : n.follow [] = some n := by
  cases n <;> rfl

theorem Node.follow_leaf_eq_some_iff {x : Byte} {w : Weight} {p : BitSeq} {m : Node} :
    (Node.leaf x w).follow p = some m ↔ p = [] ∧ m = .leaf x w := by
  cases p with
  | nil => simp [eq_comm]
  | cons b p => simp [follow, child]

theorem Node.follow_append (n : Node) (p q : BitSeq) : n.follow (p ++ q) = (n.follow p).bind fun m => m.follow q := by
  induction p generalizing n with
  | nil => simp
  | cons b p ih => simp only [List.cons_append, follow, ih, Option.bind_assoc]

/-- No path to a leaf goes on to another leaf (R181). -/
theorem Node.eq_of_follow_leaf_of_prefix {n : Node} {p q : BitSeq} {x y : Byte} {v w : Weight}
    (hp : n.follow p = some (.leaf x v)) (hq : n.follow q = some (.leaf y w)) (hpq : p <+: q) : x = y := by
  obtain ⟨r, rfl⟩ := hpq
  rw [follow_append, hp, Option.bind_some, follow_leaf_eq_some_iff] at hq
  obtain ⟨-, hleaf⟩ := hq
  injection hleaf with hyx
  exact hyx.symm

/-- `leafCodes` lists exactly the paths to the leaves, each after the path to the node. -/
theorem mem_leafCodes {n : Node} {p : BitSeq} {e : Byte × BitSeq} :
    e ∈ leafCodes n p ↔ ∃ q w, n.follow q = some (.leaf e.1 w) ∧ e.2 = p ++ q := by
  induction n generalizing p with
  | leaf x w => simp [leafCodes, Node.follow_leaf_eq_some_iff, Prod.ext_iff]
  | inner v l r ihl ihr =>
    simp only [leafCodes, List.mem_append, ihl, ihr]
    constructor
    · rintro (⟨q, w, hq, he⟩ | ⟨q, w, hq, he⟩)
      · exact ⟨false :: q, w, hq, by simpa using he⟩
      · exact ⟨true :: q, w, hq, by simpa using he⟩
    · rintro ⟨q, w, hq, he⟩
      match q, hq with
      | false :: q, hq => exact .inl ⟨q, w, hq, by simpa using he⟩
      | true :: q, hq => exact .inr ⟨q, w, hq, by simpa using he⟩
  | single v l ih =>
    simp only [leafCodes, ih]
    constructor
    · rintro ⟨q, w, hq, he⟩
      exact ⟨false :: q, w, hq, by simpa using he⟩
    · rintro ⟨q, w, hq, he⟩
      match q, hq with
      | false :: q, hq => exact ⟨q, w, hq, by simpa using he⟩

theorem mem_leafCodes_root {n : Node} {x : Byte} {p : BitSeq} :
    (x, p) ∈ leafCodes n [] ↔ ∃ w, n.follow p = some (.leaf x w) := by
  simp [mem_leafCodes]

/-! ## What `derive` records -/

/-- Writing the rows of a list in turn leaves a symbol at one of its rows, or as it was where it has none. -/
theorem get_foldl_set_cases {α : Type} (L : List (Byte × α)) (t : Table α) (x : Byte) :
    (x, (L.foldl (fun C e => C.set e.1 e.2) t).get x) ∈ L ∨
    ((∀ a, (x, a) ∉ L) ∧ (L.foldl (fun C e => C.set e.1 e.2) t).get x = t.get x) := by
  induction L generalizing t with
  | nil => simp
  | cons e L ih =>
    rw [List.foldl_cons]
    obtain hmem | ⟨hnone, hget⟩ := ih (t.set e.1 e.2)
    · exact .inl (List.mem_cons_of_mem _ hmem)
    · rw [hget]
      by_cases hx : e.1 = x
      · subst hx
        simp
      · rw [Table.get_set_other _ _ _ _ hx]
        refine .inr ⟨fun a ha => ?_, rfl⟩
        obtain rfl | ha := List.mem_cons.mp ha
        · exact hx rfl
        · exact hnone a ha

@[simp] theorem get_derive_empty (x : Byte) : (derive .empty).get x = [] := Table.get_fill [] x

/-- The code of a symbol is a path to a leaf of it, or empty where it has no leaf (R180). -/
theorem get_derive_root_cases (n : Node) (x : Byte) :
    (∃ w, n.follow ((derive (.root n)).get x) = some (.leaf x w)) ∨
    ((∀ p w, n.follow p ≠ some (.leaf x w)) ∧ (derive (.root n)).get x = []) := by
  obtain hmem | ⟨hnone, hget⟩ := get_foldl_set_cases (leafCodes n []) (Table.fill []) x
  · exact .inl (mem_leafCodes_root.mp hmem)
  · exact .inr ⟨fun p w hp => hnone p (mem_leafCodes_root.mpr ⟨w, hp⟩), hget.trans (Table.get_fill [] x)⟩

/-- A symbol with a leaf has the path to one as its code. -/
theorem follow_get_derive {n : Node} {x : Byte} {p : BitSeq} {w : Weight} (h : n.follow p = some (.leaf x w)) :
    ∃ v, n.follow ((derive (.root n)).get x) = some (.leaf x v) := by
  obtain hpath | ⟨hnone, -⟩ := get_derive_root_cases n x
  · exact hpath
  · exact absurd h (hnone p w)

theorem get_derive_of_no_leaf {n : Node} {x : Byte} (h : ∀ p w, n.follow p ≠ some (.leaf x w)) :
    (derive (.root n)).get x = [] := by
  obtain ⟨w, hpath⟩ | ⟨-, hget⟩ := get_derive_root_cases n x
  · exact absurd hpath (h _ w)
  · exact hget

/-! ## The completions -/

theorem exec_derive_of_some {s : State} {T : HuffTree} (h : s.tree = some T) :
    exec .derive s = .next (finish (writeCode (derive T) s)) := by
  obtain ⟨U, hU, hexec⟩ | ⟨hnone, -⟩ := execDerive_cases s
  · obtain rfl : U = T := Option.some.inj (hU.symm.trans h)
    exact hexec
  · exact absurd (hnone.symm.trans h) (by simp)

theorem exec_derive_of_none {s : State} (h : s.tree = none) :
    exec .derive s = .next (raiseError { kind := .notReady, info := 0 } s) := by
  obtain ⟨T, hT, -⟩ | ⟨-, hexec⟩ := execDerive_cases s
  · exact absurd (hT.symm.trans h) (by simp)
  · exact hexec

/-! ## The statements -/

/-- Settles O51: the code is a path to a leaf of the symbol, and there is one such path or none. -/
theorem deriveRecordsThePathOfEachLeaf : Obligations.DeriveRecordsThePathOfEachLeaf := by
  refine ⟨get_derive_empty, fun n hunique x => ⟨fun p w hp => ?_, get_derive_of_no_leaf⟩⟩
  obtain ⟨v, hcode⟩ := follow_get_derive hp
  exact hunique _ _ x v w hcode hp

/-- Settles O36: DERIVE is the write of `derive` of TREE and the completion, or the error completion. -/
theorem deriveWritesTheCodesOfTree : Obligations.DeriveWritesTheCodesOfTree := fun _ =>
  ⟨fun _ hT => exec_derive_of_some hT, fun hnone => exec_derive_of_none hnone, fun _ => get_derive_empty⟩

end Sys2Proof.Machine
end

section
/-! The codes of a built tree (R181, R182 of 43_code_table.md): present symbols and leaves correspond, and the codes'
Kraft sum is exact. -/

namespace Sys2Proof.Machine

open Sys2Proof.Spec

/-! ## The present symbols and the leaves -/

theorem mem_symbols {F : FreqTable} {x : Byte} : x ∈ symbols F ↔ F.get x ≠ 0 := by
  simp [symbols, mem_allSymbols]

theorem symbols_nodup (F : FreqTable) : (symbols F).Nodup :=
  (allSymbols_pairwise.imp fun hlt => BitVec.ne_of_lt hlt).filter _

theorem map_fst_leafCodes (n : Node) (p : BitSeq) : (leafCodes n p).map Prod.fst = n.leafWeights.map Prod.fst := by
  induction n generalizing p with
  | leaf x w => rfl
  | inner w l r ihl ihr => simp [leafCodes, Node.leafWeights, ihl, ihr]
  | single w l ih => simp [leafCodes, Node.leafWeights, ih]

/-- With at least one symbol present, `build` gives a root with 1 to 255 inner nodes and a leaf for each present symbol
(R165, R167). -/
theorem exists_build_root_over_symbols {F : FreqTable} (h : symbols F ≠ []) : ∃ n, build F = .root n ∧
    0 < n.innerCount ∧ n.innerCount ≤ 255 ∧ ((leafCodes n []).map Prod.fst).Perm (symbols F) ∧
    (2 ≤ (symbols F).length → n.full = true) := by
  obtain ⟨hle, hmany, hone⟩ := builtTreeIsFullOverThePresentSymbols F
  match hS : symbols F, h with
  | [x], _ =>
    obtain ⟨n, hbuild, hinner, hleaves, -⟩ := hone x hS
    exact ⟨n, hbuild, by omega, by omega, by simp [map_fst_leafCodes, hleaves], by simp⟩
  | x :: y :: S, _ =>
    rw [hS, List.length_cons, List.length_cons] at hle hmany
    obtain ⟨n, hbuild, hfull, -, hinner, hleaves, -⟩ := hmany (by omega)
    refine ⟨n, hbuild, by omega, by omega, ?_, fun _ => hfull⟩
    simpa [map_fst_leafCodes, Function.comp_def] using hleaves.map Prod.fst

/-- The leaves of a tree over the present symbols are reached by exactly those. -/
theorem mem_symbols_iff_exists_path {F : FreqTable} {n : Node} (h : ((leafCodes n []).map Prod.fst).Perm (symbols F))
    {x : Byte} : x ∈ symbols F ↔ ∃ p w, n.follow p = some (.leaf x w) := by
  simp [← h.mem_iff, mem_leafCodes_root]

/-- A tree over the present symbols lists each with its derived code. -/
theorem leafCodes_perm_derived {F : FreqTable} {n : Node} (h : ((leafCodes n []).map Prod.fst).Perm (symbols F)) :
    (leafCodes n []).Perm ((symbols F).map fun x => (x, (derive (.root n)).get x)) := by
  have hnodup : ((leafCodes n []).map Prod.fst).Nodup := h.nodup_iff.mpr (symbols_nodup F)
  have hcode : ∀ e ∈ leafCodes n [], (e.1, (derive (.root n)).get e.1) = e := fun e he => by
    obtain ⟨w, hpath⟩ := mem_leafCodes_root.mp he
    exact List.inj_on_of_nodup_map hnodup (mem_leafCodes_root.mpr (follow_get_derive hpath)) he rfl
  have hmap := h.map fun x => (x, (derive (.root n)).get x)
  rwa [List.map_map, Function.comp_def, List.map_congr_left hcode, List.map_id'] at hmap

/-! ## The Kraft sum -/

/-- Below a node at depth `p.length` of a full tree the codes' Kraft sum, scaled by `2 ^ D`, is the node's share. -/
theorem kraftSum_leafCodes {n : Node} (hfull : n.full = true) {p : BitSeq} {D : Nat}
    (hD : p.length + n.innerCount ≤ D) :
    ((leafCodes n p).map fun e => 2 ^ (D - e.2.length)).sum = 2 ^ (D - p.length) := by
  induction n generalizing p with
  | leaf x w => simp [leafCodes]
  | inner w l r ihl ihr =>
    simp only [Node.full, Bool.and_eq_true] at hfull
    simp only [Node.innerCount] at hD
    have hl := ihl hfull.1 (p := p ++ [false]) (by simp; omega)
    have hr := ihr hfull.2 (p := p ++ [true]) (by simp; omega)
    have hsplit : D - p.length = D - (p.length + 1) + 1 := by omega
    rw [leafCodes, List.map_append, List.sum_append, hl, hr, hsplit, pow_succ]
    simp [Nat.mul_two]
  | single w l => exact absurd hfull (by simp [Node.full])

/-! ## The codes of a built tree -/

section

variable {F : FreqTable} {n : Node} (hleaves : ((leafCodes n []).map Prod.fst).Perm (symbols F))

include hleaves

/-- A present symbol's code is a path to a leaf of it (R180). -/
theorem follow_get_derive_of_present {x : Byte} (hx : F.get x ≠ 0) :
    ∃ w, n.follow ((derive (.root n)).get x) = some (.leaf x w) := by
  obtain ⟨p, w, hp⟩ := (mem_symbols_iff_exists_path hleaves).mp (mem_symbols.mpr hx)
  exact follow_get_derive hp

/-- An absent symbol has no code (R180). -/
theorem get_derive_of_absent {x : Byte} (hx : F.get x = 0) : (derive (.root n)).get x = [] :=
  get_derive_of_no_leaf fun p w hp =>
    mem_symbols.mp ((mem_symbols_iff_exists_path hleaves).mpr ⟨p, w, hp⟩) hx

theorem get_derive_ne_nil_iff_present (hinner : 0 < n.innerCount) (x : Byte) :
    (derive (.root n)).get x ≠ [] ↔ F.get x ≠ 0 := by
  refine ⟨fun hcode hx => hcode (get_derive_of_absent hleaves hx), fun hx => ?_⟩
  obtain ⟨w, hpath⟩ := follow_get_derive_of_present hleaves hx
  exact List.length_pos_iff.mp (Node.length_pos_of_follow_leaf hpath hinner)

theorem length_get_derive_le_innerCount (x : Byte) : ((derive (.root n)).get x).length ≤ n.innerCount := by
  by_cases hx : F.get x = 0
  · simp [get_derive_of_absent hleaves hx]
  · obtain ⟨w, hpath⟩ := follow_get_derive_of_present hleaves hx
    exact Node.length_le_innerCount_of_follow hpath

/-- No present symbol's code begins another's (R181). -/
theorem not_prefix_of_present {x y : Byte} (hx : F.get x ≠ 0) (hy : F.get y ≠ 0) (hxy : x ≠ y) :
    ¬ (derive (.root n)).get x <+: (derive (.root n)).get y := by
  obtain ⟨v, hpx⟩ := follow_get_derive_of_present hleaves hx
  obtain ⟨w, hpy⟩ := follow_get_derive_of_present hleaves hy
  exact fun hprefix => hxy (Node.eq_of_follow_leaf_of_prefix hpx hpy hprefix)

/-- The derived codes of a full tree are a complete code (R182). -/
theorem kraftSum_derive (hfull : n.full = true) {D : Nat} (hD : n.innerCount ≤ D) :
    ((symbols F).map fun x => 2 ^ (D - ((derive (.root n)).get x).length)).sum = 2 ^ D := by
  have hsum := ((leafCodes_perm_derived hleaves).map fun e => 2 ^ (D - e.2.length)).sum_eq
  rw [List.map_map] at hsum
  exact hsum.symm.trans (kraftSum_leafCodes hfull (p := []) (by simpa using hD))

end

/-- The code of the only symbol is the bit 0 (R182). -/
theorem get_derive_build_of_symbols_singleton {F : FreqTable} {x : Byte} (h : symbols F = [x]) :
    (derive (build F)).get x = [false] := by
  simp [build_of_symbols_singleton h, derive, leafCodes]

/-! ## The statement -/

/-- Settles O52: an empty table has no code at all, and otherwise the root's leaves are those of the present symbols. -/
theorem derivedCodesAreACompletePrefixCode : Obligations.DerivedCodesAreACompletePrefixCode := by
  intro F
  by_cases hS : symbols F = []
  case pos =>
    have habsent (x : Byte) : F.get x = 0 := not_not.mp fun hx => by simpa [hS] using mem_symbols.mpr hx
    simp [build_of_symbols_nil hS, habsent, hS]
  case neg =>
    obtain ⟨n, hbuild, hpos, hle, hleaves, hfull⟩ := exists_build_root_over_symbols hS
    refine ⟨fun x => ?present, fun x => ?length, fun x y hx hy hxy => ?prefixFree, fun hk => ?complete,
      fun x hx => ?single⟩
    case single =>
      have hcode := get_derive_build_of_symbols_singleton hx
      exact ⟨hcode, by simp [hx, hcode]⟩
    all_goals rw [hbuild]
    case present => exact get_derive_ne_nil_iff_present hleaves hpos x
    case length => exact (length_get_derive_le_innerCount hleaves x).trans hle
    case prefixFree => exact not_prefix_of_present hleaves hx hy hxy
    case complete => exact kraftSum_derive hleaves (hfull hk) hle

end Sys2Proof.Machine
end

section
/-! The bit packer (R200 to R205 of 44_bit_packer.md): the bits of bytes and the bytes of bits as inverses, what
`unpack` answers by its padding byte, and the completions of PACK and UNPACK. -/

namespace Sys2Proof.Machine

open Sys2Proof.Spec

/-! ## Bytes and bits -/

theorem ofNat_natOfBits_bitsOfByte (x : Byte) : BitVec.ofNat 8 (natOfBits (bitsOfByte x)) = x := by
  revert x
  decide

/-- The inverse of `bitsOfBytes_bytesOfBits` (R8). -/
@[simp] theorem bytesOfBits_bitsOfBytes (B : List Byte) : bytesOfBits (bitsOfBytes B) = B := by
  induction B with
  | nil => rfl
  | cons x B ih =>
    calc bytesOfBits (bitsOfBytes (x :: B))
      _ = BitVec.ofNat 8 (natOfBits (bitsOfByte x)) :: bytesOfBits (bitsOfBytes B) := by rw [bitsOfBytes_cons]; rfl
      _ = x :: B := by rw [ofNat_natOfBits_bitsOfByte, ih]

theorem bitsOfBytes_injective : Function.Injective bitsOfBytes :=
  Function.LeftInverse.injective bytesOfBits_bitsOfBytes

/-- The padding that is left to be added after fewer than 8 bits of whole bytes are taken away. -/
theorem padCount_sub {n p : Nat} (hp : p ≤ 7) (hn : p ≤ 8 * n) : padCount (8 * n - p) = p := by
  unfold padCount
  omega

theorem padCount_le (n : Nat) : padCount n ≤ 7 := Nat.le_of_lt_succ (padCount_lt n)

theorem toNat_ofNat_padCount (n : Nat) : (BitVec.ofNat 8 (padCount n)).toNat = padCount n := by
  rw [BitVec.toNat_ofNat, Nat.mod_eq_of_lt ((padCount_lt n).trans (by decide))]

theorem eight_mul_length_alignedBytes (b : BitSeq) :
    8 * (alignedBytes b).length = b.length + padCount b.length := by
  rw [← length_bitsOfBytes, bitsOfBytes_alignedBytes, List.length_append, length_zeros]

/-! ## `unpack` by its padding byte -/

theorem unpack_nil (base : Nat) (l : Word) : unpack [] base l = .error { kind := .truncatedInput, info := l } := rfl

theorem unpack_cons_of_corrupt {p : Byte} {payload : List Byte} (base : Nat) (l : Word)
    (h : 7 < p.toNat ∨ 8 * payload.length < p.toNat) :
    unpack (p :: payload) base l = .error { kind := .corruptHeader, info := BitVec.ofNat 32 base } := by
  by_cases hp : 7 < p.toNat
  · simp [unpack, hp]
  · simp [unpack, h.resolve_left hp]

theorem unpack_cons_of_le {p : Byte} {payload : List Byte} (base : Nat) (l : Word) (hp : p.toNat ≤ 7)
    (hn : p.toNat ≤ 8 * payload.length) :
    unpack (p :: payload) base l = .ok ((bitsOfBytes payload).take (8 * payload.length - p.toNat)) := by
  simp [unpack, Nat.not_lt.mpr hp, Nat.not_lt.mpr hn]

theorem unpack_cons_eq_ok_iff {p : Byte} {payload : List Byte} {base : Nat} {l : Word} {b : BitSeq} :
    unpack (p :: payload) base l = .ok b ↔
      p.toNat ≤ 7 ∧ p.toNat ≤ 8 * payload.length ∧
        b = (bitsOfBytes payload).take (8 * payload.length - p.toNat) := by
  constructor
  · intro h
    by_cases hcorrupt : 7 < p.toNat ∨ 8 * payload.length < p.toNat
    · cases (unpack_cons_of_corrupt base l hcorrupt).symm.trans h
    · obtain ⟨hp, hn⟩ := not_or.mp hcorrupt
      have hp := Nat.not_lt.mp hp
      have hn := Nat.not_lt.mp hn
      exact ⟨hp, hn, (Except.ok.inj ((unpack_cons_of_le base l hp hn).symm.trans h)).symm⟩
  · rintro ⟨hp, hn, rfl⟩
    exact unpack_cons_of_le base l hp hn

/-! ## `pack` and `unpack` -/

/-- The aligned bytes' bits end in the padding, so taking the padding away leaves the sequence (R205). -/
theorem unpack_pack (b : BitSeq) (base : Nat) (l : Word) : unpack (pack b) base l = .ok b := by
  have hlen := eight_mul_length_alignedBytes b
  have hpad := toNat_ofNat_padCount b.length
  refine unpack_cons_eq_ok_iff.mpr ⟨?small, ?fits, ?bits⟩
  case small => exact hpad.trans_le (padCount_le _)
  case fits => omega
  case bits => rw [hpad, hlen, Nat.add_sub_cancel, bitsOfBytes_alignedBytes, List.take_left]

/-- Whole bytes are equal when their bits are, and the bits of `pack b` end in its padding (R200). -/
theorem pack_eq_cons_iff {p : Byte} {payload : List Byte} {b : BitSeq} (hpad : padCount b.length = p.toNat) :
    pack b = p :: payload ↔ b ++ zeros p.toNat = bitsOfBytes payload := by
  rw [pack, hpad, BitVec.ofNat_toNat, BitVec.setWidth_eq, List.cons_inj_right, ← bitsOfBytes_injective.eq_iff,
    bitsOfBytes_alignedBytes, hpad]

/-- What is stripped is lost: packing the rest again gives the bytes back where zeros were stripped (R202, R205). -/
theorem pack_take_eq_iff {p : Byte} {payload : List Byte} (hp : p.toNat ≤ 7) (hn : p.toNat ≤ 8 * payload.length) :
    pack ((bitsOfBytes payload).take (8 * payload.length - p.toNat)) = p :: payload ↔
      (bitsOfBytes payload).drop (8 * payload.length - p.toNat) = zeros p.toNat := by
  generalize hk : 8 * payload.length - p.toNat = k
  have hpad : padCount ((bitsOfBytes payload).take k).length = p.toNat := by
    rw [← hk, List.length_take_of_le (by simp), padCount_sub hp hn]
  calc pack ((bitsOfBytes payload).take k) = p :: payload
    _ ↔ (bitsOfBytes payload).take k ++ zeros p.toNat = bitsOfBytes payload := pack_eq_cons_iff hpad
    _ ↔ (bitsOfBytes payload).take k ++ zeros p.toNat =
        (bitsOfBytes payload).take k ++ (bitsOfBytes payload).drop k := by
      rw [List.take_append_drop]
    _ ↔ (bitsOfBytes payload).drop k = zeros p.toNat := by rw [List.append_cancel_left_eq, eq_comm]

/-! ## The input -/

@[simp] theorem length_inputBits (s : State) : s.inputBits.length = s.inBitlen.toNat := by
  simp only [State.inputBits, List.length_take, length_bitsOfBytes, length_inBytes, ceil8]
  omega

theorem input_of_inLen_zero {s : State} (h : s.inLen.toNat = 0) : s.input = [] := by
  simp [State.input, State.inBytes, h]

theorem input_eq_cons {s : State} (h : 1 ≤ s.inLen.toNat) : s.input = s.inByte 0 :: s.input.drop 1 := by
  obtain ⟨n, hn⟩ := Nat.exists_eq_succ_of_ne_zero (Nat.ne_of_gt h)
  simp [State.input, State.inBytes, hn, List.range_succ_eq_map]

theorem length_drop_one_input (s : State) : (s.input.drop 1).length = s.inLen.toNat - 1 := by simp [State.input]

/-! ## The output -/

theorem outputs_writeOut (P : List Byte) (s : State) : outputs P (writeOut P s) :=
  ⟨rfl, fun a => get?_cellsFrom_zero a P⟩

/-! ## What PACK writes, and its completion -/

theorem packOutput_of_lt {s : State} (h : 8 * s.params.capIn < s.inBitlen.toNat) :
    packOutput s = .error { kind := .inRange, info := s.inBitlen } := by
  rw [packOutput, checkInBitlen_of_lt h, error_bind]

theorem packOutput_of_overflow {s : State} (hin : s.inBitlen.toNat ≤ 8 * s.params.capIn)
    (hout : s.params.capOut < (pack s.inputBits).length) :
    packOutput s = .error { kind := .outOverflow, info := BitVec.ofNat 32 (pack s.inputBits).length } := by
  rw [packOutput, checkInBitlen_of_le hin, ok_bind, checkFits_of_lt hout, error_bind]

theorem packOutput_of_fits {s : State} (hin : s.inBitlen.toNat ≤ 8 * s.params.capIn)
    (hout : (pack s.inputBits).length ≤ s.params.capOut) : packOutput s = .ok (pack s.inputBits) := by
  rw [packOutput, checkInBitlen_of_le hin, ok_bind, checkFits_of_le hout, ok_bind]
  rfl

theorem exec_pack_of_ok {s : State} {P : List Byte} (h : packOutput s = .ok P) :
    exec .pack s = .next (finish (writeOutBitlen s.inBitlen.toNat (writeOut P s))) := by
  obtain ⟨Q, hQ, hexec⟩ | ⟨e, he, -⟩ := execPack_cases s
  · obtain rfl : Q = P := Except.ok.inj (hQ.symm.trans h)
    exact hexec
  · cases he.symm.trans h

theorem exec_pack_of_error {s : State} {e : CmdError} (h : packOutput s = .error e) :
    exec .pack s = .next (failed e.kind.code e.info (noOutput s)) := by
  obtain ⟨Q, hQ, -⟩ | ⟨e', he, hexec⟩ := execPack_cases s
  · cases hQ.symm.trans h
  · obtain rfl : e' = e := Except.error.inj (he.symm.trans h)
    exact hexec

/-! ## What UNPACK writes, and its completion -/

theorem unpackOutput_of_lt {s : State} (h : s.params.capIn < s.inLen.toNat) :
    unpackOutput s = .error { kind := .inRange, info := s.inLen } := by
  rw [unpackOutput, checkInLen_of_lt h, error_bind]

theorem unpackOutput_of_unpack_error {s : State} {e : CmdError} (hin : s.inLen.toNat ≤ s.params.capIn)
    (h : unpack s.input 0 s.inLen = .error e) : unpackOutput s = .error e := by
  rw [unpackOutput, checkInLen_of_le hin, ok_bind, h, error_bind]

theorem unpackOutput_of_overflow {s : State} {b : BitSeq} (hin : s.inLen.toNat ≤ s.params.capIn)
    (h : unpack s.input 0 s.inLen = .ok b) (hout : s.params.capOut < (alignedBytes b).length) :
    unpackOutput s = .error { kind := .outOverflow, info := BitVec.ofNat 32 (alignedBytes b).length } := by
  rw [unpackOutput, checkInLen_of_le hin, ok_bind, h, ok_bind, checkFits_of_lt hout, error_bind]

theorem unpackOutput_of_fits {s : State} {b : BitSeq} (hin : s.inLen.toNat ≤ s.params.capIn)
    (h : unpack s.input 0 s.inLen = .ok b) (hout : (alignedBytes b).length ≤ s.params.capOut) :
    unpackOutput s = .ok (alignedBytes b, b.length) := by
  rw [unpackOutput, checkInLen_of_le hin, ok_bind, h, ok_bind, checkFits_of_le hout, ok_bind]
  rfl

theorem exec_unpack_of_ok {s : State} {P : List Byte} {n : Nat} (h : unpackOutput s = .ok (P, n)) :
    exec .unpack s = .next (finish (writeOutBitlen n (writeOut P s))) := by
  obtain ⟨Q, m, hQ, hexec⟩ | ⟨e, he, -⟩ := execUnpack_cases s
  · obtain ⟨rfl, rfl⟩ : Q = P ∧ m = n := Prod.mk.inj (Except.ok.inj (hQ.symm.trans h))
    exact hexec
  · cases he.symm.trans h

theorem exec_unpack_of_error {s : State} {e : CmdError} (h : unpackOutput s = .error e) :
    exec .unpack s = .next (failed e.kind.code e.info (noOutput s)) := by
  obtain ⟨Q, m, hQ, -⟩ | ⟨e', he, hexec⟩ := execUnpack_cases s
  · cases hQ.symm.trans h
  · obtain rfl : e' = e := Except.error.inj (he.symm.trans h)
    exact hexec

/-! ## The statements -/

/-- Settles O53: bits of whole bytes and their bytes are inverse, so the laws are those of the padding. -/
theorem packAndUnpackAreInverse : Obligations.PackAndUnpackAreInverse := by
  refine ⟨unpack_pack, fun b => ?shape, fun p payload base l b h => ?again⟩
  case shape =>
    have hpad := toNat_ofNat_padCount b.length
    refine ⟨_, _, rfl, hpad.trans_le (padCount_le _), length_pack b, ?_⟩
    rw [length_bitsOfBytes, hpad, eight_mul_length_alignedBytes]
  case again =>
    obtain ⟨hp, hn, rfl⟩ := unpack_cons_eq_ok_iff.mp h
    rw [pack_take_eq_iff hp hn, length_bitsOfBytes, zeros, List.eq_replicate_iff, List.length_drop, length_bitsOfBytes,
      Nat.sub_sub_self hn]
    exact and_iff_right rfl

/-- Settles O41: each outcome is that of the first check that fails, or the write of the packed bits. -/
theorem packWritesThePaddedBits : Obligations.PackWritesThePaddedBits := by
  intro s n b
  have hlen : (pack s.inputBits).length = 1 + ceil8 n := by rw [length_pack, length_inputBits]
  refine ⟨fun hlt => exec_pack_of_error (packOutput_of_lt hlt), fun hin hout => ?overflow, fun hin hout => ?fits⟩
  case overflow =>
    rw [← hlen] at hout ⊢
    exact exec_pack_of_error (packOutput_of_overflow hin hout)
  case fits =>
    rw [← hlen] at hout ⊢
    refine ⟨_, exec_pack_of_ok (packOutput_of_fits hin hout), outputs_writeOut (pack b) s, ?_⟩
    have hbitlen : BitVec.ofNat 32 s.inBitlen.toNat = s.inBitlen := by simp
    rw [writeOutBitlen, hbitlen]
    rfl

/-- Settles O42: the input is empty or a padding byte and a payload, and `unpack` answers by the padding byte. -/
theorem unpackWritesTheStrippedBits : Obligations.UnpackWritesTheStrippedBits := by
  intro s n p b
  have hpayload : (s.input.drop 1).length = n - 1 := length_drop_one_input s
  refine ⟨fun hlt => exec_unpack_of_error (unpackOutput_of_lt hlt), fun hin =>
    ⟨fun hzero => ?truncated, fun hpos hcorrupt => ?corrupt, fun hpos hp hn => ?stripped⟩⟩
  case truncated =>
    refine exec_unpack_of_error (e := ⟨.truncatedInput, s.inLen⟩) (unpackOutput_of_unpack_error hin ?_)
    rw [input_of_inLen_zero hzero, unpack_nil]
  case corrupt =>
    refine exec_unpack_of_error (e := ⟨.corruptHeader, 0⟩) (unpackOutput_of_unpack_error hin ?_)
    rw [input_eq_cons hpos]
    exact unpack_cons_of_corrupt 0 s.inLen (hpayload ▸ hcorrupt)
  case stripped =>
    have hb : unpack s.input 0 s.inLen = .ok b := by
      rw [input_eq_cons hpos, unpack_cons_of_le 0 s.inLen hp (hpayload ▸ hn), hpayload]
      rfl
    have hlen := length_alignedBytes b
    refine ⟨?length, fun hout => ?overflow, fun hout => ?fits⟩
    case length =>
      have : (bitsOfBytes (s.input.drop 1)).length = 8 * (n - 1) := by rw [length_bitsOfBytes, hpayload]
      exact List.length_take_of_le (this ▸ Nat.sub_le _ _)
    all_goals rw [← hlen] at hout ⊢
    case overflow => exact exec_unpack_of_error (unpackOutput_of_overflow hin hb hout)
    case fits =>
      exact ⟨_, exec_unpack_of_ok (unpackOutput_of_fits hin hb hout), outputs_writeOut (alignedBytes b) s, rfl⟩

end Sys2Proof.Machine
end

section
/-! The tree serializer's big-endian numbers (R9 of 00_scope.md), the table header byte by byte, and the completions of
SERIALIZE and PARSE (R230, R231, R233, R234 of 45_tree_serializer.md). -/

namespace Sys2Proof.Machine

open Sys2Proof.Spec

/-! ## Big-endian numbers -/

/-- The two bytes are those of the number's quotient and remainder by 256 (R9). -/
theorem be16_eq (n : Nat) : be16 n = [BitVec.ofNat 8 (n / 256), BitVec.ofNat 8 (n % 256)] := by
  simp [be16, BitVec.toNat_eq]

/-- The four bytes are the number's digits to the base 256 (R9). -/
theorem be32_eq (x : Word) : be32 x = [BitVec.ofNat 8 (x.toNat / 2 ^ 24), BitVec.ofNat 8 (x.toNat / 2 ^ 16 % 256),
    BitVec.ofNat 8 (x.toNat / 2 ^ 8 % 256), BitVec.ofNat 8 (x.toNat % 256)] := by
  simp [be32, BitVec.toNat_eq, Nat.shiftRight_eq_div_pow]

theorem rdBE16_be16 {n : Nat} (h : n < 2 ^ 16) : rdBE16 (BitVec.ofNat 8 (n / 2 ^ 8)) (BitVec.ofNat 8 n) = n := by
  simp only [rdBE16, BitVec.toNat_ofNat]
  omega

theorem toNat_rdBE32 (b0 b1 b2 b3 : Byte) : (rdBE32 b0 b1 b2 b3).toNat =
    b0.toNat * 2 ^ 24 + b1.toNat * 2 ^ 16 + b2.toNat * 2 ^ 8 + b3.toNat := by
  have h : (rdBE32 b0 b1 b2 b3).toNat = _ := toNat_wordOfLanes b3 b2 b1 b0
  omega

theorem rdBE32_be32 (x : Word) : rdBE32 (x.extractLsb' 24 8) (x.extractLsb' 16 8) (x.extractLsb' 8 8)
    (x.extractLsb' 0 8) = x := by
  have := x.isLt
  simp only [BitVec.toNat_eq, toNat_rdBE32, BitVec.extractLsb'_toNat, Nat.shiftRight_eq_div_pow]
  omega

/-! ## The header's bytes -/

/-- The five bytes of the entry of `x` (R230). -/
def headerEntry (F : FreqTable) (x : Byte) : List Byte := x :: be32 (F.get x)

theorem length_serialize_symbols (F : FreqTable) : (serialize F).length = 2 + 5 * (symbols F).length := by
  rw [length_serialize, length_present]

theorem serialize_eq (F : FreqTable) :
    serialize F = be16 (symbols F).length ++ (symbols F).flatMap (headerEntry F) := by
  rw [serialize, length_present, present_eq_map_symbols, List.flatMap_map]
  rfl

theorem length_flatMap_headerEntry (F : FreqTable) (l : List Byte) :
    (l.flatMap (headerEntry F)).length = 5 * l.length := by
  simp [List.length_flatMap, headerEntry, Nat.mul_comm]

theorem headerEntry_eq (F : FreqTable) (x : Byte) : headerEntry F x = let c := (F.get x).toNat
    [x, BitVec.ofNat 8 (c / 2 ^ 24), BitVec.ofNat 8 (c / 2 ^ 16 % 256), BitVec.ofNat 8 (c / 2 ^ 8 % 256),
      BitVec.ofNat 8 (c % 256)] := by
  rw [headerEntry, be32_eq]

theorem symbols_pairwise (F : FreqTable) : (symbols F).Pairwise (· < ·) := allSymbols_pairwise.filter _

/-! ## SERIALIZE -/

theorem exec_serialize_of_le {s : State} (h : (serialize s.freq).length ≤ s.params.capOut) : exec .serialize s =
    .next (finish (writeHdrLen (serialize s.freq).length (writeOut (serialize s.freq) s))) := by
  obtain ⟨-, hexec⟩ | ⟨hlt, -⟩ := execSerialize_cases s
  · exact hexec
  · exact absurd h (Nat.not_le.mpr hlt)

theorem exec_serialize_of_lt {s : State} (h : s.params.capOut < (serialize s.freq).length) : exec .serialize s =
    .next (failed 7 (BitVec.ofNat 32 (serialize s.freq).length) { s with outMem := [], outLen := 0, hdrLen := 0 }) := by
  obtain ⟨hle, -⟩ | ⟨-, hexec⟩ := execSerialize_cases s
  · exact absurd hle (Nat.not_le.mpr h)
  · exact hexec

/-! ## PARSE -/

theorem parseOutput_of_lt {s : State} (h : s.params.capIn < s.inLen.toNat) :
    parseOutput s = .error { kind := .inRange, info := s.inLen } := by
  rw [parseOutput, checkInLen_of_lt h, error_bind]

theorem parseOutput_of_le {s : State} (h : s.inLen.toNat ≤ s.params.capIn) : parseOutput s = parse s.input := by
  rw [parseOutput, checkInLen_of_le h, ok_bind]

theorem exec_parse_of_ok {s : State} {F : FreqTable} {H : Nat} (h : parseOutput s = .ok (F, H)) :
    exec .parse s = .next (finish (writeHdrLen H (writeFreq F s))) := by
  obtain ⟨G, K, hG, hexec⟩ | ⟨e, he, -⟩ := execParse_cases s
  · obtain ⟨rfl, rfl⟩ : G = F ∧ K = H := Prod.mk.inj (Except.ok.inj (hG.symm.trans h))
    exact hexec
  · cases he.symm.trans h

theorem exec_parse_of_error {s : State} {e : CmdError} (h : parseOutput s = .error e) :
    exec .parse s = .next (failed e.kind.code e.info { s with hdrLen := 0 }) := by
  obtain ⟨G, K, hG, -⟩ | ⟨e', he, hexec⟩ := execParse_cases s
  · cases hG.symm.trans h
  · obtain rfl : e' = e := Except.error.inj (he.symm.trans h)
    exact hexec

/-! ## The statements -/

/-- Settles O54: the header is the count and the entries of the present symbols, each number by its digits. -/
theorem headerHoldsTheEntriesInOrder : Obligations.HeaderHoldsTheEntriesInOrder := by
  intro F S
  refine ⟨?bytes, symbols_pairwise F, length_symbols_le F, length_serialize_symbols F⟩
  case bytes => rw [serialize_eq, be16_eq, funext (headerEntry_eq F)]

/-- Settles O37: each outcome is that of the header's length against CAP_OUT. -/
theorem serializeWritesTheHeader : Obligations.SerializeWritesTheHeader := by
  intro s n
  have hlen : (serialize s.freq).length = n := length_serialize_symbols s.freq
  rw [← hlen]
  exact ⟨fun hle => ⟨_, exec_serialize_of_le hle, outputs_writeOut (serialize s.freq) s, rfl⟩, exec_serialize_of_lt⟩

/-- Settles O38: PARSE answers what `parse` of the input does, after the check of IN_LEN. -/
theorem parseWritesTheTable : Obligations.ParseWritesTheTable := fun _ =>
  ⟨fun hlt => exec_parse_of_error (parseOutput_of_lt hlt), fun hle =>
    ⟨fun _ _ hok => exec_parse_of_ok ((parseOutput_of_le hle).trans hok),
      fun _ herror => exec_parse_of_error ((parseOutput_of_le hle).trans herror)⟩⟩

end Sys2Proof.Machine
end

section
/-! What `parse` does (R232 of 45_tree_serializer.md): the entries of a byte list, the loop over them, and the answer by
the first check that fails. -/

namespace Sys2Proof.Machine

/-! ## The entries of a byte list -/

/-- `N`, the number of entries that a byte list's first two bytes state (R230). -/
def headerCount (B : List Byte) : Nat := rdBE16 (B.getD 0 0) (B.getD 1 0)

/-- The symbol of entry `j` (R230). -/
def entrySym (B : List Byte) (j : Nat) : Byte := B.getD (2 + 5 * j) 0

/-- The count of entry `j` (R230). -/
def entryCount (B : List Byte) (j : Nat) : Count :=
  rdBE32 (B.getD (3 + 5 * j) 0) (B.getD (4 + 5 * j) 0) (B.getD (5 + 5 * j) 0) (B.getD (6 + 5 * j) 0)

/-- Entry `j` is not above the entry before it (R232). -/
def Disordered (B : List Byte) (j : Nat) : Prop := 0 < j ∧ entrySym B j ≤ entrySym B (j - 1)

/-- Entry `j` passes the two checks of R232. -/
def EntryValid (B : List Byte) (j : Nat) : Prop := ¬ Disordered B j ∧ entryCount B j ≠ 0

/-- The symbol before that of entry `j`, as the loop of `parse` keeps it (R232). -/
def symBefore (B : List Byte) : Nat → Option Byte
  | 0 => none
  | j + 1 => some (entrySym B j)

/-- The table that holds the first `j` entries, as the loop of `parse` fills it (R232). -/
def entryTable (B : List Byte) : Nat → FreqTable
  | 0 => Table.fill 0
  | j + 1 => (entryTable B j).set (entrySym B j) (entryCount B j)

/-- What the loop of `parse` answers at entry `j` with `k` entries to go (R232). -/
def parseFrom (B : List Byte) (k j : Nat) : Except CmdError FreqTable :=
  parseEntries B.length k j (symBefore B j) (B.drop (2 + 5 * j)) (entryTable B j)

theorem toNat_entryCount (B : List Byte) (j : Nat) : (entryCount B j).toNat =
    (B.getD (3 + 5 * j) 0).toNat * 2 ^ 24 + (B.getD (4 + 5 * j) 0).toNat * 2 ^ 16 +
      (B.getD (5 + 5 * j) 0).toNat * 2 ^ 8 + (B.getD (6 + 5 * j) 0).toNat :=
  toNat_rdBE32 _ _ _ _

theorem outOfOrder_symBefore (B : List Byte) (j : Nat) :
    outOfOrder (symBefore B j) (entrySym B j) = true ↔ Disordered B j := by
  cases j with
  | zero => simp [symBefore, outOfOrder, Disordered]
  | succ j => simp [symBefore, outOfOrder, Disordered]

theorem drop_eq_getD_cons {B : List Byte} {i k : Nat} (hi : i < B.length) (hk : i + 1 = k) :
    B.drop i = B.getD i 0 :: B.drop k := by
  rw [List.drop_eq_getElem_cons hi, List.getD_eq_getElem _ _ hi, hk]

/-! ## The loop of `parse` -/

/-- One turn of the loop: the checks of entry `j` in order, then the next entry (R232). -/
theorem parseFrom_succ {B : List Byte} {j : Nat} (k : Nat) (h : 2 + 5 * (j + 1) ≤ B.length) :
    parseFrom B (k + 1) j =
      if outOfOrder (symBefore B j) (entrySym B j) then
        .error { kind := .corruptHeader, info := BitVec.ofNat 32 (2 + 5 * j) }
      else if entryCount B j = 0 then .error { kind := .construction, info := BitVec.ofNat 32 (3 + 5 * j) }
      else parseFrom B k (j + 1) := by
  have hbytes : B.drop (2 + 5 * j) = B.getD (2 + 5 * j) 0 :: B.getD (3 + 5 * j) 0 :: B.getD (4 + 5 * j) 0 ::
      B.getD (5 + 5 * j) 0 :: B.getD (6 + 5 * j) 0 :: B.drop (2 + 5 * (j + 1)) := by
    rw [drop_eq_getD_cons (i := 2 + 5 * j) (k := 3 + 5 * j) (by omega) (by omega),
      drop_eq_getD_cons (i := 3 + 5 * j) (k := 4 + 5 * j) (by omega) (by omega),
      drop_eq_getD_cons (i := 4 + 5 * j) (k := 5 + 5 * j) (by omega) (by omega),
      drop_eq_getD_cons (i := 5 + 5 * j) (k := 6 + 5 * j) (by omega) (by omega),
      drop_eq_getD_cons (i := 6 + 5 * j) (k := 2 + 5 * (j + 1)) (by omega) (by omega)]
  rw [parseFrom, hbytes, parseEntries]
  rfl

section
variable {B : List Byte} {k j : Nat} (h : 2 + 5 * (j + 1) ≤ B.length)
include h

theorem parseFrom_of_disordered (hd : Disordered B j) : parseFrom B (k + 1) j =
    .error { kind := .corruptHeader, info := BitVec.ofNat 32 (2 + 5 * j) } := by
  rw [parseFrom_succ k h, if_pos ((outOfOrder_symBefore B j).mpr hd)]

theorem parseFrom_of_count_zero (hd : ¬ Disordered B j) (hc : entryCount B j = 0) : parseFrom B (k + 1) j =
    .error { kind := .construction, info := BitVec.ofNat 32 (3 + 5 * j) } := by
  rw [parseFrom_succ k h, if_neg ((outOfOrder_symBefore B j).not.mpr hd), if_pos hc]

theorem parseFrom_of_valid (hv : EntryValid B j) : parseFrom B (k + 1) j = parseFrom B k (j + 1) := by
  rw [parseFrom_succ k h, if_neg ((outOfOrder_symBefore B j).not.mpr hv.1), if_neg hv.2]

end

/-- The loop goes on past valid entries. -/
theorem parseFrom_zero_of_valid {B : List Byte} {j : Nat} (k : Nat) (h : 2 + 5 * j ≤ B.length)
    (hv : ∀ i, i < j → EntryValid B i) : parseFrom B (k + j) 0 = parseFrom B k j := by
  induction j generalizing k with
  | zero => rfl
  | succ j ih =>
    calc parseFrom B (k + (j + 1)) 0
      _ = parseFrom B (k + 1 + j) 0 := by rw [Nat.add_right_comm, Nat.add_assoc]
      _ = parseFrom B (k + 1) j := ih (k + 1) (by omega) fun i hi => hv i (by omega)
      _ = parseFrom B k (j + 1) := parseFrom_of_valid h (hv j j.lt_succ_self)

/-! ## `parse` by its checks -/

theorem parse_of_length_lt_two {B : List Byte} (h : B.length < 2) :
    parse B = .error { kind := .truncatedInput, info := BitVec.ofNat 32 B.length } := by
  match B, h with
  | [], _ => rfl
  | [_], _ => rfl

theorem parse_of_two_le {B : List Byte} (h : 2 ≤ B.length) : parse B =
    if 256 < headerCount B then .error { kind := .corruptHeader, info := 0 }
    else if B.length < 2 + 5 * headerCount B then .error { kind := .truncatedInput, info := BitVec.ofNat 32 B.length }
    else (parseFrom B (headerCount B) 0).map (·, 2 + 5 * headerCount B) := by
  match B, h with
  | b0 :: b1 :: rest, _ =>
    have hcount : headerCount (b0 :: b1 :: rest) = rdBE16 b0 b1 := rfl
    have hloop (k : Nat) : parseFrom (b0 :: b1 :: rest) k 0 =
        parseEntries (b0 :: b1 :: rest).length k 0 none rest (Table.fill 0) := rfl
    rw [parse, hcount, hloop]
    cases parseEntries (b0 :: b1 :: rest).length (rdBE16 b0 b1) 0 none rest (Table.fill 0) <;> rfl

theorem parse_of_count_gt {B : List Byte} (h : 2 ≤ B.length) (hN : 256 < headerCount B) :
    parse B = .error { kind := .corruptHeader, info := 0 } := by
  rw [parse_of_two_le h, if_pos hN]

theorem parse_of_truncated {B : List Byte} (h : 2 ≤ B.length) (hN : headerCount B ≤ 256)
    (hlen : B.length < 2 + 5 * headerCount B) :
    parse B = .error { kind := .truncatedInput, info := BitVec.ofNat 32 B.length } := by
  rw [parse_of_two_le h, if_neg (Nat.not_lt.mpr hN), if_pos hlen]

section
variable {B : List Byte} (hN : headerCount B ≤ 256) (hlen : 2 + 5 * headerCount B ≤ B.length)
include hN hlen

/-- Past the checks of the length, and past valid entries, `parse` answers what the loop answers at the next entry. -/
theorem parse_eq_parseFrom {j k : Nat} (hk : k + j = headerCount B) (hv : ∀ i, i < j → EntryValid B i) :
    parse B = (parseFrom B k j).map (·, 2 + 5 * headerCount B) := by
  rw [parse_of_two_le (by omega), if_neg (Nat.not_lt.mpr hN), if_neg (Nat.not_lt.mpr hlen),
    ← parseFrom_zero_of_valid k (by omega) hv, hk]

theorem parse_of_disordered {j : Nat} (hj : j < headerCount B) (hv : ∀ i, i < j → EntryValid B i)
    (hd : Disordered B j) : parse B = .error { kind := .corruptHeader, info := BitVec.ofNat 32 (2 + 5 * j) } := by
  obtain ⟨k, hk⟩ := Nat.exists_eq_add_of_lt hj
  rw [parse_eq_parseFrom hN hlen (k := k + 1) (by omega) hv, parseFrom_of_disordered (by omega) hd]
  rfl

theorem parse_of_count_zero {j : Nat} (hj : j < headerCount B) (hv : ∀ i, i < j → EntryValid B i)
    (hd : ¬ Disordered B j) (hc : entryCount B j = 0) :
    parse B = .error { kind := .construction, info := BitVec.ofNat 32 (3 + 5 * j) } := by
  obtain ⟨k, hk⟩ := Nat.exists_eq_add_of_lt hj
  rw [parse_eq_parseFrom hN hlen (k := k + 1) (by omega) hv, parseFrom_of_count_zero (by omega) hd hc]
  rfl

theorem parse_of_valid (hv : ∀ j, j < headerCount B → EntryValid B j) :
    parse B = .ok (entryTable B (headerCount B), 2 + 5 * headerCount B) :=
  parse_eq_parseFrom hN hlen (Nat.zero_add _) hv

end

/-! ## The table of the entries -/

theorem entrySym_lt {B : List Byte} {n i j : Nat} (h : ∀ j, j < n → ¬ Disordered B j) (hij : i < j) (hj : j < n) :
    entrySym B i < entrySym B j := by
  induction j with
  | zero => exact absurd hij i.not_lt_zero
  | succ j ih =>
    have hstep : entrySym B j < entrySym B (j + 1) := BitVec.not_le.mp (not_and.mp (h (j + 1) hj) j.succ_pos)
    obtain hlt | rfl := Nat.lt_succ_iff_lt_or_eq.mp hij
    · exact BitVec.lt_trans (ih hlt (by omega)) hstep
    · exact hstep

/-- Ascending symbols are distinct, so a later entry overwrites none before it. -/
theorem get_entryTable_entrySym {B : List Byte} {n i : Nat} (h : ∀ j, j < n → ¬ Disordered B j) (hi : i < n) :
    (entryTable B n).get (entrySym B i) = entryCount B i := by
  induction n with
  | zero => exact absurd hi i.not_lt_zero
  | succ n ih =>
    obtain hlt | rfl := Nat.lt_succ_iff_lt_or_eq.mp hi
    · have hne : entrySym B n ≠ entrySym B i := (BitVec.ne_of_lt (entrySym_lt h hlt n.lt_succ_self)).symm
      rw [entryTable, Table.get_set_other _ _ _ _ hne, ih (fun j hj => h j (by omega)) hlt]
    · rw [entryTable, Table.get_set_same]

theorem get_entryTable_other {B : List Byte} {n : Nat} {x : Byte} (h : ∀ j, j < n → entrySym B j ≠ x) :
    (entryTable B n).get x = 0 := by
  induction n with
  | zero => exact Table.get_fill 0 x
  | succ n ih => rw [entryTable, Table.get_set_other _ _ _ _ (h n n.lt_succ_self), ih fun j hj => h j (by omega)]

/-! ## The statement -/

/-- Settles O55: the loop reaches the first defective entry past valid ones, or fills the table with them all. -/
theorem parseReportsTheFirstDefect : Obligations.ParseReportsTheFirstDefect := by
  intro B n byte N sym cnt disordered
  have hcnt (j : Nat) : (entryCount B j).toNat = cnt j := toNat_entryCount B j
  have hzero (j : Nat) : entryCount B j = 0 ↔ cnt j = 0 := by rw [← hcnt, BitVec.toNat_eq]; rfl
  have hvalid (j : Nat) : EntryValid B j ↔ ¬ disordered j ∧ cnt j ≠ 0 := and_congr_right fun _ => (hzero j).not
  refine ⟨parse_of_length_lt_two, parse_of_count_gt, parse_of_truncated, fun hN hlen =>
    ⟨fun j hj hbefore => ?defect, fun hall => ?table⟩⟩
  case defect =>
    have hv (i : Nat) (hi : i < j) : EntryValid B i := (hvalid i).mpr (hbefore i hi)
    exact ⟨parse_of_disordered hN hlen hj hv, fun hd hc => parse_of_count_zero hN hlen hj hv hd ((hzero j).mpr hc)⟩
  case table =>
    have hget (j : Nat) (hj : j < N) : (entryTable B N).get (sym j) = entryCount B j :=
      get_entryTable_entrySym (fun i hi => (hall i hi).1) hj
    exact ⟨entryTable B N, parse_of_valid hN hlen fun j hj => (hvalid j).mpr (hall j hj),
      fun j hj => hget j hj ▸ hcnt j, fun x hx => get_entryTable_other hx⟩

end Sys2Proof.Machine
end

section
/-! The round trip of the table header (R235 of 45_tree_serializer.md): a header's entries are those of its table. -/

namespace Sys2Proof.Machine

open Sys2Proof.Spec

/-! ## The entries of a header -/

section
variable (F : FreqTable) (R : List Byte)

theorem headerCount_serialize : headerCount (serialize F ++ R) = (symbols F).length := by
  rw [serialize_eq]
  exact rdBE16_be16 ((length_symbols_le F).trans_lt (by decide))

theorem drop_flatMap_headerEntry (l : List Byte) (j : Nat) :
    (l.flatMap (headerEntry F)).drop (5 * j) = (l.drop j).flatMap (headerEntry F) := by
  induction l generalizing j with
  | nil => simp
  | cons x l ih =>
    cases j with
    | zero => rfl
    | succ j => exact ih j

/-- A header from entry `j` on is the bytes of the entry and what follows them. -/
theorem drop_serialize_append {j : Nat} (hj : j < (symbols F).length) : (serialize F ++ R).drop (2 + 5 * j) =
    headerEntry F (symbols F)[j] ++ (((symbols F).drop (j + 1)).flatMap (headerEntry F) ++ R) := by
  have hle : 5 * j ≤ ((symbols F).flatMap (headerEntry F)).length := by
    rw [length_flatMap_headerEntry]
    omega
  calc (serialize F ++ R).drop (2 + 5 * j)
    _ = ((symbols F).flatMap (headerEntry F) ++ R).drop (5 * j) := by rw [serialize_eq, ← List.drop_drop]; rfl
    _ = ((symbols F).drop j).flatMap (headerEntry F) ++ R := by
      rw [List.drop_append_of_le_length hle, drop_flatMap_headerEntry]
    _ = _ := by rw [List.drop_eq_getElem_cons hj, List.flatMap_cons, List.append_assoc]

/-- The byte `i` places into entry `j`. -/
theorem getD_serialize_append {i j : Nat} (hj : j < (symbols F).length) (hi : i < 5) :
    (serialize F ++ R).getD (2 + 5 * j + i) 0 = (headerEntry F (symbols F)[j]).getD i 0 := by
  rw [List.getD_eq_getElem?_getD, ← List.getElem?_drop, drop_serialize_append F R hj, List.getElem?_append_left hi,
    List.getD_eq_getElem?_getD]

theorem entrySym_serialize {j : Nat} (hj : j < (symbols F).length) :
    entrySym (serialize F ++ R) j = (symbols F)[j] :=
  getD_serialize_append F R (i := 0) hj (by decide)

theorem entryCount_serialize {j : Nat} (hj : j < (symbols F).length) :
    entryCount (serialize F ++ R) j = F.get (symbols F)[j] := by
  have hbyte (i k : Nat) (hi : i < 5) (hk : 2 + 5 * j + i = k) :
      (serialize F ++ R).getD k 0 = (headerEntry F (symbols F)[j]).getD i 0 := hk ▸ getD_serialize_append F R hj hi
  rw [entryCount, hbyte 1 _ (by decide) (by omega), hbyte 2 _ (by decide) (by omega), hbyte 3 _ (by decide) (by omega),
    hbyte 4 _ (by decide) (by omega)]
  exact rdBE32_be32 _

/-- The symbols are ascending and present, so every entry passes the checks of R232. -/
theorem entryValid_serialize {j : Nat} (hj : j < (symbols F).length) : EntryValid (serialize F ++ R) j := by
  refine ⟨?ordered, ?nonzero⟩
  case ordered =>
    rintro ⟨hpos, hle⟩
    rw [entrySym_serialize F R hj, entrySym_serialize F R (by omega)] at hle
    have hlt := List.pairwise_iff_getElem.mp (symbols_pairwise F) (j - 1) j (by omega) hj (by omega)
    exact BitVec.not_le.mpr hlt hle
  case nonzero =>
    rw [entryCount_serialize F R hj]
    exact mem_symbols.mp (List.getElem_mem hj)

/-- The entries fill the table they were taken from: a present symbol is that of an entry, an absent one of none. -/
theorem entryTable_serialize : entryTable (serialize F ++ R) (symbols F).length = F := by
  refine Table.ext_get _ _ fun x => ?_
  by_cases hx : x ∈ symbols F
  · obtain ⟨j, hj, rfl⟩ := List.getElem_of_mem hx
    rw [← entrySym_serialize F R hj, get_entryTable_entrySym (fun i hi => (entryValid_serialize F R hi).1) hj,
      entryCount_serialize F R hj, entrySym_serialize F R hj]
  · have habsent : F.get x = 0 := not_not.mp (mem_symbols.not.mp hx)
    rw [habsent]
    refine get_entryTable_other fun j hj heq => hx ?_
    rw [← heq, entrySym_serialize F R hj]
    exact List.getElem_mem hj

end

/-! ## The statement -/

/-- Settles O56: every entry of a header is valid, and together they are its table. -/
theorem parseOfSerializeIsTheTable : Obligations.ParseOfSerializeIsTheTable := by
  intro F R
  have hcount : headerCount (serialize F ++ R) = (symbols F).length := headerCount_serialize F R
  have hlen : (serialize F).length = 2 + 5 * (symbols F).length := length_serialize_symbols F
  have hparse := parse_of_valid (B := serialize F ++ R) (hcount.trans_le (length_symbols_le F))
    (by rw [hcount, ← hlen, List.length_append]; exact Nat.le_add_right _ _)
    fun j hj => entryValid_serialize F R (hcount ▸ hj)
  rw [hparse, hcount, entryTable_serialize, hlen]

end Sys2Proof.Machine
end

section
/-! The decode walk (R261 of 46_codec.md): one bit, a path to a leaf, what a walk that succeeds has read, and where a
walk fails. -/

namespace Sys2Proof.Machine

/-! ## The values and the errors of a mapped computation -/

theorem map_eq_ok_iff {α β : Type} {x : Except CmdError α} {f : α → β} {b : β} :
    x.map f = .ok b ↔ ∃ a, x = .ok a ∧ f a = b := by
  cases x <;> simp [Except.map]

theorem map_eq_error_iff {α β : Type} {x : Except CmdError α} {f : α → β} {e : CmdError} :
    x.map f = .error e ↔ x = .error e := by
  cases x <;> simp [Except.map]

/-! ## Nodes that are no leaf -/

/-- On one bit a node has no child, a leaf, or a child to go on from: the three cases of the loop of R261. -/
theorem Node.child_cases (n : Node) (b : Bool) : n.child b = none ∨ (∃ x w, n.child b = some (.leaf x w)) ∨
    ∃ m, n.child b = some m ∧ ∀ x w, m ≠ .leaf x w := by
  match n.child b with
  | none => exact .inl rfl
  | some (.leaf x w) => exact .inr (.inl ⟨x, w, rfl⟩)
  | some (.inner _ _ _) => exact .inr (.inr ⟨_, rfl, fun _ _ => Node.noConfusion⟩)
  | some (.single _ _) => exact .inr (.inr ⟨_, rfl, fun _ _ => Node.noConfusion⟩)

theorem Node.follow_cons (n : Node) (b : Bool) (p : BitSeq) :
    n.follow (b :: p) = (n.child b).bind fun m => m.follow p := by
  rw [follow]

theorem Node.follow_append_singleton {n m : Node} {p : BitSeq} (h : n.follow p = some m) (b : Bool) :
    n.follow (p ++ [b]) = m.child b := by
  rw [follow_append, h, Option.bind_some, follow_cons]
  simp

theorem Node.innerCount_child_lt {n m : Node} {b : Bool} (h : n.child b = some m) : m.innerCount < n.innerCount := by
  match n, b, h with
  | .inner _ l r, false, rfl => simp only [innerCount]; omega
  | .inner _ l r, true, rfl => simp only [innerCount]; omega
  | .single _ l, false, rfl => exact Nat.lt_succ_self _

theorem Node.innerCount_add_length_le {n m : Node} {p : BitSeq} (h : n.follow p = some m) :
    m.innerCount + p.length ≤ n.innerCount := by
  induction p generalizing n with
  | nil =>
    obtain rfl : n = m := Option.some.inj ((follow_nil n).symm.trans h)
    exact Nat.le_refl _
  | cons b p ih =>
    obtain ⟨c, hc, hp⟩ := Option.bind_eq_some_iff.mp ((follow_cons n b p).symm.trans h)
    have hlt := innerCount_child_lt hc
    have hle := ih hp
    rw [List.length_cons]
    omega

/-- No node stands below itself, so `cur = r` of R261 holds at the root alone. -/
theorem Node.eq_nil_of_follow_self {n : Node} {p : BitSeq} (h : n.follow p = some n) : p = [] := by
  have := innerCount_add_length_le h
  exact List.eq_nil_of_length_eq_zero (by omega)

theorem Node.exists_leaf_path (n : Node) : ∃ p x w, n.follow p = some (.leaf x w) := by
  induction n with
  | leaf x w => exact ⟨[], x, w, rfl⟩
  | inner _ l _ ihl _ =>
    obtain ⟨p, x, w, hp⟩ := ihl
    exact ⟨false :: p, x, w, hp⟩
  | single _ l ih =>
    obtain ⟨p, x, w, hp⟩ := ih
    exact ⟨false :: p, x, w, hp⟩

/-! ## One bit, and a path to a leaf -/

/-- A bit with a child leads back to the root with a symbol, or into the tree with none; the walk goes on from there. -/
theorem exists_walkFrom_step {cur m : Node} {b : Bool} (r : Node) (i : Nat) (h : cur.child b = some m) :
    ∃ nxt out, (nxt = r ∨ ∀ x w, nxt ≠ .leaf x w) ∧ out.length ≤ 1 ∧
      ∀ rest, walkFrom r cur i (b :: rest) = (walkFrom r nxt (i + 1) rest).map (out ++ ·) := by
  obtain hnone | ⟨x, w, hleaf⟩ | ⟨nxt, hnxt, hinside⟩ := cur.child_cases b
  · cases hnone.symm.trans h
  · exact ⟨r, [x], .inl rfl, Nat.le_refl 1, fun rest => walkFrom_leaf r cur i b rest x w hleaf⟩
  · refine ⟨nxt, [], .inr hinside, Nat.zero_le 1, fun rest => ?_⟩
    rw [walkFrom_inside r cur nxt i b rest hnxt hinside]
    cases walkFrom r nxt (i + 1) rest <;> rfl

/-- Every symbol takes a bit. -/
theorem length_le_of_walkFrom {r cur : Node} {i : Nat} {b : BitSeq} {D : List Byte}
    (h : walkFrom r cur i b = .ok D) : D.length ≤ b.length := by
  induction b generalizing cur i D with
  | nil =>
    rw [walkFrom_nil] at h
    split at h <;> cases h
    exact Nat.le_refl 0
  | cons b rest ih =>
    cases hm : cur.child b with
    | none => cases (walkFrom_none r cur i b rest hm).symm.trans h
    | some m =>
      obtain ⟨nxt, out, -, hout, hstep⟩ := exists_walkFrom_step r i hm
      obtain ⟨D', hD', rfl⟩ := map_eq_ok_iff.mp ((hstep rest).symm.trans h)
      have hle := ih hD'
      rw [List.length_append, List.length_cons]
      omega

/-- A path to a leaf is read as its symbol, and the walk goes on at the root. -/
theorem walkFrom_follow_leaf {cur : Node} {p : BitSeq} {x : Byte} {w : Weight} (r : Node) (i : Nat) (rest : BitSeq)
    (hcur : ∀ x w, cur ≠ .leaf x w) (h : cur.follow p = some (.leaf x w)) :
    walkFrom r cur i (p ++ rest) = (walkFrom r r (i + p.length) rest).map (x :: ·) := by
  induction p generalizing cur i with
  | nil => exact absurd (Option.some.inj ((Node.follow_nil cur).symm.trans h)) (hcur x w)
  | cons b p ih =>
    obtain ⟨m, hm, hp⟩ := Option.bind_eq_some_iff.mp ((cur.follow_cons b p).symm.trans h)
    have hlen : i + 1 + p.length = i + (b :: p).length := by rw [List.length_cons]; omega
    obtain hnone | ⟨y, v, hleaf⟩ | ⟨nxt, hnxt, hinside⟩ := cur.child_cases b
    · cases hnone.symm.trans hm
    · obtain rfl : m = .leaf y v := Option.some.inj (hm.symm.trans hleaf)
      obtain ⟨rfl, hxy⟩ := Node.follow_leaf_eq_some_iff.mp hp
      cases hxy
      exact walkFrom_leaf r cur i b rest x w hleaf
    · obtain rfl : m = nxt := Option.some.inj (hm.symm.trans hnxt)
      rw [List.cons_append, walkFrom_inside r cur m i b _ hnxt hinside, ih (i + 1) hinside hp, hlen]

/-! ## What a walk that succeeds has read -/

/-- `b` is the concatenation of paths from the node to leaves, and `D` their symbols in order. -/
def Node.ReadsAs (n : Node) (b : BitSeq) (D : List Byte) : Prop :=
  ∃ L : List (Byte × BitSeq), (∀ e ∈ L, ∃ w, n.follow e.2 = some (.leaf e.1 w)) ∧ D = L.map Prod.fst ∧
    b = (L.map Prod.snd).flatten

theorem Node.readsAs_nil (n : Node) : n.ReadsAs [] [] := ⟨[], by simp⟩

theorem Node.ReadsAs.cons {n : Node} {p b : BitSeq} {x : Byte} {w : Weight} {D : List Byte} (h : n.ReadsAs b D)
    (hp : n.follow p = some (.leaf x w)) : n.ReadsAs (p ++ b) (x :: D) := by
  obtain ⟨L, hL, rfl, rfl⟩ := h
  exact ⟨(x, p) :: L, List.forall_mem_cons.mpr ⟨⟨w, hp⟩, hL⟩, rfl, rfl⟩

/-- A walk that has come to `cur` by the path `p` and succeeds has read paths to leaves, the first of which `p` begins. -/
theorem readsAs_of_walkFrom {r cur : Node} {i : Nat} {p b : BitSeq} {D : List Byte} (hp : r.follow p = some cur)
    (h : walkFrom r cur i b = .ok D) : r.ReadsAs (p ++ b) D := by
  induction b generalizing cur i p D with
  | nil =>
    rw [walkFrom_nil] at h
    split at h
    case isTrue hroot =>
      cases h
      subst hroot
      rw [Node.eq_nil_of_follow_self hp]
      exact cur.readsAs_nil
    case isFalse => cases h
  | cons b rest ih =>
    have hpb : r.follow (p ++ [b]) = cur.child b := Node.follow_append_singleton hp b
    rw [List.append_cons]
    obtain hnone | ⟨x, w, hleaf⟩ | ⟨nxt, hnxt, hinside⟩ := cur.child_cases b
    · cases (walkFrom_none r cur i b rest hnone).symm.trans h
    · rw [walkFrom_leaf r cur i b rest x w hleaf] at h
      obtain ⟨D', hD', rfl⟩ := map_eq_ok_iff.mp h
      exact (ih (Node.follow_nil r) hD').cons (hpb.trans hleaf)
    · rw [walkFrom_inside r cur nxt i b rest hnxt hinside] at h
      exact ih (hpb.trans hnxt) h

/-- The walk reads a concatenation of paths to leaves path by path. -/
theorem walkFrom_of_readsAs {r : Node} {b : BitSeq} {D : List Byte} (hr : ∀ x w, r ≠ .leaf x w) (i : Nat)
    (h : r.ReadsAs b D) : walkFrom r r i b = .ok D := by
  obtain ⟨L, hL, rfl, rfl⟩ := h
  induction L generalizing i with
  | nil => exact (walkFrom_nil r r i).trans (if_pos rfl)
  | cons e L ih =>
    obtain ⟨⟨w, he⟩, hL⟩ := List.forall_mem_cons.mp hL
    rw [List.map_cons, List.flatten_cons, walkFrom_follow_leaf r i _ hr he, ih (i + e.2.length) hL]
    rfl

/-! ## Where a walk fails -/

/-- At `cur` the bits `b` can be completed to a stream that the walk decodes. -/
def Completable (r cur : Node) (i : Nat) (b : BitSeq) : Prop := ∃ c D, walkFrom r cur i (b ++ c) = .ok D

/-- From inside the tree some path leads to a leaf, where the stream may end. -/
theorem completable_nil {r cur : Node} (i : Nat) (hcur : ∀ x w, cur ≠ .leaf x w) : Completable r cur i [] := by
  obtain ⟨p, x, w, hp⟩ := cur.exists_leaf_path
  refine ⟨p, [x], ?_⟩
  have hpath := walkFrom_follow_leaf r i [] hcur hp
  rwa [List.append_nil, walkFrom_nil, if_pos rfl] at hpath

theorem not_completable_of_child_none {r cur : Node} {b : Bool} (i : Nat) (p : BitSeq) (h : cur.child b = none) :
    ¬ Completable r cur i (b :: p) := by
  rintro ⟨c, D, hD⟩
  cases (walkFrom_none r cur i b (p ++ c) h).symm.trans hD

theorem completable_cons_iff {r cur nxt : Node} {i : Nat} {b : Bool} {out : List Byte}
    (h : ∀ rest, walkFrom r cur i (b :: rest) = (walkFrom r nxt (i + 1) rest).map (out ++ ·)) (p : BitSeq) :
    Completable r cur i (b :: p) ↔ Completable r nxt (i + 1) p := by
  simp only [Completable, List.cons_append, h, map_eq_ok_iff]
  constructor
  · rintro ⟨c, -, D, hD, -⟩
    exact ⟨c, D, hD⟩
  · rintro ⟨c, D, hD⟩
    exact ⟨c, out ++ D, D, hD, rfl⟩

/-- A walk that fails names the first bit after which no completion is left, or the end of the stream (R261). -/
theorem walkFrom_error_cases {r cur : Node} {i : Nat} {b : BitSeq} {e : CmdError} (hr : ∀ x w, r ≠ .leaf x w)
    (hcur : ∀ x w, cur ≠ .leaf x w) (h : walkFrom r cur i b = .error e) : ∃ k, k ≤ b.length ∧
      e = { kind := .malformedStream, info := BitVec.ofNat 32 (i + k) } ∧ Completable r cur i (b.take k) ∧
      (k < b.length → ¬ Completable r cur i (b.take (k + 1))) := by
  induction b generalizing cur i with
  | nil =>
    rw [walkFrom_nil] at h
    split at h <;> cases h
    exact ⟨0, Nat.le_refl 0, rfl, completable_nil i hcur, fun hlt => absurd hlt (Nat.lt_irrefl 0)⟩
  | cons b rest ih =>
    cases hm : cur.child b with
    | none =>
      cases (walkFrom_none r cur i b rest hm).symm.trans h
      exact ⟨0, Nat.zero_le _, rfl, completable_nil i hcur, fun _ => not_completable_of_child_none i _ hm⟩
    | some m =>
      obtain ⟨nxt, out, hnxt, -, hstep⟩ := exists_walkFrom_step r i hm
      have hinside : ∀ x w, nxt ≠ .leaf x w := hnxt.elim (fun heq => heq ▸ hr) id
      obtain ⟨k, hk, rfl, hbefore, hafter⟩ := ih hinside (map_eq_error_iff.mp ((hstep rest).symm.trans h))
      refine ⟨k + 1, Nat.succ_le_succ hk, by rw [Nat.add_right_comm, Nat.add_assoc], ?_, fun hlt => ?_⟩
      · exact (completable_cons_iff hstep _).mpr hbefore
      · exact (completable_cons_iff hstep _).not.mpr (hafter (Nat.lt_of_succ_lt_succ hlt))

/-! ## The statement -/

theorem walk_empty (b : BitSeq) :
    walk .empty b = if b = [] then .ok [] else .error { kind := .malformedStream, info := 0 } := by
  simp only [walk, List.length_eq_zero_iff]

theorem length_le_of_walk {T : HuffTree} {b : BitSeq} {D : List Byte} (h : walk T b = .ok D) : D.length ≤ b.length := by
  cases T with
  | empty =>
    rw [walk_empty] at h
    split at h <;> cases h
    exact Nat.zero_le _
  | root r => exact length_le_of_walkFrom h

/-- Settles O57: the walk reads paths to leaves one by one, and fails where no completion is left. -/
theorem walkDecodesExactlyLeafPaths : Obligations.WalkDecodesExactlyLeafPaths := by
  refine ⟨walk_empty, fun n hn b => ⟨fun D => ⟨fun h => ?reads, fun h => ?walks⟩, fun e h => ?fails⟩⟩
  case reads => exact readsAs_of_walkFrom (p := []) (Node.follow_nil n) h
  case walks => exact walkFrom_of_readsAs hn 0 h
  case fails =>
    obtain ⟨k, hk, he, hbefore, hafter⟩ := walkFrom_error_cases hn hn h
    exact ⟨k, hk, he.trans (by rw [Nat.zero_add]), hbefore, fun hlt c D hD => hafter hlt ⟨c, D, hD⟩⟩

end Sys2Proof.Machine
end

section
/-! ENCODE and COMPRESS (R262, R264, R266 of 46_codec.md): the input's bytes, what each writes, and the completions. -/

namespace Sys2Proof.Machine

open Sys2Proof.Spec

/-! ## The input's bytes -/

theorem take_inBytes (s : State) {i n : Nat} (h : i ≤ n) : (s.inBytes n).take i = s.inBytes i := by
  rw [State.inBytes, ← List.map_take, List.take_range, Nat.min_eq_left h]
  rfl

theorem drop_inBytes_eq_cons (s : State) {i n : Nat} (h : i < n) :
    (s.inBytes n).drop i = s.inByte i :: (s.inBytes n).drop (i + 1) := by
  rw [List.drop_eq_getElem_cons (by simpa using h)]
  simp [State.inBytes]

theorem inBytes_eq_append_cons (s : State) {i n : Nat} (h : i < n) :
    s.inBytes n = s.inBytes i ++ s.inByte i :: (s.inBytes n).drop (i + 1) := by
  rw [← drop_inBytes_eq_cons s h, ← take_inBytes s (Nat.le_of_lt h), List.take_append_drop]

theorem forall_mem_inBytes (s : State) (n : Nat) (P : Byte → Prop) :
    (∀ x ∈ s.inBytes n, P x) ↔ ∀ i, i < n → P (s.inByte i) := by
  simp [State.inBytes]

/-! ## What ENCODE writes, and its completion -/

theorem checkCodeValid_of_true {s : State} (h : s.codeValid = true) : checkCodeValid s = .ok () := if_pos h

theorem checkCodeValid_of_false {s : State} (h : s.codeValid = false) :
    checkCodeValid s = .error { kind := .notReady, info := 0 } :=
  if_neg (ne_true_of_eq_false h)

theorem encodeOutput_of_lt {s : State} (h : s.params.capIn < s.inLen.toNat) :
    encodeOutput s = .error { kind := .inRange, info := s.inLen } := by
  rw [encodeOutput, checkInLen_of_lt h, error_bind]

section
variable {s : State} (hin : s.inLen.toNat ≤ s.params.capIn)
include hin

theorem encodeOutput_of_not_ready (hvalid : s.codeValid = false) :
    encodeOutput s = .error { kind := .notReady, info := 0 } := by
  rw [encodeOutput, checkInLen_of_le hin, ok_bind, checkCodeValid_of_false hvalid, error_bind]

variable (hvalid : s.codeValid = true)
include hvalid

theorem encodeOutput_of_encodeBits_error {e : CmdError} (h : encodeBits s.codeOf s.input 0 = .error e) :
    encodeOutput s = .error e := by
  rw [encodeOutput, checkInLen_of_le hin, ok_bind, checkCodeValid_of_true hvalid, ok_bind, h, error_bind]

variable {b : BitSeq} (hb : encodeBits s.codeOf s.input 0 = .ok b)
include hb

theorem encodeOutput_of_overflow (hout : s.params.capOut < (pack b).length) :
    encodeOutput s = .error { kind := .outOverflow, info := BitVec.ofNat 32 (pack b).length } := by
  rw [encodeOutput, checkInLen_of_le hin, ok_bind, checkCodeValid_of_true hvalid, ok_bind, hb, ok_bind,
    checkFits_of_lt hout, error_bind]

theorem encodeOutput_of_fits (hout : (pack b).length ≤ s.params.capOut) :
    encodeOutput s = .ok (pack b, b.length) := by
  rw [encodeOutput, checkInLen_of_le hin, ok_bind, checkCodeValid_of_true hvalid, ok_bind, hb, ok_bind,
    checkFits_of_le hout, ok_bind]
  rfl

end

theorem exec_encode_of_ok {s : State} {P : List Byte} {n : Nat} (h : encodeOutput s = .ok (P, n)) :
    exec .encode s = .next (finish (writeOutBitlen n (writeOut P s))) := by
  obtain ⟨Q, m, hQ, hexec⟩ | ⟨e, he, -⟩ := execEncode_cases s
  · obtain ⟨rfl, rfl⟩ : Q = P ∧ m = n := Prod.mk.inj (Except.ok.inj (hQ.symm.trans h))
    exact hexec
  · cases he.symm.trans h

theorem exec_encode_of_error {s : State} {e : CmdError} (h : encodeOutput s = .error e) :
    exec .encode s = .next (failed e.kind.code e.info (noOutput s)) := by
  obtain ⟨Q, m, hQ, -⟩ | ⟨e', he, hexec⟩ := execEncode_cases s
  · cases hQ.symm.trans h
  · obtain rfl : e' = e := Except.error.inj (he.symm.trans h)
    exact hexec

/-! ## What COMPRESS writes, and its completion -/

/-- The input's bits under the codes of its own table (R264). -/
def inputCodeBits (s : State) : BitSeq := (s.input.map (derive (build (count s.input))).get).flatten

/-- Every byte of the input is counted, so it has a code: COMPRESS raises no UNMAPPED_SYMBOL (R264). -/
theorem compressBits_input (s : State) : compressBits s.input = .ok (inputCodeBits s) := by
  refine encodeBits_ok _ s.input 0 fun x hx => ?_
  obtain ⟨hcode, -⟩ := derivedCodesAreACompletePrefixCode (count s.input)
  have hcount : ((count s.input).get x).toNat ≠ 0 := by
    rw [toNat_get_count (length_input_lt s)]
    exact Nat.ne_of_gt (List.count_pos_iff.mpr hx)
  exact (hcode x).mpr fun hzero => hcount (hzero ▸ rfl)

theorem length_artifact (F : FreqTable) (b : BitSeq) :
    (artifact F b).length = 3 + 5 * (symbols F).length + ceil8 b.length := by
  rw [artifact, List.length_append, length_serialize_symbols, length_pack]
  omega

theorem compressOutput_of_overflow {s : State}
    (h : s.params.capOut < (artifact (count s.input) (inputCodeBits s)).length) : compressOutput s =
      .error { kind := .outOverflow, info := BitVec.ofNat 32 (artifact (count s.input) (inputCodeBits s)).length } := by
  rw [compressOutput, compressBits_input, ok_bind, checkFits_of_lt h, error_bind]

theorem compressOutput_of_fits {s : State}
    (h : (artifact (count s.input) (inputCodeBits s)).length ≤ s.params.capOut) :
    compressOutput s = .ok (artifact (count s.input) (inputCodeBits s), (inputCodeBits s).length) := by
  rw [compressOutput, compressBits_input, ok_bind, checkFits_of_le h, ok_bind]
  rfl

theorem exec_compress_of_lt {s : State} (h : s.params.capIn < s.inLen.toNat) :
    exec .compress s = .next (failed 6 s.inLen (noArtifact s)) := by
  obtain ⟨-, hexec⟩ | ⟨hle, -⟩ | ⟨hle, -⟩ := execCompress_cases s
  · exact hexec
  all_goals exact absurd hle (Nat.not_le.mpr h)

theorem exec_compress_of_error {s : State} {e : CmdError} (hin : s.inLen.toNat ≤ s.params.capIn)
    (h : compressOutput s = .error e) :
    exec .compress s = .next (failed e.kind.code e.info (noArtifact (commitCompress s))) := by
  obtain ⟨hlt, -⟩ | ⟨-, e', he, hexec⟩ | ⟨-, B, m, hB, -⟩ := execCompress_cases s
  · exact absurd hin (Nat.not_le.mpr hlt)
  · obtain rfl : e' = e := Except.error.inj (he.symm.trans h)
    exact hexec
  · cases hB.symm.trans h

theorem exec_compress_of_ok {s : State} {A : List Byte} {n : Nat} (hin : s.inLen.toNat ≤ s.params.capIn)
    (h : compressOutput s = .ok (A, n)) : exec .compress s =
      .next (finish (writeHdrLen (serialize (count s.input)).length
        (writeOutBitlen n (writeOut A (commitCompress s))))) := by
  obtain ⟨hlt, -⟩ | ⟨-, e, he, -⟩ | ⟨-, B, m, hB, hexec⟩ := execCompress_cases s
  · exact absurd hin (Nat.not_le.mpr hlt)
  · cases he.symm.trans h
  · obtain ⟨rfl, rfl⟩ : B = A ∧ m = n := Prod.mk.inj (Except.ok.inj (hB.symm.trans h))
    exact hexec

/-! ## The statements -/

/-- Settles O39: the first check that fails decides; the first byte with no code is where `encode_bits` raises. -/
theorem encodeWritesThePackedCodes : Obligations.EncodeWritesThePackedCodes := by
  intro s n b
  refine ⟨fun hlt => exec_encode_of_error (encodeOutput_of_lt hlt), fun hin hvalid => ?notReady,
    fun hin hvalid => ⟨fun i hi hnone hbefore => ?unmapped, fun hall => ?mapped⟩⟩
  case notReady => exact exec_encode_of_error (encodeOutput_of_not_ready hin hvalid)
  case unmapped =>
    refine exec_encode_of_error (e := ⟨.unmappedSymbol, BitVec.ofNat 32 i⟩)
      (encodeOutput_of_encodeBits_error hin hvalid ?_)
    rw [State.input, inBytes_eq_append_cons s hi, encodeBits_error _ _ _ _ _
      ((forall_mem_inBytes s i (s.codeOf · ≠ [])).mpr hbefore) hnone, length_inBytes, Nat.zero_add]
  case mapped =>
    have hcodes : b = (s.input.map s.codeOf).flatten := by rw [State.input, State.inBytes, List.map_map]; rfl
    have hb : encodeBits s.codeOf s.input 0 = .ok b :=
      hcodes ▸ encodeBits_ok _ _ 0 ((forall_mem_inBytes s n (s.codeOf · ≠ [])).mpr hall)
    rw [← length_pack b]
    exact ⟨fun hout => exec_encode_of_error (encodeOutput_of_overflow hin hvalid hb hout), fun hout =>
      ⟨_, exec_encode_of_ok (encodeOutput_of_fits hin hvalid hb hout), outputs_writeOut (pack b) s, rfl⟩⟩

/-- Settles O43: every input byte has a code, so only the input's and the artifact's length can fail. -/
theorem compressWritesTheArtifact : Obligations.CompressWritesTheArtifact := by
  intro s n X F C b len u
  have hlen : (artifact F b).length = len := length_artifact F b
  rw [← hlen, ← length_serialize_symbols F]
  exact ⟨exec_compress_of_lt, fun hin hout => exec_compress_of_error hin (compressOutput_of_overflow hout),
    fun hin hout => ⟨_, exec_compress_of_ok hin (compressOutput_of_fits hout),
      outputs_writeOut (artifact F b) (commitCompress s), rfl⟩⟩

end Sys2Proof.Machine
end

section
/-! DECODE and DECOMPRESS (R263, R265 of 46_codec.md): the packed bits in the input, what each writes, and the
completions. -/

namespace Sys2Proof.Machine

open Sys2Proof.Spec

/-! ## The packed bits from an offset of the input on -/

section
variable (s : State) (base : Nat) (l : Word) {k n : Nat}

theorem unpack_drop_of_end (h : n ≤ k) :
    unpack ((s.inBytes n).drop k) base l = .error { kind := .truncatedInput, info := l } := by
  rw [List.drop_eq_nil_of_le (by simpa using h), unpack_nil]

theorem length_drop_inBytes : ((s.inBytes n).drop (k + 1)).length = n - k - 1 := by
  rw [List.length_drop, length_inBytes, Nat.sub_add_eq]

theorem unpack_drop_of_corrupt (h : k < n) (hp : 7 < (s.inByte k).toNat ∨ 8 * (n - k - 1) < (s.inByte k).toNat) :
    unpack ((s.inBytes n).drop k) base l = .error { kind := .corruptHeader, info := BitVec.ofNat 32 base } := by
  rw [drop_inBytes_eq_cons s h]
  exact unpack_cons_of_corrupt base l (by rwa [length_drop_inBytes])

theorem unpack_drop_of_le (h : k < n) (hp : (s.inByte k).toNat ≤ 7)
    (hn : (s.inByte k).toNat ≤ 8 * (n - k - 1)) : unpack ((s.inBytes n).drop k) base l =
      .ok ((bitsOfBytes ((s.inBytes n).drop (k + 1))).take (8 * (n - k - 1) - (s.inByte k).toNat)) := by
  rw [drop_inBytes_eq_cons s h, unpack_cons_of_le base l hp (by rwa [length_drop_inBytes]), length_drop_inBytes]

end

/-! ## What DECODE writes, and its completion -/

theorem readTree_of_some {s : State} {T : HuffTree} (h : s.tree = some T) : readTree s = .ok T := by
  rw [readTree, h]

theorem readTree_of_none {s : State} (h : s.tree = none) : readTree s = .error { kind := .notReady, info := 0 } := by
  rw [readTree, h]

theorem decodeOutput_of_lt {s : State} (h : s.params.capIn < s.inLen.toNat) :
    decodeOutput s = .error { kind := .inRange, info := s.inLen } := by
  rw [decodeOutput, checkInLen_of_lt h, error_bind]

section
variable {s : State} (hin : s.inLen.toNat ≤ s.params.capIn)
include hin

theorem decodeOutput_of_not_ready (htree : s.tree = none) :
    decodeOutput s = .error { kind := .notReady, info := 0 } := by
  rw [decodeOutput, checkInLen_of_le hin, ok_bind, readTree_of_none htree, error_bind]

variable {T : HuffTree} (htree : s.tree = some T)
include htree

theorem decodeOutput_of_unpack_error {e : CmdError} (h : unpack s.input 0 s.inLen = .error e) :
    decodeOutput s = .error e := by
  rw [decodeOutput, checkInLen_of_le hin, ok_bind, readTree_of_some htree, ok_bind, h, error_bind]

variable {b : BitSeq} (hb : unpack s.input 0 s.inLen = .ok b)
include hb

theorem decodeOutput_of_walk_error {e : CmdError} (h : walk T b = .error e) : decodeOutput s = .error e := by
  rw [decodeOutput, checkInLen_of_le hin, ok_bind, readTree_of_some htree, ok_bind, hb, ok_bind, h, error_bind]

variable {D : List Byte} (hD : walk T b = .ok D)
include hD

theorem decodeOutput_of_overflow (hout : s.params.capOut < D.length) :
    decodeOutput s = .error { kind := .outOverflow, info := BitVec.ofNat 32 D.length } := by
  rw [decodeOutput, checkInLen_of_le hin, ok_bind, readTree_of_some htree, ok_bind, hb, ok_bind, hD, ok_bind,
    checkFits_of_lt hout, error_bind]

theorem decodeOutput_of_fits (hout : D.length ≤ s.params.capOut) : decodeOutput s = .ok (D, b.length) := by
  rw [decodeOutput, checkInLen_of_le hin, ok_bind, readTree_of_some htree, ok_bind, hb, ok_bind, hD, ok_bind,
    checkFits_of_le hout, ok_bind]
  rfl

end

theorem exec_decode_of_ok {s : State} {D : List Byte} {n : Nat} (h : decodeOutput s = .ok (D, n)) :
    exec .decode s = .next (finish (writeOutBitlen n (writeOut D s))) := by
  obtain ⟨E, m, hE, hexec⟩ | ⟨e, he, -⟩ := execDecode_cases s
  · obtain ⟨rfl, rfl⟩ : E = D ∧ m = n := Prod.mk.inj (Except.ok.inj (hE.symm.trans h))
    exact hexec
  · cases he.symm.trans h

theorem exec_decode_of_error {s : State} {e : CmdError} (h : decodeOutput s = .error e) :
    exec .decode s = .next (failed e.kind.code e.info (noOutput s)) := by
  obtain ⟨E, m, hE, -⟩ | ⟨e', he, hexec⟩ := execDecode_cases s
  · cases hE.symm.trans h
  · obtain rfl : e' = e := Except.error.inj (he.symm.trans h)
    exact hexec

/-! ## What DECOMPRESS reads and writes, and its completion -/

/-- A header that parses lies within the bytes (R232). -/
theorem length_le_of_parse {B : List Byte} {F : FreqTable} {H : Nat} (h : parse B = .ok (F, H)) : H ≤ B.length := by
  by_cases htwo : B.length < 2
  · cases (parse_of_length_lt_two htwo).symm.trans h
  · rw [parse_of_two_le (Nat.not_lt.mp htwo)] at h
    split at h
    case isTrue => cases h
    case isFalse =>
      split at h
      case isTrue => cases h
      case isFalse hlen =>
        obtain ⟨G, -, hG⟩ := map_eq_ok_iff.mp h
        obtain ⟨-, rfl⟩ := Prod.mk.inj hG
        exact Nat.not_lt.mp hlen

theorem decompressHeader_of_lt {s : State} (h : s.params.capIn < s.inLen.toNat) :
    decompressHeader s = .error { kind := .inRange, info := s.inLen } := by
  rw [decompressHeader, checkInLen_of_lt h, error_bind]

section
variable {s : State} (hin : s.inLen.toNat ≤ s.params.capIn)
include hin

theorem decompressHeader_of_parse_error {e : CmdError} (h : parse s.input = .error e) :
    decompressHeader s = .error e := by
  rw [decompressHeader, checkInLen_of_le hin, ok_bind, h, error_bind]

theorem decompressHeader_of_parse_ok {F : FreqTable} {H : Nat} (h : parse s.input = .ok (F, H)) :
    decompressHeader s = (unpack (s.input.drop H) H s.inLen).map (F, H, ·) := by
  rw [decompressHeader, checkInLen_of_le hin, ok_bind, h, ok_bind]
  dsimp only
  cases unpack (s.input.drop H) H s.inLen <;> rfl

end

section
variable {s : State} {F : FreqTable} {b : BitSeq}

theorem decompressOutput_of_walk_error {e : CmdError} (h : walk (build F) b = .error e) :
    decompressOutput s F b = .error e := by
  rw [decompressOutput, h, error_bind]

variable {D : List Byte} (hD : walk (build F) b = .ok D)
include hD

theorem decompressOutput_of_overflow (hout : s.params.capOut < D.length) :
    decompressOutput s F b = .error { kind := .outOverflow, info := BitVec.ofNat 32 D.length } := by
  rw [decompressOutput, hD, ok_bind, checkFits_of_lt hout, error_bind]

theorem decompressOutput_of_fits (hout : D.length ≤ s.params.capOut) : decompressOutput s F b = .ok D := by
  rw [decompressOutput, hD, ok_bind, checkFits_of_le hout, ok_bind]
  rfl

end

theorem exec_decompress_of_header_error {s : State} {e : CmdError} (h : decompressHeader s = .error e) :
    exec .decompress s = .next (failed e.kind.code e.info (noArtifact s)) := by
  obtain ⟨e', he, hexec⟩ | ⟨G, K, c, _, hG, -⟩ | ⟨G, K, c, _, hG, -⟩ := execDecompress_cases s
  · obtain rfl : e' = e := Except.error.inj (he.symm.trans h)
    exact hexec
  all_goals cases hG.symm.trans h

section
variable {s : State} {F : FreqTable} {H : Nat} {b : BitSeq} (hheader : decompressHeader s = .ok (F, H, b))
include hheader

theorem exec_decompress_of_error {e : CmdError} (h : decompressOutput s F b = .error e) :
    exec .decompress s = .next (failed e.kind.code e.info (noArtifact (commitDecompress F s))) := by
  obtain ⟨e', he, -⟩ | ⟨G, K, c, e', hG, he, hexec⟩ | ⟨G, K, c, D, hG, hD, -⟩ := execDecompress_cases s
  · cases he.symm.trans hheader
  all_goals cases hG.symm.trans hheader
  · obtain rfl : e' = e := Except.error.inj (he.symm.trans h)
    exact hexec
  · cases hD.symm.trans h

theorem exec_decompress_of_ok {D : List Byte} (h : decompressOutput s F b = .ok D) : exec .decompress s =
    .next (finish (writeHdrLen H (writeOutBitlen b.length (writeOut D (commitDecompress F s))))) := by
  obtain ⟨e, he, -⟩ | ⟨G, K, c, e, hG, he, -⟩ | ⟨G, K, c, E, hG, hE, hexec⟩ := execDecompress_cases s
  · cases he.symm.trans hheader
  all_goals cases hG.symm.trans hheader
  · cases he.symm.trans h
  · obtain rfl : E = D := Except.ok.inj (hE.symm.trans h)
    exact hexec

end

/-! ## The statements -/

/-- Settles O40: the first check that fails decides, in the order of R263, with the walk before the output's length. -/
theorem decodeWritesTheWalkedBytes : Obligations.DecodeWritesTheWalkedBytes := by
  intro s n p b
  refine ⟨fun hlt => exec_decode_of_error (decodeOutput_of_lt hlt),
    fun hin hnone => exec_decode_of_error (decodeOutput_of_not_ready hin hnone), fun hin T hT =>
    ⟨fun hzero => ?truncated, fun hpos hcorrupt => ?corrupt, fun hpos hp hn => ?unpacked⟩⟩
  case truncated =>
    exact exec_decode_of_error
      (decodeOutput_of_unpack_error hin hT (unpack_drop_of_end s 0 s.inLen (k := 0) (Nat.le_of_eq hzero)))
  case corrupt =>
    exact exec_decode_of_error
      (decodeOutput_of_unpack_error hin hT (unpack_drop_of_corrupt s 0 s.inLen (k := 0) hpos hcorrupt))
  case unpacked =>
    have hb : unpack s.input 0 s.inLen = .ok b := unpack_drop_of_le s 0 s.inLen (k := 0) hpos hp hn
    exact ⟨fun e he => exec_decode_of_error (decodeOutput_of_walk_error hin hT hb he), fun D hD =>
      ⟨length_le_of_walk hD, fun hout => exec_decode_of_error (decodeOutput_of_overflow hin hT hb hD hout),
        fun hout => ⟨_, exec_decode_of_ok (decodeOutput_of_fits hin hT hb hD hout), outputs_writeOut D s, rfl⟩⟩⟩

/-- Settles O44: the first check that fails decides, in the order of R265; the tables are committed before the walk. -/
theorem decompressWritesTheWalkedBytes : Obligations.DecompressWritesTheWalkedBytes := by
  intro s n
  refine ⟨fun hlt => exec_decompress_of_header_error (decompressHeader_of_lt hlt), fun hin =>
    ⟨fun e he => exec_decompress_of_header_error (decompressHeader_of_parse_error hin he), fun F H hparse => ?parsed⟩⟩
  intro p b u
  have hheader : decompressHeader s = (unpack (s.input.drop H) H s.inLen).map (F, H, ·) :=
    decompressHeader_of_parse_ok hin hparse
  refine ⟨(length_le_of_parse hparse).trans_eq (length_inBytes s n), fun hend => ?truncated,
    fun hH hcorrupt => ?corrupt, fun hH hp hn => ?unpacked⟩
  case truncated =>
    refine exec_decompress_of_header_error (e := ⟨.truncatedInput, s.inLen⟩) (hheader.trans (map_eq_error_iff.mpr ?_))
    exact unpack_drop_of_end s H s.inLen (Nat.le_of_eq hend)
  case corrupt =>
    refine exec_decompress_of_header_error (e := ⟨.corruptHeader, BitVec.ofNat 32 H⟩)
      (hheader.trans (map_eq_error_iff.mpr ?_))
    exact unpack_drop_of_corrupt s H s.inLen hH hcorrupt
  case unpacked =>
    have hb : decompressHeader s = .ok (F, H, b) :=
      hheader.trans (map_eq_ok_iff.mpr ⟨b, unpack_drop_of_le s H s.inLen hH hp hn, rfl⟩)
    exact ⟨fun e he => exec_decompress_of_error hb (decompressOutput_of_walk_error he), fun D hD =>
      ⟨fun hout => exec_decompress_of_error hb (decompressOutput_of_overflow hD hout),
        fun hout => ⟨_, exec_decompress_of_ok hb (decompressOutput_of_fits hD hout),
          outputs_writeOut D (commitDecompress F s), rfl⟩⟩⟩

end Sys2Proof.Machine
end

section
/-! What every command's completion leaves and raises (R102 of 30_encoding.md, R300, R302 of 60_exceptions.md): the
errors by command, the error effects, what a completion can do, and the frames over all commands. -/

namespace Sys2Proof.Machine

/-! ## The errors and the error effects -/

/-- The `raised by` column of R300. -/
def errorKinds : Instr → List ErrorKind
  | .nop | .clear | .build => []
  | .count => [.inRange]
  | .derive => [.notReady]
  | .serialize => [.outOverflow]
  | .parse => [.construction, .corruptHeader, .truncatedInput, .inRange]
  | .encode => [.inRange, .outOverflow, .notReady, .unmappedSymbol]
  | .decode => [.corruptHeader, .truncatedInput, .malformedStream, .inRange, .outOverflow, .notReady]
  | .pack => [.inRange, .outOverflow]
  | .unpack => [.corruptHeader, .truncatedInput, .inRange, .outOverflow]
  | .compress => [.inRange, .outOverflow]
  | .decompress => [.construction, .corruptHeader, .truncatedInput, .malformedStream, .inRange, .outOverflow]

/-- The error effects of R302, before the error completion. -/
def errorEffects (i : Instr) (s : State) : State :=
  match i with
  | .nop | .clear | .count | .build | .derive => s
  | .serialize => dropHdrLen (dropOut s)
  | .parse => dropHdrLen s
  | .encode | .decode | .pack | .unpack => dropOutBitlen (dropOut s)
  | .compress | .decompress => dropArtifact s

/-! ## The errors of the checks -/

theorem kind_of_unpack_error {B : List Byte} {base : Nat} {l : Word} {e : CmdError} (h : unpack B base l = .error e) :
    e.kind = .corruptHeader ∨ e.kind = .truncatedInput := by
  cases B with
  | nil => cases h; exact .inr rfl
  | cons p payload =>
    by_cases hcorrupt : 7 < p.toNat ∨ 8 * payload.length < p.toNat
    · cases (unpack_cons_of_corrupt base l hcorrupt).symm.trans h
      exact .inl rfl
    · obtain ⟨hp, hn⟩ := not_or.mp hcorrupt
      cases (unpack_cons_of_le base l (Nat.not_lt.mp hp) (Nat.not_lt.mp hn)).symm.trans h

theorem kind_of_walkFrom_error {r cur : Node} {i : Nat} {b : BitSeq} {e : CmdError}
    (h : walkFrom r cur i b = .error e) : e.kind = .malformedStream := by
  induction b generalizing cur i with
  | nil =>
    rw [walkFrom_nil] at h
    split at h <;> cases h
    rfl
  | cons b rest ih =>
    cases hm : cur.child b with
    | none =>
      cases (walkFrom_none r cur i b rest hm).symm.trans h
      rfl
    | some m =>
      obtain ⟨nxt, out, -, -, hstep⟩ := exists_walkFrom_step r i hm
      exact ih (map_eq_error_iff.mp ((hstep rest).symm.trans h))

theorem kind_of_walk_error {T : HuffTree} {b : BitSeq} {e : CmdError} (h : walk T b = .error e) :
    e.kind = .malformedStream := by
  cases T with
  | empty =>
    rw [walk_empty] at h
    split at h <;> cases h
    rfl
  | root r => exact kind_of_walkFrom_error h

theorem kind_of_encodeBits_error {C : Byte → BitSeq} {X : List Byte} {base : Nat} {e : CmdError}
    (h : encodeBits C X base = .error e) : e.kind = .unmappedSymbol := by
  induction X generalizing base with
  | nil => cases h
  | cons x X ih =>
    unfold encodeBits at h
    split at h
    · cases h; rfl
    · split at h
      next => cases h
      next herr => cases h; exact ih herr

theorem kind_of_parseEntries_error {n k j : Nat} {prev : Option Byte} {B : List Byte} {F : FreqTable} {e : CmdError}
    (h : parseEntries n k j prev B F = .error e) :
    e.kind = .construction ∨ e.kind = .corruptHeader ∨ e.kind = .truncatedInput := by
  induction k, j, prev, B, F using parseEntries.induct with
  | case1 => cases h
  | case2 k j prev sym c3 c2 c1 c0 rest F horder =>
    rw [parseEntries, if_pos horder] at h
    cases h
    exact .inr (.inl rfl)
  | case3 k j prev sym c3 c2 c1 c0 rest F horder hzero =>
    rw [parseEntries, if_neg horder, if_pos hzero] at h
    cases h
    exact .inl rfl
  | case4 k j prev sym c3 c2 c1 c0 rest F horder hzero ih =>
    rw [parseEntries, if_neg horder, if_neg hzero] at h
    exact ih h
  | case5 k j prev B F hshort =>
    rw [parseEntries] at h
    · cases h
      exact .inr (.inr rfl)
    · exact hshort

theorem kind_of_parse_error {B : List Byte} {e : CmdError} (h : parse B = .error e) :
    e.kind = .construction ∨ e.kind = .corruptHeader ∨ e.kind = .truncatedInput := by
  by_cases htwo : B.length < 2
  · cases (parse_of_length_lt_two htwo).symm.trans h
    exact .inr (.inr rfl)
  · rw [parse_of_two_le (Nat.not_lt.mp htwo)] at h
    split at h
    · cases h
      exact .inr (.inl rfl)
    · split at h
      · cases h
        exact .inr (.inr rfl)
      · exact kind_of_parseEntries_error (map_eq_error_iff.mp h)

theorem kind_of_checkInLen_error {s : State} {e : CmdError} (h : checkInLen s = .error e) : e.kind = .inRange :=
  congrArg CmdError.kind (checkInLen_error h).2

theorem kind_of_checkInBitlen_error {s : State} {e : CmdError} (h : checkInBitlen s = .error e) :
    e.kind = .inRange := by
  unfold checkInBitlen at h
  split at h <;> cases h
  rfl

theorem kind_of_checkCodeValid_error {s : State} {e : CmdError} (h : checkCodeValid s = .error e) :
    e.kind = .notReady := by
  unfold checkCodeValid at h
  split at h <;> cases h
  rfl

theorem kind_of_readTree_error {s : State} {e : CmdError} (h : readTree s = .error e) : e.kind = .notReady := by
  cases hT : s.tree with
  | none => cases (readTree_of_none hT).symm.trans h; rfl
  | some T => cases (readTree_of_some hT).symm.trans h

/-! ## The errors of each command's checks (R300, R304) -/

section
variable {s : State} {e : CmdError}

theorem kind_of_parseOutput_error (h : parseOutput s = .error e) : e.kind ∈ errorKinds .parse := by
  obtain h | ⟨_, -, h⟩ := bind_error h
  · simp [errorKinds, kind_of_checkInLen_error h]
  · obtain h | h | h := kind_of_parse_error h <;> simp [errorKinds, h]

theorem kind_of_encodeOutput_error (h : encodeOutput s = .error e) : e.kind ∈ errorKinds .encode := by
  obtain h | ⟨_, -, h⟩ := bind_error h
  · simp [errorKinds, kind_of_checkInLen_error h]
  obtain h | ⟨_, -, h⟩ := bind_error h
  · simp [errorKinds, kind_of_checkCodeValid_error h]
  obtain h | ⟨_, -, h⟩ := bind_error h
  · simp [errorKinds, kind_of_encodeBits_error h]
  obtain h | ⟨_, -, h⟩ := bind_error h
  · simp [errorKinds, checkFits_error h]
  · cases h

theorem kind_of_decodeOutput_error (h : decodeOutput s = .error e) : e.kind ∈ errorKinds .decode := by
  obtain h | ⟨_, -, h⟩ := bind_error h
  · simp [errorKinds, kind_of_checkInLen_error h]
  obtain h | ⟨_, -, h⟩ := bind_error h
  · simp [errorKinds, kind_of_readTree_error h]
  obtain h | ⟨_, -, h⟩ := bind_error h
  · obtain h | h := kind_of_unpack_error h <;> simp [errorKinds, h]
  obtain h | ⟨_, -, h⟩ := bind_error h
  · simp [errorKinds, kind_of_walk_error h]
  obtain h | ⟨_, -, h⟩ := bind_error h
  · simp [errorKinds, checkFits_error h]
  · cases h

theorem kind_of_packOutput_error (h : packOutput s = .error e) : e.kind ∈ errorKinds .pack := by
  obtain h | ⟨_, -, h⟩ := bind_error h
  · simp [errorKinds, kind_of_checkInBitlen_error h]
  obtain h | ⟨_, -, h⟩ := bind_error h
  · simp [errorKinds, checkFits_error h]
  · cases h

theorem kind_of_unpackOutput_error (h : unpackOutput s = .error e) : e.kind ∈ errorKinds .unpack := by
  obtain h | ⟨_, -, h⟩ := bind_error h
  · simp [errorKinds, kind_of_checkInLen_error h]
  obtain h | ⟨_, -, h⟩ := bind_error h
  · obtain h | h := kind_of_unpack_error h <;> simp [errorKinds, h]
  obtain h | ⟨_, -, h⟩ := bind_error h
  · simp [errorKinds, checkFits_error h]
  · cases h

/-- Every input byte has a code, so past its tables COMPRESS can only overflow (R264). -/
theorem kind_of_compressOutput_error (h : compressOutput s = .error e) : e.kind = .outOverflow := by
  obtain h | ⟨_, -, h⟩ := bind_error h
  · cases (compressBits_input s).symm.trans h
  obtain h | ⟨_, -, h⟩ := bind_error h
  · exact checkFits_error h
  · cases h

theorem kind_of_decompressHeader_error (h : decompressHeader s = .error e) : e.kind ∈ errorKinds .decompress := by
  obtain h | ⟨_, -, h⟩ := bind_error h
  · simp [errorKinds, kind_of_checkInLen_error h]
  obtain h | ⟨_, -, h⟩ := bind_error h
  · obtain h | h | h := kind_of_parse_error h <;> simp [errorKinds, h]
  obtain h | ⟨_, -, h⟩ := bind_error h
  · obtain h | h := kind_of_unpack_error h <;> simp [errorKinds, h]
  · cases h

theorem kind_of_decompressOutput_error {F : FreqTable} {b : BitSeq} (h : decompressOutput s F b = .error e) :
    e.kind = .malformedStream ∨ e.kind = .outOverflow := by
  obtain h | ⟨_, -, h⟩ := bind_error h
  · exact .inl (kind_of_walk_error h)
  obtain h | ⟨_, -, h⟩ := bind_error h
  · exact .inr (checkFits_error h)
  · cases h

end

/-! ## What a completion can do -/

/-- `Succeeds i s u`: command `i` on `s` can write `u` and finish (the rules of R102's write column). -/
inductive Succeeds : Instr → State → State → Prop
  | nop (s : State) : Succeeds .nop s s
  | clear (s : State) : Succeeds .clear s (writeFreq (Table.fill 0) s)
  | count (s : State) : Succeeds .count s (writeFreq (count s.input) s)
  | build (s : State) : Succeeds .build s (writeTree (build s.freq) s)
  | derive {s : State} {T : HuffTree} (tree : s.tree = some T) : Succeeds .derive s (writeCode (derive T) s)
  | serialize {s : State} (fits : (serialize s.freq).length ≤ s.params.capOut) :
    Succeeds .serialize s (writeHdrLen (serialize s.freq).length (writeOut (serialize s.freq) s))
  | parse (s : State) (F : FreqTable) (H : Nat) : Succeeds .parse s (writeHdrLen H (writeFreq F s))
  | encode {s : State} {P : List Byte} (n : Nat) (fits : P.length ≤ s.params.capOut) :
    Succeeds .encode s (writeOutBitlen n (writeOut P s))
  | decode {s : State} {P : List Byte} (n : Nat) (fits : P.length ≤ s.params.capOut) :
    Succeeds .decode s (writeOutBitlen n (writeOut P s))
  | pack {s : State} {P : List Byte} (n : Nat) (fits : P.length ≤ s.params.capOut) :
    Succeeds .pack s (writeOutBitlen n (writeOut P s))
  | unpack {s : State} {P : List Byte} (n : Nat) (fits : P.length ≤ s.params.capOut) :
    Succeeds .unpack s (writeOutBitlen n (writeOut P s))
  | compress {s : State} {A : List Byte} (H n : Nat) (fits : A.length ≤ s.params.capOut) :
    Succeeds .compress s (writeHdrLen H (writeOutBitlen n (writeOut A (commitCompress s))))
  | decompress {s : State} {D : List Byte} (F : FreqTable) (H n : Nat) (fits : D.length ≤ s.params.capOut) :
    Succeeds .decompress s (writeHdrLen H (writeOutBitlen n (writeOut D (commitDecompress F s))))

/-- `Fails i e s u`: command `i` on `s` can raise `e` on `u` (R302); COMPRESS and DECOMPRESS may have committed their
tables by then (R264, R265). -/
inductive Fails : Instr → CmdError → State → State → Prop
  | unwritten {i : Instr} {e : CmdError} (s : State) (kind : e.kind ∈ errorKinds i) : Fails i e s (errorEffects i s)
  | compress {e : CmdError} (s : State) (kind : e.kind = .outOverflow) :
    Fails .compress e s (errorEffects .compress (commitCompress s))
  | decompress {e : CmdError} (s : State) (F : FreqTable) (kind : e.kind = .malformedStream ∨ e.kind = .outOverflow) :
    Fails .decompress e s (errorEffects .decompress (commitDecompress F s))

/-- What `o` answers is a completion of command `i` on `s`. -/
def Completes (i : Instr) (s : State) (o : Host.Outcome State Fault Refusal) : Prop :=
  (∃ u, Succeeds i s u ∧ o = .next (finish u)) ∨ ∃ e u, Fails i e s u ∧ o = .next (raiseError e u)

theorem completes_exec (i : Instr) (s : State) : Completes i s (exec i s) := by
  have fails {i : Instr} {e : CmdError} (hkind : e.kind ∈ errorKinds i)
      (h : exec i s = .next (raiseError e (errorEffects i s))) : Completes i s (exec i s) :=
    .inr ⟨e, _, .unwritten s hkind, h⟩
  cases i with
  | nop => exact .inl ⟨_, .nop s, rfl⟩
  | clear => exact .inl ⟨_, .clear s, rfl⟩
  | build => exact .inl ⟨_, .build s, rfl⟩
  | count =>
    obtain ⟨-, h⟩ | ⟨-, h⟩ := execCount_cases s
    · exact .inl ⟨_, .count s, h⟩
    · exact fails (by simp [errorKinds]) h
  | derive =>
    obtain ⟨T, hT, h⟩ | ⟨-, h⟩ := execDerive_cases s
    · exact .inl ⟨_, .derive hT, h⟩
    · exact fails (by simp [errorKinds]) h
  | serialize =>
    obtain ⟨hfits, h⟩ | ⟨-, h⟩ := execSerialize_cases s
    · exact .inl ⟨_, .serialize hfits, h⟩
    · exact fails (by simp [errorKinds]) h
  | parse =>
    obtain ⟨F, H, -, h⟩ | ⟨e, he, h⟩ := execParse_cases s
    · exact .inl ⟨_, .parse s F H, h⟩
    · exact fails (kind_of_parseOutput_error he) h
  | encode =>
    obtain ⟨P, n, hP, h⟩ | ⟨e, he, h⟩ := execEncode_cases s
    · obtain ⟨_, -, -, -, hfits⟩ := encodeOutput_ok hP
      exact .inl ⟨_, .encode n hfits, h⟩
    · exact fails (kind_of_encodeOutput_error he) h
  | decode =>
    obtain ⟨D, n, hD, h⟩ | ⟨e, he, h⟩ := execDecode_cases s
    · obtain ⟨_, _, -, -, -, -, hfits⟩ := decodeOutput_ok hD
      exact .inl ⟨_, .decode n hfits, h⟩
    · exact fails (kind_of_decodeOutput_error he) h
  | pack =>
    obtain ⟨P, hP, h⟩ | ⟨e, he, h⟩ := execPack_cases s
    · obtain ⟨-, hfits⟩ := packOutput_ok hP
      exact .inl ⟨_, .pack _ hfits, h⟩
    · exact fails (kind_of_packOutput_error he) h
  | unpack =>
    obtain ⟨P, n, hP, h⟩ | ⟨e, he, h⟩ := execUnpack_cases s
    · obtain ⟨_, -, -, -, hfits⟩ := unpackOutput_ok hP
      exact .inl ⟨_, .unpack n hfits, h⟩
    · exact fails (kind_of_unpackOutput_error he) h
  | compress =>
    obtain ⟨-, h⟩ | ⟨-, e, he, h⟩ | ⟨-, A, n, hA, h⟩ := execCompress_cases s
    · exact fails (by simp [errorKinds]) h
    · exact .inr ⟨e, _, .compress s (kind_of_compressOutput_error he), h⟩
    · obtain ⟨_, -, -, -, hfits⟩ := compressOutput_ok hA
      exact .inl ⟨_, .compress _ n hfits, h⟩
  | decompress =>
    obtain ⟨e, he, h⟩ | ⟨F, H, b, e, -, he, h⟩ | ⟨F, H, b, D, -, hD, h⟩ := execDecompress_cases s
    · exact fails (kind_of_decompressHeader_error he) h
    · exact .inr ⟨e, _, .decompress s F (kind_of_decompressOutput_error he), h⟩
    · exact .inl ⟨_, .decompress F H _ (decompressOutput_ok hD).2, h⟩

/-- What a command's completion can do. -/
theorem exec_cases {i : Instr} {s t : State} (h : exec i s = .next t) :
    (∃ u, Succeeds i s u ∧ t = finish u) ∨ ∃ e u, Fails i e s u ∧ t = raiseError e u := by
  obtain ⟨u, hu, hexec⟩ | ⟨e, u, hu, hexec⟩ := completes_exec i s
  · exact .inl ⟨u, hu, Host.Outcome.next.inj (h.symm.trans hexec)⟩
  · exact .inr ⟨e, u, hu, Host.Outcome.next.inj (h.symm.trans hexec)⟩

theorem err_of_succeeds {i : Instr} {s u : State} (h : Succeeds i s u) : u.err = s.err := by
  cases h <;> rfl

theorem kind_of_fails {i : Instr} {e : CmdError} {s u : State} (h : Fails i e s u) : e.kind ∈ errorKinds i := by
  cases h with
  | unwritten _ kind => exact kind
  | compress _ kind => simp [errorKinds, kind]
  | decompress _ F kind => obtain kind | kind := kind <;> simp [errorKinds, kind]

/-- A completion that raises ERR is an error completion. -/
theorem exec_cases_of_err {i : Instr} {s t : State} (hs : s.err = false) (h : exec i s = .next t)
    (ht : t.err = true) : ∃ e u, Fails i e s u ∧ t = raiseError e u := by
  obtain ⟨u, hu, rfl⟩ | herror := exec_cases h
  · cases ht.symm.trans ((err_of_succeeds hu).trans hs)
  · exact herror

/-! ## The statements -/

/-- Settles O45: every command ends in `finish` or `raiseError` on a state with the same inputs. -/
theorem commandsLeaveTheirInputsUnchanged : Obligations.CommandsLeaveTheirInputsUnchanged := by
  intro i s t h
  obtain ⟨u, hsame, hexec⟩ := exec_shape i s
  obtain ⟨hparams, hirqEn, -, -, hdrop, hlastOp, -, -, hinLen, hinBitlen, hinMem, -, hrst, hscript, hsched, hreads,
    -⟩ := hsame
  obtain hexec | ⟨e, hexec⟩ := hexec
  all_goals
    cases h.symm.trans hexec
    exact ⟨fun a => congrArg (Memory.get? · a) hinMem, hinLen, hinBitlen, hirqEn, hdrop, hlastOp, hparams, hrst,
      hscript, hsched, hreads⟩

/-- Settles O46: by what each command can write before it finishes, and by the error effects of R302. -/
theorem commandsLeaveOtherResultsUnchanged : Obligations.CommandsLeaveOtherResultsUnchanged := by
  intro i s t h
  obtain ⟨u, hu, rfl⟩ | ⟨e, u, hu, rfl⟩ := exec_cases h
  · cases hu <;> simp [commitCompress, commitDecompress]
  · cases hu with
    | unwritten => cases i <;> simp [errorEffects, dropArtifact]
    | compress => simp [errorEffects, dropArtifact, commitCompress]
    | decompress => simp [errorEffects, dropArtifact, commitDecompress]

/-- Settles O47: by the error effects of R302; tables are committed only before MALFORMED_STREAM and OUT_OVERFLOW. -/
theorem failedCommandShowsNoOutput : Obligations.FailedCommandShowsNoOutput := by
  intro i s t hs h ht
  obtain ⟨e, u, hu, rfl⟩ := exec_cases_of_err hs h ht
  cases hu with
  | unwritten => cases i <;> simp [errorEffects, dropArtifact]
  | compress _ kind => simp [errorEffects, dropArtifact, kind, ErrorKind.code]
  | decompress _ F kind =>
    obtain kind | kind := kind <;> simp [errorEffects, dropArtifact, kind, ErrorKind.code]

/-- Settles O48: an error completion raises an error of the command's row of R300. -/
theorem eachCommandRaisesOnlyItsErrorCodes : Obligations.EachCommandRaisesOnlyItsErrorCodes := by
  intro i s t hs h ht
  obtain ⟨e, u, hu, rfl⟩ := exec_cases_of_err hs h ht
  have hcode : e.kind.code ∈ (errorKinds i).map ErrorKind.code := List.mem_map_of_mem (kind_of_fails hu)
  cases i <;> exact hcode

end Sys2Proof.Machine
end

section
/-! What one step can do, whoever moves (R20 of 10_state.md, R124 of 40_host_bus.md, R340 of 70_reset_and_hazards.md),
and the statements over every step: what can change a flag, CODE and the memories. -/

namespace Sys2Proof.Machine

/-! ## The completions -/

/-- `exec_shape` for the state a completion answers. -/
theorem exec_next_shape {i : Instr} {s t : State} (h : exec i s = .next t) :
    ∃ u, SameInputs s u ∧ (t = finish u ∨ ∃ e, t = raiseError e u) := by
  obtain ⟨u, hsame, hexec | ⟨e, hexec⟩⟩ := exec_shape i s
  · exact ⟨u, hsame, .inl (Host.Outcome.next.inj (h.symm.trans hexec))⟩
  · exact ⟨u, hsame, .inr ⟨e, Host.Outcome.next.inj (h.symm.trans hexec)⟩⟩

/-- A completion leaves the block IDLE with DONE 1 (R124, R301). -/
theorem seq_done_of_exec {i : Instr} {s t : State} (h : exec i s = .next t) : t.seq = .idle ∧ t.done = true := by
  obtain ⟨u, -, rfl | ⟨e, rfl⟩⟩ := exec_next_shape h
  · exact ⟨rfl, rfl⟩
  · exact ⟨rfl, rfl⟩

theorem inMem_of_exec {i : Instr} {s t : State} (h : exec i s = .next t) : t.inMem = s.inMem := by
  obtain ⟨u, ⟨-, -, -, -, -, -, -, -, -, -, hinMem, -⟩, rfl | ⟨e, rfl⟩⟩ := exec_next_shape h
  · exact hinMem
  · exact hinMem

theorem drop_of_exec {i : Instr} {s t : State} (h : exec i s = .next t) : t.drop = s.drop := by
  obtain ⟨-, -, -, -, hdrop, -⟩ := commandsLeaveTheirInputsUnchanged i s t h
  exact hdrop

@[simp] theorem completeIllegal_eq (w : Word) (s : State) :
    completeIllegal w s = raiseError { kind := .illegalCommand, info := w } s := rfl

/-! ## An IN-window write leaves every register -/

section
variable (i : Nat) (w : Word) (strb : BitVec 4) (s : State)

@[simp] theorem done_writeInWord : (writeInWord i w strb s).done = s.done := by rw [writeInWord_eq]
@[simp] theorem err_writeInWord : (writeInWord i w strb s).err = s.err := by rw [writeInWord_eq]
@[simp] theorem drop_writeInWord : (writeInWord i w strb s).drop = s.drop := by rw [writeInWord_eq]
@[simp] theorem code_writeInWord : (writeInWord i w strb s).code = s.code := by rw [writeInWord_eq]
@[simp] theorem outMem_writeInWord : (writeInWord i w strb s).outMem = s.outMem := by rw [writeInWord_eq]

end

/-! ## What a step can do -/

/-- `s` with the script, the turns and the level of `rst` that a step leaves. -/
def State.withQueues (s : State) (script : List HostOp) (sched : List Turn) (rst : Bool) : State :=
  { s with script := script, sched := sched, rst := rst }

@[simp] theorem withQueues_eq_fields (s : State) (script : List HostOp) (sched : List Turn) (rst : Bool) :
    s.withQueues script sched rst = { s with script := script, sched := sched, rst := rst } := rfl

/-- `StepEffect s q t`: the next step of `s`, which is `q` with that turn taken, can answer `t`. -/
inductive StepEffect (s q : State) : State → Prop
  /-- Nothing but the queues changes. -/
  | stutter : StepEffect s q q
  /-- The CORE ends INIT (R343). -/
  | init (turn : s.turn = .core) (seq : s.seq = .init) : StepEffect s q (finishInit q)
  /-- The CORE completes a command (R124). -/
  | command {w : Word} {i : Instr} {t : State} (turn : s.turn = .core) (seq : s.seq = .busy w)
    (legal : decode w = .ok i) (completion : exec i q = .next t) : StepEffect s q t
  /-- The CORE completes an illegal word (R126). -/
  | illegal {w : Word} (turn : s.turn = .core) (seq : s.seq = .busy w) : StepEffect s q (completeIllegal w q)
  /-- The HOST reads (R120). -/
  | read (off : BitVec 26) : StepEffect s q (readStep off q)
  /-- A CMD write is dropped (R123). -/
  | dropped {w : Word} {strb : BitVec 4} (busy : s.isBusy = true) (write : s.hostWrites 2 w strb) :
    StepEffect s q { q with drop := true }
  /-- A CMD write is accepted (R122). -/
  | accepted {w : Word} {strb : BitVec 4} (idle : s.isBusy = false) (write : s.hostWrites 2 w strb) :
    StepEffect s q (accept w q)
  /-- A reset by CTRL or by the pin (R340 to R342). -/
  | reset (resets : s.resets) : StepEffect s q (resetAction q)
  /-- A CTRL write of IRQ_EN (R26). -/
  | irqEn (level : Bool) : StepEffect s q { q with irqEn := level }
  /-- A STATUS write (R28). -/
  | cleared {w : Word} {strb : BitVec 4} (write : s.hostWrites 3 w strb) (lane0 : strb.getLsbD 0 = true) :
    StepEffect s q (clearStatus w q)
  /-- A write of IN_LEN (R31). -/
  | inLen (v : Word) : StepEffect s q { q with inLen := v }
  /-- A write of IN_BITLEN (R32). -/
  | inBitlen (v : Word) : StepEffect s q { q with inBitlen := v }
  /-- A FREQ-window write (R79). -/
  | freq (F : FreqTable) : StepEffect s q (writeFreq F q)
  /-- An IN-window write (R77). -/
  | inWord {j : Nat} {w : Word} {strb : BitVec 4} (i : Nat) (idle : s.isBusy = false) (low : 0x400000 ≤ j)
    (high : j < 0x800000) (write : s.hostWrites j w strb) : StepEffect s q (writeInWord i w strb q)

/-- The effect of a CORE turn. -/
theorem stepEffect_coreStep {s q t : State} (hturn : s.turn = .core) (hseq : q.seq = s.seq)
    (h : coreStep q = .next t) : StepEffect s q t := by
  obtain ⟨hinit, rfl⟩ | ⟨-, rfl⟩ | ⟨w, i, hbusy, hlegal, hexec⟩ | ⟨w, e, hbusy, -, rfl⟩ := coreStep_cases h
  · exact .init hturn (hseq.symm.trans hinit)
  · exact .stutter
  · exact .command hturn (hseq.symm.trans hbusy) hlegal hexec
  · exact .illegal hturn (hseq.symm.trans hbusy)

/-- The effect of a HOST write. -/
theorem stepEffect_hostWrite {s q : State} {off : BitVec 26} {w : Word} {strb : BitVec 4} (hbusy : q.isBusy = s.isBusy)
    (hwrite : s.hostWrites (off.toNat / 4) w strb) : StepEffect s q (hostWrite off w strb q) := by
  obtain h | ⟨hoff, hb, h⟩ | ⟨hoff, hb, h⟩ | ⟨hoff, hlane0, hsreset, h⟩ | ⟨-, -, -, h⟩ | ⟨hoff, hlane0, h⟩ | ⟨-, h⟩ |
    ⟨-, h⟩ | ⟨sym, -, h⟩ | ⟨hb, hlow, hhigh, i, h⟩ := hostWrite_cases off w strb q
  all_goals rw [h]
  · exact .stutter
  · exact .dropped (hbusy.symm.trans hb) (hoff ▸ hwrite)
  · exact .accepted (hbusy.symm.trans hb) (hoff ▸ hwrite)
  · exact .reset (.inl ⟨w, strb, hoff ▸ hwrite, hlane0, hsreset⟩)
  · exact .irqEn _
  · exact .cleared (hoff ▸ hwrite) hlane0
  · exact .inLen _
  · exact .inBitlen _
  · exact .freq _
  · exact .inWord i (hbusy.symm.trans hb) (by omega) (by omega) hwrite

/-- What a step can do, said once for the statements over every step. -/
theorem step_effect {s t : State} (h : step s = .next t) :
    ∃ script sched rst, StepEffect s (s.withQueues script sched rst) t := by
  obtain ⟨hturn, -, h⟩ | ⟨hturn, hrst, rfl⟩ | ⟨-, rfl⟩ | ⟨hturn, hrst, rfl⟩ | rfl := step_cases h
  · exact ⟨s.script, s.sched.tail, s.rst, stepEffect_coreStep hturn rfl h⟩
  · obtain ⟨-, h⟩ | ⟨off, script, h⟩ | ⟨addr, w, strb, rest, hscript, h⟩ :=
      hostStep_cases { s with sched := s.sched.tail }
    all_goals rw [h]
    · exact ⟨s.script, s.sched.tail, s.rst, .stutter⟩
    · exact ⟨script, s.sched.tail, s.rst, .read off⟩
    · exact ⟨rest, s.sched.tail, s.rst, stepEffect_hostWrite rfl ⟨hturn, hrst, addr, rest, hscript, rfl⟩⟩
  · exact ⟨s.script, s.sched.tail, true, .stutter⟩
  · exact ⟨s.script, s.sched.tail, false, .reset (.inr ⟨hturn, hrst⟩)⟩
  · exact ⟨s.script, s.sched.tail, s.rst, .stutter⟩

/-! ## The statements -/

/-- Of the effects of a step only a completion sets DONE; the others leave it or clear it. -/
theorem completes_of_done_rises {s t : State} (h : step s = .next t) (hs : s.done = false) (ht : t.done = true) :
    s.turn = .core ∧ t.seq = .idle ∧ ∃ w, s.seq = .busy w := by
  obtain ⟨script, sched, rst, h⟩ := step_effect h
  cases h with
  | command hturn hseq _ hexec => exact ⟨hturn, (seq_done_of_exec hexec).1, _, hseq⟩
  | illegal hturn hseq => exact ⟨hturn, rfl, _, hseq⟩
  | _ => simp_all

/-- Settles O27: irq rises with DONE, or with IRQ_EN where DONE was 1 before. -/
theorem onlyCompletionRaisesDoneAndIrq : Obligations.OnlyCompletionRaisesDoneAndIrq := by
  intro s t h
  refine ⟨rfl, completes_of_done_rises h, fun hs ht => ?_⟩
  obtain ⟨htEn, htDone⟩ := Bool.and_eq_true_iff.mp ht
  obtain hEn | hDone := Bool.and_eq_false_iff.mp hs
  · exact .inr ⟨hEn, htEn⟩
  · exact .inl (completes_of_done_rises h hDone htDone)

/-- Settles O28: by the effects of a step on DROP. -/
theorem onlyDroppedCommandRaisesDrop : Obligations.OnlyDroppedCommandRaisesDrop := by
  intro s t h
  obtain ⟨script, sched, rst, h⟩ := step_effect h
  constructor
  · intro hs ht
    cases h with
    | command _ _ _ hexec => exact absurd (ht.symm.trans ((drop_of_exec hexec).trans hs)) nofun
    | dropped hbusy hwrite => exact ⟨hbusy, _, _, hwrite⟩
    | _ => simp_all
  · intro hs ht
    cases h with
    | command _ _ _ hexec => exact absurd (ht.symm.trans ((drop_of_exec hexec).trans hs)) nofun
    | reset hresets => exact .inl hresets
    | cleared hwrite hlane0 => exact .inr ⟨_, _, hwrite, hlane0, by simp_all⟩
    | _ => simp_all

/-- Settles O29: every effect that leaves DONE 0 keeps ERR and DONE, but for the write of STATUS. -/
theorem errWithoutDoneOnlyAfterW1cOfDone : Obligations.ErrWithoutDoneOnlyAfterW1cOfDone := by
  intro s t hs h herr hdone
  obtain ⟨script, sched, rst, h⟩ := step_effect h
  cases h with
  | command _ _ _ hexec => exact absurd (hdone.symm.trans (seq_done_of_exec hexec).2) nofun
  | cleared hwrite hlane0 => exact ⟨_, _, hwrite, hlane0, by simp_all, by simp_all⟩
  | _ => simp_all

/-- Settles O30: of the commands only DERIVE and COMPRESS write CODE, and of the other effects only a reset. -/
theorem onlyDeriveAndCompressWriteCode : Obligations.OnlyDeriveAndCompressWriteCode := by
  intro s t h hcode
  obtain ⟨script, sched, rst, h⟩ := step_effect h
  cases h with
  | @command w i t hturn hseq hlegal hexec =>
    obtain ⟨-, -, hframe, -⟩ := commandsLeaveOtherResultsUnchanged i _ t hexec
    refine .inr ⟨hturn, ?_⟩
    obtain rfl := decode_eq_ok_iff_eq_encode.mp hlegal
    cases i with
    | derive => exact .inl hseq
    | compress => exact .inr hseq
    | _ => exact absurd (hframe (by decide)) hcode
  | reset hresets => exact .inl ⟨hresets, rfl⟩
  | inWord => exact absurd (code_writeInWord _ _ _ _) hcode
  | _ => exact absurd rfl hcode

/-- Settles O31: a completion leaves IN_MEM, and a HOST effect OUT_MEM. -/
theorem eachMemoryHasOneWriter : Obligations.EachMemoryHasOneWriter := by
  intro s t h
  obtain ⟨script, sched, rst, h⟩ := step_effect h
  refine ⟨fun hin => ?inMem, fun hout => ?outMem⟩
  case inMem =>
    cases h with
    | command _ _ _ hexec => exact absurd (inMem_of_exec hexec) hin
    | reset hresets => exact .inl ⟨hresets, rfl⟩
    | inWord i hidle hlow hhigh hwrite => exact .inr ⟨hidle, _, _, _, hlow, hhigh, hwrite⟩
    | _ => exact absurd rfl hin
  case outMem =>
    cases h with
    | command hturn hseq => exact .inr ⟨hturn, _, hseq⟩
    | illegal hturn hseq => exact .inr ⟨hturn, _, hseq⟩
    | reset hresets => exact .inl ⟨hresets, rfl⟩
    | inWord => exact absurd (outMem_writeInWord _ _ _ _) hout
    | _ => exact absurd rfl hout

end Sys2Proof.Machine
end

section
/-! The invariant of the machine (R47 of 10_state.md): its part about the memories and tables, which every write of a
command keeps, and its part about the flags. -/

namespace Sys2Proof.Machine

/-! ## The memories and the tables -/

/-- The part of `Invariant` that says nothing of the sequencer, the flags and the error registers. -/
structure Contents (s : State) : Prop where
  /-- The parameters are within the bounds of R6. -/
  params_wf : s.params.wf
  /-- IN_MEM is in its canonical form. -/
  inMem_wf : Memory.wf s.inMem
  /-- IN_MEM has no byte at or past CAP_IN (R44). -/
  inMem_inside : ∀ c ∈ s.inMem, c.1 < s.params.capIn
  /-- The specified bytes of OUT_MEM are exactly `OUT[0 .. OUT_LEN)` (R45). -/
  outMem_offsets : s.outMem.map Prod.fst = List.range s.outLen.toNat
  /-- The output fits OUT_MEM (R45). -/
  outLen_inside : s.outLen.toNat ≤ s.params.capOut
  /-- CODE_VALID says that CODE is derived from TREE (R47, item 1). -/
  code_fresh : s.codeValid = true → ∃ T, s.tree = some T ∧ s.code = .written (derive T)
  /-- A valid TREE is built from FREQ (R47, item 2). -/
  tree_fresh : ∀ T, s.tree = some T → T = build s.freq

theorem Invariant.contents {s : State} (h : Invariant s) : Contents s := { h with }

section
variable {s : State} (h : Contents s)
include h

theorem Contents.finish : Contents (finish s) := { h with }

theorem Contents.raiseError (e : CmdError) : Contents (raiseError e s) := { h with }

theorem Contents.writeOutBitlen (n : Nat) : Contents (writeOutBitlen n s) := { h with }

theorem Contents.writeHdrLen (n : Nat) : Contents (writeHdrLen n s) := { h with }

theorem Contents.dropOutBitlen : Contents (dropOutBitlen s) := { h with }

theorem Contents.dropHdrLen : Contents (dropHdrLen s) := { h with }

/-- A write of FREQ leaves no TREE and no valid CODE that could be stale (R48). -/
theorem Contents.writeFreq (F : FreqTable) : Contents (writeFreq F s) :=
  { h with code_fresh := nofun, tree_fresh := nofun }

/-- A write of TREE leaves no valid CODE that could be stale (R48). -/
theorem Contents.writeTree {T : HuffTree} (hT : T = build s.freq) : Contents (writeTree T s) :=
  { h with
    code_fresh := nofun
    tree_fresh := fun _ hU => (Option.some.inj hU).symm.trans hT }

theorem Contents.writeCode {T : HuffTree} (hT : s.tree = some T) : Contents (writeCode (derive T) s) :=
  { h with code_fresh := fun _ => ⟨T, hT, rfl⟩ }

/-- An output that fits OUT_MEM is the specified bytes, and its length does not wrap (R6, R45). -/
theorem Contents.writeOut {P : List Byte} (hP : P.length ≤ s.params.capOut) : Contents (writeOut P s) :=
  have hlen : (BitVec.ofNat 32 P.length).toNat = P.length := by
    obtain ⟨-, -, -, hcapOut, -⟩ := h.params_wf
    rw [BitVec.toNat_ofNat, Nat.mod_eq_of_lt (by omega)]
  { h with
    outMem_offsets := by
      rw [outMem_writeOut, outLen_writeOut, cellsFrom_fst, hlen, List.range_eq_range']
    outLen_inside := hlen.trans_le hP }

theorem Contents.dropOut : Contents (dropOut s) :=
  { h with outMem_offsets := rfl, outLen_inside := Nat.zero_le _ }

theorem Contents.dropArtifact : Contents (dropArtifact s) := h.dropOut.dropOutBitlen.dropHdrLen

theorem Contents.commitCompress : Contents (commitCompress s) := ((h.writeFreq _).writeTree rfl).writeCode rfl

theorem Contents.commitDecompress (F : FreqTable) : Contents (commitDecompress F s) := (h.writeFreq F).writeTree rfl

theorem Contents.errorEffects (i : Instr) : Contents (errorEffects i s) := by
  cases i with
  | nop | clear | count | build | derive => exact h
  | serialize => exact h.dropOut.dropHdrLen
  | parse => exact h.dropHdrLen
  | encode | decode | pack | unpack => exact h.dropOut.dropOutBitlen
  | compress | decompress => exact h.dropArtifact

theorem Contents.of_succeeds {i : Instr} {u : State} (hu : Succeeds i s u) : Contents u := by
  cases hu with
  | nop => exact h
  | clear | count => exact h.writeFreq _
  | build => exact h.writeTree rfl
  | derive hT => exact h.writeCode hT
  | serialize hfits => exact (h.writeOut hfits).writeHdrLen _
  | parse _ F H => exact (h.writeFreq F).writeHdrLen H
  | encode n hfits | decode n hfits | pack n hfits | unpack n hfits => exact (h.writeOut hfits).writeOutBitlen n
  | compress H n hfits => exact ((h.commitCompress.writeOut hfits).writeOutBitlen n).writeHdrLen H
  | decompress F H n hfits => exact (((h.commitDecompress F).writeOut hfits).writeOutBitlen n).writeHdrLen H

theorem Contents.of_fails {i : Instr} {e : CmdError} {u : State} (hu : Fails i e s u) : Contents u := by
  cases hu with
  | unwritten => exact h.errorEffects i
  | compress => exact h.commitCompress.errorEffects _
  | decompress _ F => exact (h.commitDecompress F).errorEffects _

theorem Contents.writeInWord (i : Nat) (w : Word) (strb : BitVec 4) : Contents (writeInWord i w strb s) := by
  rw [writeInWord_eq]
  exact
    { h with
      inMem_wf := wf_writeInWord i w strb h.inMem_wf
      inMem_inside := fun c hc => (mem_writeInWord hc).elim id (h.inMem_inside c) }

theorem Contents.resetAction : Contents (resetAction s) where
  params_wf := h.params_wf
  inMem_wf := .nil
  inMem_inside := nofun
  outMem_offsets := rfl
  outLen_inside := Nat.zero_le _
  code_fresh := nofun
  tree_fresh := nofun

end

/-! ## The flags and the error registers -/

/-- An error completion meets the invariant whatever the flags were. -/
theorem invariant_raiseError {s : State} (h : Contents s) (e : CmdError) : Invariant (raiseError e s) :=
  { h.raiseError e with
    init_no_tree := nofun
    busy_flags := fun hseq => absurd rfl hseq
    errCode_range := e.kind.code_le_nine
    err_has_code := fun _ => e.kind.code_ne_zero }

/-- A successful completion leaves the error registers as acceptance cleared them. -/
theorem invariant_finish {s : State} (h : Contents s) (herr : s.err = false) (hcode : s.errCode = 0) :
    Invariant (finish s) :=
  { h.finish with
    init_no_tree := nofun
    busy_flags := fun hseq => absurd rfl hseq
    errCode_range := by simp [hcode]
    err_has_code := fun ht => absurd (herr.symm.trans ht) nofun }

theorem invariant_resetAction {s : State} (h : Contents s) : Invariant (resetAction s) :=
  { h.resetAction with
    init_no_tree := fun _ => rfl
    busy_flags := fun _ => ⟨rfl, rfl, rfl, rfl⟩
    errCode_range := Nat.zero_le 9
    err_has_code := nofun }

theorem errCode_of_succeeds {i : Instr} {s u : State} (h : Succeeds i s u) : u.errCode = s.errCode := by
  cases h <;> rfl

section
variable {s : State} (h : Invariant s)
include h

theorem Invariant.withQueues (script : List HostOp) (sched : List Turn) (rst : Bool) :
    Invariant (s.withQueues script sched rst) := { h with }

theorem Invariant.finishInit (hseq : s.seq = .init) : Invariant (finishInit s) :=
  have hnone : s.tree = none := h.init_no_tree hseq
  { h with
    tree_fresh := fun _ hT => absurd (hnone.symm.trans hT) nofun
    init_no_tree := nofun
    busy_flags := fun hne => absurd rfl hne }

theorem Invariant.exec {i : Instr} {t : State} (hbusy : s.seq ≠ .idle) (hexec : exec i s = .next t) :
    Invariant t := by
  obtain ⟨-, herr, hcode, -⟩ := h.busy_flags hbusy
  obtain ⟨u, hu, rfl⟩ | ⟨e, u, hu, rfl⟩ := exec_cases hexec
  · exact invariant_finish (h.contents.of_succeeds hu) ((err_of_succeeds hu).trans herr)
      ((errCode_of_succeeds hu).trans hcode)
  · exact invariant_raiseError (h.contents.of_fails hu) e

theorem Invariant.readStep (off : BitVec 26) : Invariant (readStep off s) := { h with }

theorem Invariant.accept (w : Word) : Invariant (accept w s) :=
  { h with
    init_no_tree := nofun
    busy_flags := fun _ => ⟨rfl, rfl, rfl, rfl⟩
    errCode_range := Nat.zero_le 9
    err_has_code := nofun }

theorem Invariant.clearStatus (w : Word) : Invariant (clearStatus w s) :=
  { h with
    busy_flags := fun hseq => by
      obtain ⟨hdone, herr, hcode, hinfo⟩ := h.busy_flags hseq
      exact ⟨by simp [hdone], by simp [herr], hcode, hinfo⟩
    err_has_code := fun herr => h.err_has_code (Bool.and_eq_true_iff.mp herr).1 }

theorem Invariant.writeFreq (F : FreqTable) : Invariant (writeFreq F s) :=
  { h.contents.writeFreq F, h with init_no_tree := fun _ => rfl }

theorem Invariant.writeInWord (i : Nat) (w : Word) (strb : BitVec 4) : Invariant (writeInWord i w strb s) := by
  have hcontents := h.contents.writeInWord i w strb
  rw [writeInWord_eq] at hcontents ⊢
  exact { hcontents, h with }

/-- Each effect of a step keeps the invariant. -/
theorem Invariant.of_stepEffect {s₀ t : State} (hseq : s.seq = s₀.seq) (hstep : StepEffect s₀ s t) : Invariant t := by
  cases hstep with
  | stutter => exact h
  | init _ hinit => exact h.finishInit (hseq.trans hinit)
  | command _ hbusy _ hexec => exact h.exec (by simp [hseq, hbusy]) hexec
  | illegal => exact invariant_raiseError h.contents _
  | read off => exact h.readStep off
  | accepted => exact h.accept _
  | reset => exact invariant_resetAction h.contents
  | cleared => exact h.clearStatus _
  | freq F => exact h.writeFreq F
  | inWord i => exact h.writeInWord i _ _
  | dropped | irqEn | inLen | inBitlen => exact { h with }

end

/-! ## The statements -/

/-- Settles O7: the queues are outside the invariant, and each effect of a step keeps it. -/
theorem stepKeepsInvariant : Obligations.StepKeepsInvariant := by
  intro s t hs h
  obtain ⟨script, sched, rst, hstep⟩ := step_effect h
  exact (hs.withQueues script sched rst).of_stepEffect (s₀ := s) rfl hstep

/-- Settles O8: after reset every register is 0, and no byte, code and tree is specified. -/
theorem resetSatisfiesInvariant : Obligations.ResetSatisfiesInvariant where
  params_wf := by decide
  inMem_wf := .nil
  inMem_inside := nofun
  outMem_offsets := rfl
  outLen_inside := Nat.zero_le _
  code_fresh := nofun
  tree_fresh := nofun
  init_no_tree := fun _ => rfl
  busy_flags := fun _ => ⟨rfl, rfl, rfl, rfl⟩
  errCode_range := Nat.zero_le 9
  err_has_code := nofun

end Sys2Proof.Machine
end

section
/-! The address map region by region, and what the windows do at each of their bytes (R24 of 10_state.md, R70, R71, R77,
R78, R80 of 20_memory.md). -/

namespace Sys2Proof.Machine

/-! ## The targets that are left -/

theorem csrOfIndex_of_ge {j : Nat} (h : 14 ≤ j) : csrOfIndex j = none := by
  obtain ⟨k, rfl⟩ := Nat.exists_eq_add_of_le' h
  rfl

/-- The offsets with no storage (R70). -/
theorem targetOf_unmapped {off : BitVec 26} (h : (0x038 ≤ off.toNat ∧ off.toNat < 0x1000) ∨
    (0x1400 ≤ off.toNat ∧ off.toNat < 0x4000) ∨ (0x8000 ≤ off.toNat ∧ off.toNat < 0x1000000) ∨
    0x3000000 ≤ off.toNat) : targetOf off = .unmapped := by
  unfold targetOf
  simp only
  obtain h | h | h | h := h
  · rw [if_pos (by omega), csrOfIndex_of_ge (by omega)]
  · rw [if_neg (by omega), if_neg (by omega), if_pos (by omega)]
  · rw [if_neg (by omega), if_neg (by omega), if_neg (by omega), if_neg (by omega), if_pos (by omega)]
  · rw [if_neg (by omega), if_neg (by omega), if_neg (by omega), if_neg (by omega), if_neg (by omega),
      if_neg (by omega), if_neg (by omega)]

/-- The target of every byte of a CODE-window word (R80). -/
theorem targetOf_code {off : BitVec 26} {x : Byte} {k : Nat} (hk : k < 16)
    (h : off.toNat / 4 = 0x1000 + 16 * x.toNat + k) : targetOf off = .code x k := by
  have hx := x.isLt
  have hsym : (off.toNat / 4 * 4 - 0x4000) / 64 = x.toNat := by omega
  have hword : (off.toNat / 4 * 4 - 0x4000) % 64 / 4 = k := by omega
  unfold targetOf
  simp only
  rw [if_neg (by omega), if_neg (by omega), if_neg (by omega), if_pos (by omega), hsym, hword, BitVec.ofNat_toNat,
    BitVec.setWidth_eq]

/-- An address of the window is BASE and its offset (R70). -/
theorem toNat_offsetOf_base_add (p : Params) {x : Nat} (h : x < 2 ^ 26) :
    (Params.offsetOf p (p.base + x)).toNat = x := by
  have hx : ((p.base + x : Nat) : Int) - (p.base : Int) = (x : Int) := by omega
  rw [Params.offsetOf, hx, BitVec.ofInt_natCast, BitVec.toNat_ofNat, Nat.mod_eq_of_lt h]

/-! ## Reads and writes by the targets that are left -/

section
variable {off : BitVec 26} (w : Word) (strb : BitVec 4) (s : State)

theorem hostRead_of_unmapped (h : targetOf off = .unmapped) : hostRead s off = 0 := by simp only [hostRead, h]

theorem hostWrite_of_unmapped (h : targetOf off = .unmapped) : hostWrite off w strb s = s := by
  simp only [hostWrite, h]

theorem hostWrite_of_outWord {i : Nat} (h : targetOf off = .outWord i) : hostWrite off w strb s = s := by
  simp only [hostWrite, h]

theorem hostRead_of_code {x : Byte} {k : Nat} (h : targetOf off = .code x k) :
    hostRead s off = hidden s (codeWord (s.codeOf x) k) := by
  simp only [hostRead, h]

theorem hostWrite_of_code {x : Byte} {k : Nat} (h : targetOf off = .code x k) : hostWrite off w strb s = s := by
  simp only [hostWrite, h]

theorem hostWrite_of_inWord {i : Nat} (h : targetOf off = .inWord i) :
    hostWrite off w strb s = if s.isBusy then s else writeInWord i w strb s := by
  simp only [hostWrite, h]

end

/-! ## The bytes of a window's word -/

/-- The lanes of a word made of four consecutive bytes (R74). -/
theorem lane_wordOfLanes_add (f : Nat → Byte) (i : Nat) {L : Nat} (h : L < 4) :
    lane (wordOfLanes (f i) (f (i + 1)) (f (i + 2)) (f (i + 3))) L = f (i + L) := by
  obtain ⟨h0, h1, h2, h3⟩ := lane_wordOfLanes (f i) (f (i + 1)) (f (i + 2)) (f (i + 3))
  match L, h with
  | 0, _ => exact h0
  | 1, _ => exact h1
  | 2, _ => exact h2
  | 3, _ => exact h3

theorem lane_hostRead_of_inWord {off : BitVec 26} {i L : Nat} (s : State) (h : targetOf off = .inWord i) (hL : L < 4) :
    lane (hostRead s off) L = inWindowByte s (i + L) := by
  rw [hostRead_of_inWord s h, lane_wordOfLanes_add (inWindowByte s) i hL]

theorem lane_hostRead_of_outWord {off : BitVec 26} {i L : Nat} (s : State) (h : targetOf off = .outWord i)
    (hL : L < 4) : lane (hostRead s off) L = outWindowByte s (i + L) := by
  rw [hostRead_of_outWord s h, lane_wordOfLanes_add (outWindowByte s) i hL]

theorem inWindowByte_of_le {s : State} {i : Nat} (h : s.params.capIn ≤ i) : inWindowByte s i = 0 :=
  if_neg (Nat.not_lt.mpr h)

theorem outWindowByte_of_le {s : State} {i : Nat} (h : s.params.capOut ≤ i) : outWindowByte s i = 0 :=
  if_neg (Nat.not_lt.mpr h)

/-- The byte at `a` after an IN-window write of the word at `i` (R77). -/
theorem get?_writeInWord {s : State} (i a : Nat) (w : Word) (strb : BitVec 4) (h : Memory.wf s.inMem) :
    Memory.get? (writeInWord i w strb s).inMem a =
      if (i ≤ a ∧ a < i + 4) ∧ strb.getLsbD (a - i) = true ∧ a < s.params.capIn then some (lane w (a - i))
      else Memory.get? s.inMem a := by
  have h0 := wf_writeInLane i (lane w 0) (strb.getLsbD 0) h
  have h1 := wf_writeInLane (i + 1) (lane w 1) (strb.getLsbD 1) h0
  have h2 := wf_writeInLane (i + 2) (lane w 2) (strb.getLsbD 2) h1
  rw [writeInWord, get?_writeInLane _ _ _ _ h2, get?_writeInLane _ _ _ _ h1, get?_writeInLane _ _ _ _ h0,
    get?_writeInLane _ _ _ _ h]
  simp only [params_writeInLane]
  by_cases ha : i ≤ a ∧ a < i + 4
  · obtain ⟨L, rfl⟩ := Nat.exists_eq_add_of_le ha.1
    have hL : L < 4 := by omega
    match L, hL with
    | 0, _ => simp
    | 1, _ => simp
    | 2, _ => simp
    | 3, _ => simp
  · rw [if_neg (by omega), if_neg (by omega), if_neg (by omega), if_neg (by omega), if_neg (fun hin => ha hin.1)]

/-! ## The bits of a CODE-window word -/

theorem natOfBits_append_singleton (b : BitSeq) (x : Bool) : natOfBits (b ++ [x]) = 2 * natOfBits b + x.toNat := by
  simp [natOfBits]

/-- The first of the binary digits is the most significant (R8). -/
theorem testBit_natOfBits (b : BitSeq) (i : Nat) : (natOfBits b).testBit i = b.reverse.getD i false := by
  induction b using List.reverseRecOn generalizing i with
  | nil => simp [natOfBits]
  | append_singleton b x ih =>
    rw [natOfBits_append_singleton, List.reverse_append]
    cases i with
    | zero => cases x <;> simp [Nat.testBit_zero]
    | succ i =>
      have hx := x.toNat_le
      have hhalf : (2 * natOfBits b + x.toNat) / 2 = natOfBits b := by omega
      rw [Nat.testBit_succ, hhalf, ih]
      simp

/-- Bit `31 - t` of the word is the code's bit at `t` from the index on (R80). -/
theorem getLsbD_wordOfCodeBits (e : BitSeq) (i : Nat) {t : Nat} (h : t < 32) :
    (wordOfCodeBits e i).getLsbD (31 - t) = e.getD (i + t) false := by
  have hlt : 31 - t < 32 := by omega
  have ht : 31 - (31 - t) = t := by omega
  rw [wordOfCodeBits, BitVec.getLsbD_ofNat, testBit_natOfBits, List.getD_eq_getElem _ _ (by simp; omega)]
  simp [hlt, ht]

theorem toNat_codeWord_zero {e : BitSeq} (h : e.length ≤ 255) : (codeWord e 0).toNat = e.length := by
  rw [codeWord, if_pos rfl, BitVec.toNat_setWidth, BitVec.toNat_ofNat]
  omega

theorem codeWord_of_le {e : BitSeq} {k : Nat} (h1 : 1 ≤ k) (h8 : k ≤ 8) :
    codeWord e k = wordOfCodeBits e (32 * (k - 1)) := by
  rw [codeWord, if_neg (by omega), if_pos h8]

theorem codeWord_of_ge {e : BitSeq} {k : Nat} (h : 9 ≤ k) : codeWord e k = 0 := by
  rw [codeWord, if_neg (by omega), if_neg (by omega)]

/-! ## The statements -/

/-- Settles O18: each region is decoded by its range of offsets. -/
theorem addressMapPlacesEveryRegion : Obligations.AddressMapPlacesEveryRegion := by
  refine ⟨fun p x => toNat_offsetOf_base_add p, by decide, fun off hlo hhi => targetOf_unmapped (.inl ⟨hlo, hhi⟩),
    fun x => targetOf_freq ?freq, fun off hlo hhi => targetOf_unmapped (.inr (.inl ⟨hlo, hhi⟩)),
    fun x k hk => targetOf_code hk ?code, fun off hlo hhi => targetOf_unmapped (.inr (.inr (.inl ⟨hlo, hhi⟩))),
    fun j hj => targetOf_inWord hj ?inWord, fun j hj => targetOf_outWord hj ?outWord,
    fun off hlo => targetOf_unmapped (.inr (.inr (.inr hlo)))⟩
  case freq => have := x.isLt; rw [BitVec.toNat_ofNat]; omega
  case code => have := x.isLt; rw [BitVec.toNat_ofNat]; omega
  case inWord => rw [BitVec.toNat_ofNat]; omega
  case outWord => rw [BitVec.toNat_ofNat]; omega

/-- Settles O19: by the target of the offset, and by the lane of a window's word. -/
theorem unmappedBytesReadZeroAndIgnoreWrites : Obligations.UnmappedBytesReadZeroAndIgnoreWrites := by
  intro s off w strb
  refine ⟨fun h => ?unmapped, fun j L hj hL hoff hcap => ?inWindow, fun j L hj hL hoff hcap => ?outWindow,
    fun hlo => ?outWrite⟩
  case unmapped =>
    exact ⟨hostRead_of_unmapped s (targetOf_unmapped h), hostWrite_of_unmapped w strb s (targetOf_unmapped h)⟩
  case inWindow =>
    have htarget : targetOf off = .inWord (4 * j) := targetOf_inWord hj (by omega)
    refine ⟨(lane_hostRead_of_inWord s htarget hL).trans (inWindowByte_of_le hcap), fun hwf => ?_⟩
    rw [hostWrite_of_inWord w strb s htarget]
    split
    · rfl
    · rw [get?_writeInWord _ _ _ _ hwf, if_neg (by omega)]
  case outWindow =>
    have htarget : targetOf off = .outWord (4 * j) := targetOf_outWord hj (by omega)
    exact (lane_hostRead_of_outWord s htarget hL).trans (outWindowByte_of_le hcap)
  case outWrite =>
    by_cases hhi : 0x3000000 ≤ off.toNat
    · exact hostWrite_of_unmapped w strb s (targetOf_unmapped (.inr (.inr (.inr hhi))))
    · exact hostWrite_of_outWord w strb s (targetOf_outWord (j := off.toNat / 4 - 0x800000) (by omega) (by omega))

/-- Settles O21: the bytes of word `j` are those at `4 * j` to `4 * j + 3`. -/
theorem inWindowWriteSetsStrobedBytes : Obligations.InWindowWriteSetsStrobedBytes := by
  intro s j k w strb hj hk hwf t
  have htarget : targetOf (BitVec.ofNat 26 (0x1000000 + 4 * j + k)) = .inWord (4 * j) :=
    targetOf_inWord hj (by rw [BitVec.toNat_ofNat]; omega)
  have ht : t = if s.isBusy then s else writeInWord (4 * j) w strb s := hostWrite_of_inWord w strb s htarget
  refine ⟨fun hbusy => by rw [ht, if_pos hbusy], fun hidle => ?_⟩
  rw [if_neg (by simp [hidle])] at ht
  rw [ht]
  refine ⟨writeInWord_eq _ _ _ _, fun a => ?_⟩
  rw [get?_writeInWord _ _ _ _ hwf]
  by_cases ha : a / 4 = j
  · have hlane : a - 4 * j = a % 4 := by omega
    have hword : 4 * j ≤ a ∧ a < 4 * j + 4 := by omega
    simp only [ha, hword, hlane, true_and]
    rfl
  · rw [if_neg (by omega), if_neg (fun h => ha h.1)]

/-- Settles O23: the words of a CODE entry by their number. -/
theorem codeWindowReadsLengthAndLeftAlignedBits : Obligations.CodeWindowReadsLengthAndLeftAlignedBits := by
  intro s x k w strb hk off
  have htarget : targetOf off = .code x k :=
    targetOf_code hk (by have := x.isLt; rw [BitVec.toNat_ofNat]; omega)
  refine ⟨hostWrite_of_code w strb s htarget, fun hidle hlen => ?_⟩
  rw [hostRead_of_code s htarget, hidden_of_idle hidle]
  refine ⟨?length, fun h1 h8 t ht => ?bits, codeWord_of_ge⟩
  case length =>
    rintro rfl
    exact toNat_codeWord_zero hlen
  case bits => rw [codeWord_of_le h1 h8, getLsbD_wordOfCodeBits _ _ ht]

end Sys2Proof.Machine
end

section
/-! The control registers: what each reads, the layout of STATUS, and the writes of the read-only registers, IN_LEN and
IN_BITLEN (R24 to R38 of 10_state.md, R129 of 40_host_bus.md). -/

namespace Sys2Proof.Machine

open Sys2Proof.Spec

/-! ## Reads -/

theorem hostRead_of_csr {off : BitVec 26} {r : Csr} (s : State) (h : targetOf off = .csr r) :
    hostRead s off = readCsr s r := by
  simp only [hostRead, h]

theorem toNat_readCtrl (s : State) : (readCsr s .ctrl).toNat = s.irqEn.toNat := by
  cases h : s.irqEn <;> simp [readCsr, h]

theorem toNat_readErrCode (s : State) : (readCsr s .errCode).toNat = s.errCode.toNat := by
  have := s.errCode.isLt
  rw [readCsr, BitVec.toNat_setWidth, Nat.mod_eq_of_lt (by omega)]

/-- SYM_COUNT counts the present symbols (R36). -/
theorem symCount_eq_length_symbols (F : FreqTable) : symCount F = (symbols F).length := by
  rw [symCount, entries_eq_map, List.countP_map, symbols, ← List.countP_eq_length_filter]
  exact List.countP_congr fun x _ => by simp

/-- There are at most 256 symbols, so the 9 bits of SYM_COUNT hold their number (R36). -/
theorem toNat_readSymCount {s : State} (h : s.isBusy = false) :
    (readCsr s .symCount).toNat = (symbols s.freq).length := by
  have hle := length_symbols_le s.freq
  rw [readCsr, hidden_of_idle h, symCount_eq_length_symbols, BitVec.toNat_and, BitVec.toNat_ofNat,
    show (0x1FF#32).toNat = 2 ^ 9 - 1 from rfl, Nat.and_two_pow_sub_one_eq_mod]
  omega

/-! ## STATUS -/

section
variable (s : State) (treeValid codeValid : Bool)

/-- The layout of R28: six flags from bit 0 on, LAST_OP from bit 8 on, and 0 elsewhere. -/
theorem getLsbD_statusWord (j : Nat) : (statusWord s treeValid codeValid).getLsbD j =
    if j < 6 then [s.isBusy, s.done, s.err, s.drop, treeValid, codeValid].getD j false
    else decide (8 ≤ j) && s.lastOp.getLsbD (j - 8) := by
  show BitVec.getLsbD (0#20 ++ s.lastOp ++ 0#2 ++ BitVec.ofBool codeValid ++ BitVec.ofBool treeValid ++
    BitVec.ofBool s.drop ++ BitVec.ofBool s.err ++ BitVec.ofBool s.done ++ BitVec.ofBool s.isBusy) j = _
  simp only [BitVec.getLsbD_append]
  match j with
  | 0 | 1 | 2 | 3 | 4 | 5 => simp
  | 6 | 7 => simp
  | j + 8 =>
    have hlow : ¬ j + 8 < 6 := by omega
    by_cases hj : j < 4
    · simp [hlow, hj]
    · simp [hlow, hj, BitVec.getLsbD_of_ge s.lastOp j (by omega)]

theorem statusWord_reserved_lastOp : let v := statusWord s treeValid codeValid
    v.extractLsb' 6 2 = 0 ∧ v.extractLsb' 8 4 = s.lastOp ∧ v.extractLsb' 12 20 = 0 := by
  refine ⟨?_, ?_, ?_⟩
  all_goals
    refine BitVec.eq_of_getLsbD_eq fun i hi => ?_
    rw [BitVec.getLsbD_extractLsb', getLsbD_statusWord, if_neg (by omega)]
  · simp [show ¬ 8 ≤ 6 + i by omega]
  · simp [hi]
  · rw [BitVec.getLsbD_of_ge _ _ (by omega)]
    simp

end

theorem readStatus_of_idle {s : State} (h : s.isBusy = false) :
    readCsr s .status = statusWord s s.treeValid s.codeValid := if_neg (by simp [h])

theorem readStatus_of_busy {s : State} (h : s.isBusy = true) :
    readCsr s .status = statusWord s (Config.freeBit s.draws 4) (Config.freeBit s.draws 5) := if_pos h

/-- A write of STATUS that reaches lane 0 clears where `wdata` has a 1 (R28). -/
theorem clearStatus_eq_ite (w : Word) (s : State) : clearStatus w s =
    { s with done := if w.getLsbD 1 then false else s.done
             err := if w.getLsbD 2 then false else s.err
             drop := if w.getLsbD 3 then false else s.drop } := by
  have bit (flag one : Bool) : (flag && !one) = if one then false else flag := by cases one <;> simp
  simp only [clearStatus, bit]

/-! ## Writes -/

/-- The registers whose writes are ignored (R24). -/
def readOnlyCsrs : List Csr :=
  [.id, .errCode, .errInfo, .outLen, .outBitlen, .hdrLen, .symCount, .capIn, .capOut]

theorem exists_readOnlyCsr : ∀ j ∈ [0, 4, 5, 8, 9, 10, 11, 12, 13], ∃ r ∈ readOnlyCsrs, csrOfIndex j = some r := by
  decide

section
variable {off : BitVec 26} (w : Word) (strb : BitVec 4) (s : State)

theorem hostWrite_of_readOnly {r : Csr} (h : targetOf off = .csr r) (hr : r ∈ readOnlyCsrs) :
    hostWrite off w strb s = s := by
  cases r with
  | ctrl | cmd | status | inLen | inBitlen => exact absurd hr (by decide)
  | _ => simp only [hostWrite, h]

theorem hostWrite_of_inLen (h : off.toNat / 4 = 6) : hostWrite off w strb s =
    if s.isBusy then s else { s with inLen := mergeLanes s.inLen w strb } := by
  have htarget : targetOf off = .csr .inLen := targetOf_of_index off 6 .inLen h rfl
  simp only [hostWrite, htarget]

theorem hostWrite_of_inBitlen (h : off.toNat / 4 = 7) : hostWrite off w strb s =
    if s.isBusy then s else { s with inBitlen := mergeLanes s.inBitlen w strb } := by
  have htarget : targetOf off = .csr .inBitlen := targetOf_of_index off 7 .inBitlen h rfl
  simp only [hostWrite, htarget]

end

/-! ## The statements -/

/-- Settles O24: each register by its own read, and each write by its register. -/
theorem controlRegistersReadTheirFields : Obligations.ControlRegistersReadTheirFields := by
  intro s hidle
  refine ⟨hostRead_of_csr s (r := .id) rfl, ?ctrl, hostRead_of_csr s (r := .cmd) rfl, ?errCode,
    hostRead_of_csr s (r := .errInfo) rfl, hostRead_of_csr s (r := .inLen) rfl,
    hostRead_of_csr s (r := .inBitlen) rfl, ?outLen, ?outBitlen, ?hdrLen, ?symCount,
    hostRead_of_csr s (r := .capIn) rfl, hostRead_of_csr s (r := .capOut) rfl, fun off w strb => ?writes⟩
  case ctrl => rw [hostRead_of_csr s (r := .ctrl) rfl, toNat_readCtrl]
  case errCode => rw [hostRead_of_csr s (r := .errCode) rfl, toNat_readErrCode]
  case outLen => exact (hostRead_of_csr s (r := .outLen) rfl).trans (hidden_of_idle hidle _)
  case outBitlen => exact (hostRead_of_csr s (r := .outBitlen) rfl).trans (hidden_of_idle hidle _)
  case hdrLen => exact (hostRead_of_csr s (r := .hdrLen) rfl).trans (hidden_of_idle hidle _)
  case symCount => rw [hostRead_of_csr s (r := .symCount) rfl, toNat_readSymCount hidle]
  case writes =>
    refine ⟨fun hoff => ?readOnly, fun hoff => ?inLen, fun hoff => ?inBitlen⟩
    case readOnly =>
      obtain ⟨r, hr, hindex⟩ := exists_readOnlyCsr _ hoff
      exact hostWrite_of_readOnly w strb s (targetOf_of_index off _ r rfl hindex) hr
    case inLen =>
      rw [hostWrite_of_inLen w strb s hoff, if_neg (by simp [hidle])]
      refine ⟨rfl, fun L hL => lane_mergeLanes s.inLen w strb L hL, ?_⟩
      rintro rfl
      exact mergeLanes_all s.inLen w
    case inBitlen =>
      rw [hostWrite_of_inBitlen w strb s hoff, if_neg (by simp [hidle])]
      refine ⟨rfl, fun L hL => lane_mergeLanes s.inBitlen w strb L hL, ?_⟩
      rintro rfl
      exact mergeLanes_all s.inBitlen w

/-- Settles O25: while BUSY the invariant has the flags and error registers 0, and STATUS hides bits 4 and 5 only. -/
theorem exactReadsWhileBusy : Obligations.ExactReadsWhileBusy := by
  intro s hs hbusy
  obtain ⟨hdone, herr, hcode, hinfo⟩ := hs.busy_flags ((isBusy_eq_true_iff s).mp hbusy)
  have hstatus : hostRead s 0x00C = _ := (hostRead_of_csr s (r := .status) rfl).trans (readStatus_of_busy hbusy)
  refine ⟨hostRead_of_csr s (r := .id) rfl, ?ctrl, ?errCode, (hostRead_of_csr s (r := .errInfo) rfl).trans hinfo,
    hostRead_of_csr s (r := .inLen) rfl, hostRead_of_csr s (r := .inBitlen) rfl,
    hostRead_of_csr s (r := .capIn) rfl, hostRead_of_csr s (r := .capOut) rfl, ?status⟩
  case ctrl => rw [hostRead_of_csr s (r := .ctrl) rfl, toNat_readCtrl]
  case errCode => rw [hostRead_of_csr s (r := .errCode) rfl, readCsr, hcode]; rfl
  case status =>
    rw [hstatus]
    simp only [getLsbD_statusWord]
    exact ⟨hbusy, hdone, herr, rfl, statusWord_reserved_lastOp _ _ _⟩

/-- Settles O26: by the layout of the word, and by the write of lane 0. -/
theorem statusLayoutAndWriteOneToClear : Obligations.StatusLayoutAndWriteOneToClear := by
  intro s off w strb hoff
  have htarget : targetOf off = .csr .status := targetOf_of_index off 3 .status hoff rfl
  rw [hostWrite_of_status w strb s hoff]
  refine ⟨fun hidle => ?layout, fun hlane0 => ?clear, fun hlane0 => ?ignored⟩
  case layout =>
    rw [hostRead_of_csr s htarget, readStatus_of_idle hidle]
    simp only [getLsbD_statusWord]
    exact ⟨hidle, rfl, rfl, rfl, rfl, rfl, statusWord_reserved_lastOp _ _ _⟩
  case clear => rw [if_pos hlane0, clearStatus_eq_ite]
  case ignored => rw [if_neg (ne_true_of_eq_false hlane0)]

end Sys2Proof.Machine
end

section
/-! Single steps, whoever moves, and reset: the turn that is taken, the INIT step, the HOST's transactions and the reset
input (R120, R121, R124 of 40_host_bus.md, R340 to R343 of 70_reset_and_hazards.md). -/

namespace Sys2Proof.Machine

/-! ## The turn of a step -/

theorem popTurn_of_nil {s : State} (h : s.sched = []) : s.popTurn = s := by
  rw [popTurn_eq_fields, h, List.tail_nil, ← h]

theorem popTurn_of_cons {s : State} {t : Turn} {rest : List Turn} (h : s.sched = t :: rest) :
    s.popTurn = { s with sched := rest } := by
  rw [popTurn_eq_fields, h, List.tail_cons]

/-- A CORE turn while `rst` is low. -/
theorem step_of_core {s : State} (hturn : s.turn = .core) (hrst : s.rst = false) : step s = coreStep s.popTurn := by
  rw [step_eq, hturn]
  exact if_neg (ne_true_of_eq_false hrst)

/-- A HOST turn while `rst` is low. -/
theorem step_of_host {s : State} (hturn : s.turn = .host) (hrst : s.rst = false) :
    step s = .next (hostStep s.popTurn) := by
  rw [step_eq, hturn]
  exact congrArg Host.Outcome.next (if_neg (ne_true_of_eq_false hrst))

/-! ## The CORE's step -/

theorem coreStep_of_init {s : State} (h : s.seq = .init) : coreStep s = .next (finishInit s) := by
  simp only [coreStep, h]

theorem coreStep_of_idle {s : State} (h : s.seq = .idle) : coreStep s = .next s := by
  simp only [coreStep, h]

theorem exists_exec_eq_next (i : Instr) (s : State) : ∃ t, exec i s = .next t := by
  obtain ⟨u, -, h | ⟨e, h⟩⟩ := exec_shape i s
  · exact ⟨_, h⟩
  · exact ⟨_, h⟩

/-- The CORE completes whatever word is latched. -/
theorem exists_coreStep_of_busy {s : State} {w : Word} (h : s.seq = .busy w) :
    ∃ t, coreStep s = .next t ∧ t.seq = .idle ∧ t.done = true ∧ t.lastOp = s.lastOp ∧ t.drop = s.drop := by
  cases hw : decode w with
  | ok i =>
    obtain ⟨t, ht⟩ := exists_exec_eq_next i s
    obtain ⟨hseq, hdone⟩ := seq_done_of_exec ht
    obtain ⟨-, -, -, -, hdrop, hlastOp, -⟩ := commandsLeaveTheirInputsUnchanged i s t ht
    exact ⟨t, (coreStep_of_command h hw).trans ht, hseq, hdone, hlastOp, hdrop⟩
  | error e => exact ⟨_, coreStep_of_illegal h hw, rfl, rfl, rfl, rfl⟩

theorem exists_coreStep_eq_next (s : State) : ∃ t, coreStep s = .next t := by
  cases h : s.seq with
  | init => exact ⟨_, coreStep_of_init h⟩
  | idle => exact ⟨_, coreStep_of_idle h⟩
  | busy w =>
    obtain ⟨t, ht, -⟩ := exists_coreStep_of_busy h
    exact ⟨t, ht⟩

theorem exists_takeTurn_eq_next (t : Turn) (s : State) : ∃ u, takeTurn t s = .next u := by
  cases t with
  | host => exact ⟨_, rfl⟩
  | core =>
    obtain ⟨u, hu⟩ := exists_coreStep_eq_next s
    cases hrst : s.rst with
    | true => exact ⟨s, if_pos hrst⟩
    | false => exact ⟨u, (if_neg (ne_true_of_eq_false hrst)).trans hu⟩
  | rstPin level => cases level <;> exact ⟨_, rfl⟩

/-- Reset leaves the INIT step to come, which clears FREQ and sets no DONE (R343). -/
theorem exists_coreStep_resetAction (s : State) : ∃ t, coreStep (resetAction s) = .next t ∧ t.seq = .idle ∧
    t.done = false ∧ ∀ x, t.freq.get x = 0 :=
  ⟨_, coreStep_of_init rfl, rfl, rfl, Table.get_fill 0⟩

/-! ## The HOST's step -/

/-- A STATUS read returns BUSY in bit 0 (R28). -/
theorem getLsbD_zero_hostRead_status (s : State) : (hostRead s 0x00C).getLsbD 0 = s.isBusy := by
  rw [hostRead_of_csr s (r := .status) rfl]
  cases h : s.isBusy with
  | true => rw [readStatus_of_busy h, getLsbD_statusWord]; exact h
  | false => rw [readStatus_of_idle h, getLsbD_statusWord]; exact h

/-- The HOST's step of a WAIT: a read of STATUS, which keeps the WAIT while BUSY (R105). -/
theorem hostStep_wait {s : State} {rest : List HostOp} (h : s.script = .wait :: rest) : hostStep s =
    readStep 0x00C { s with script := if s.isBusy then .wait :: rest else rest } := by
  have hstep : hostStep s = if s.isBusy then readStep 0x00C s else readStep 0x00C { s with script := rest } := by
    simp only [hostStep, h]
  rw [hstep]
  split
  · rw [← h]
  · rfl

/-! ## The statements: steps -/

/-- Settles O3: the decoder on nine words. -/
theorem sampleWordsDecode : Obligations.SampleWordsDecode := by
  unfold Obligations.SampleWordsDecode
  decide

/-- Settles O4: the turn is CORE's, and its step runs the latched command. -/
theorem stepRunsTheLatchedCommand : Obligations.StepRunsTheLatchedCommand := by
  intro s w i hrst hseq hlegal
  refine ⟨fun hsched => ?default, fun rest hsched => ?scheduled⟩
  case default =>
    have hturn : s.turn = .core := turn_of_busy hsched ((isBusy_eq_true_iff s).mpr (by simp [hseq]))
    rw [step_of_core hturn hrst, popTurn_of_nil hsched, coreStep_of_command hseq hlegal]
  case scheduled =>
    rw [step_of_core (turn_of_sched hsched) hrst, popTurn_of_cons hsched]
    exact coreStep_of_command hseq hlegal

/-- Settles O5: every turn has an outcome, and every latched word a completion. -/
theorem everyStepAnswersNext : Obligations.EveryStepAnswersNext := by
  intro s
  rw [step_eq]
  exact exists_takeTurn_eq_next _ _

/-- Settles O6: the turn is CORE's, which completes a legal and an illegal word alike. -/
theorem busyCommandCompletesInOneStep : Obligations.BusyCommandCompletesInOneStep := by
  intro s w hrst hsched hseq
  have hturn : s.turn = .core := turn_of_busy hsched ((isBusy_eq_true_iff s).mpr (by simp [hseq]))
  rw [step_of_core hturn hrst, popTurn_of_nil hsched]
  exact exists_coreStep_of_busy hseq

/-! ## The statements: reset -/

theorem step_of_init {s : State} (hseq : s.seq = .init) (hrst : s.rst = false) (hsched : s.sched = []) :
    step s = .next (finishInit s) := by
  have hturn : s.turn = .core := turn_of_busy hsched ((isBusy_eq_true_iff s).mpr (by simp [hseq]))
  rw [step_of_core hturn hrst, popTurn_of_nil hsched, coreStep_of_init hseq]

/-- Settles O11: the step is `finishInit`. -/
theorem initStepClearsFreqAndGoesIdle : Obligations.InitStepClearsFreqAndGoesIdle := by
  intro s hseq hrst hsched
  exact ⟨_, step_of_init hseq hrst hsched, Table.get_fill 0, rfl⟩

/-- Settles O9: the reads of the fixed state, and the INIT step after it. -/
theorem resetLeavesTheStatedValues : Obligations.ResetLeavesTheStatedValues := by
  have hfreq (x : Byte) : State.reset.freq.get x = 0 := Table.get_fill 0 x
  refine ⟨⟨rfl, by decide, rfl, rfl, rfl, rfl, rfl, rfl, by decide, rfl, rfl, rfl, rfl, rfl, rfl,
    (symCount_eq_zero_iff _).mpr hfreq, rfl, rfl, hfreq, rfl, rfl, fun _ => rfl, fun _ => rfl, rfl, rfl⟩,
    finishInit State.reset, step_of_init rfl rfl rfl, rfl, by decide, rfl, hfreq⟩

/-- Settles O10: a write of CTRL that reaches lane 0 is `resetAction` or a write of IRQ_EN. -/
theorem softResetRestoresResetValues : Obligations.SoftResetRestoresResetValues := by
  intro s off w strb hoff
  rw [hostWrite_of_ctrl w strb s hoff]
  refine ⟨fun hlane0 hsreset => ?reset, fun hsreset hlane0 => ?irqEn, fun hlane0 => ?ignored, ?read⟩
  case reset =>
    rw [if_pos hlane0, writeCtrl_of_softReset s hsreset]
    exact ⟨rfl, rfl, exists_coreStep_resetAction s⟩
  case irqEn => rw [if_pos hlane0, writeCtrl_of_not_softReset s hsreset]
  case ignored => rw [if_neg (ne_true_of_eq_false hlane0)]
  case read =>
    rw [hostRead_of_csr s (targetOf_of_index off 1 .ctrl hoff rfl)]
    cases h : s.irqEn <;> simp [readCsr, h]

/-- Settles O12: a turn of an agent is void while `rst` is 1, and the release is `resetAction`. -/
theorem resetPinFreezesTheBlock : Obligations.ResetPinFreezesTheBlock := by
  intro s rest hrst
  refine ⟨fun hsched => ?frozen, fun hsched => ?released⟩
  case frozen =>
    obtain hsched | hsched := hsched
    · rw [step_eq, turn_of_sched hsched, popTurn_of_cons hsched]
      exact congrArg Host.Outcome.next (if_pos hrst)
    · rw [step_eq, turn_of_sched hsched, popTurn_of_cons hsched]
      exact if_pos hrst
  case released =>
    have hstep : step s = .next (resetAction { s with sched := rest, rst := false }) := by
      rw [step_eq, turn_of_sched hsched, popTurn_of_cons hsched]
      exact congrArg Host.Outcome.next (if_pos hrst)
    refine ⟨hstep, fun t ht => ?_⟩
    obtain rfl := Host.Outcome.next.inj (hstep.symm.trans ht)
    exact ⟨rfl, exists_coreStep_resetAction _⟩

/-! ## The statements: the HOST's transactions -/

/-- Settles O15: a HOST turn, scheduled or by default, is the next operation of the script. -/
theorem hostReadChangesNoState : Obligations.HostReadChangesNoState := by
  intro s addr rest more hrst off
  refine ⟨fun hscript => ⟨fun hsched => ?read, fun hsched hidle => ?readByDefault⟩, fun w strb hscript =>
    ⟨fun hsched => ?write, fun hsched hidle => ?writeByDefault⟩⟩
  case read =>
    rw [step_of_host (turn_of_sched hsched) hrst, hostStep_rd (s := s.popTurn) hscript,
      popTurn_of_cons hsched]
    rfl
  case readByDefault =>
    rw [step_of_host (turn_of_idle hsched hidle) hrst, popTurn_of_nil hsched, hostStep_rd hscript]
    rfl
  case write =>
    rw [step_of_host (turn_of_sched hsched) hrst, hostStep_wr (s := s.popTurn) hscript,
      popTurn_of_cons hsched]
  case writeByDefault =>
    rw [step_of_host (turn_of_idle hsched hidle) hrst, popTurn_of_nil hsched, hostStep_wr hscript]

/-- Settles O16: the word read has BUSY as bit 0, and the script keeps WAIT by BUSY. -/
theorem waitPollsStatusUntilNotBusy : Obligations.WaitPollsStatusUntilNotBusy := by
  intro s rest more hrst hscript hsched
  have hbit := getLsbD_zero_hostRead_status s
  refine ⟨hostRead s 0x00C, hbit, rfl, ?_⟩
  rw [hbit, step_of_host (turn_of_sched hsched) hrst, hostStep_wait (s := s.popTurn) hscript,
    popTurn_of_cons hsched]
  rfl

end Sys2Proof.Machine
end

section
/-! The laws of the codec (R266, R267 of 46_codec.md): the length of the encoded bits, the round trip of COMPRESS and
DECOMPRESS, and what the two depend on. -/

namespace Sys2Proof.Machine

open Sys2Proof.Spec

/-! ## The encoded bits -/

/-- A symbol is present in the count of a list exactly when it stands in it (R140). -/
theorem get_count_ne_zero_iff {X : List Byte} (h : X.length < 2 ^ 32) {x : Byte} : (count X).get x ≠ 0 ↔ x ∈ X := by
  rw [← List.count_pos_iff, ← toNat_get_count h, Nat.pos_iff_ne_zero, ne_eq, ne_eq, BitVec.toNat_eq]
  rfl

/-- Every byte of `X` is counted, so it has a code (R264). -/
theorem compressBits_of_length_lt {X : List Byte} (h : X.length < 2 ^ 32) :
    compressBits X = .ok (X.map (derive (build (count X))).get).flatten := by
  obtain ⟨hcode, -⟩ := derivedCodesAreACompletePrefixCode (count X)
  exact encodeBits_ok _ X 0 fun x hx => (hcode x).mpr ((get_count_ne_zero_iff h).mpr hx)

/-- A sum over the bytes of a list is the sum over its symbols, each by its count. -/
theorem sum_map_eq_sum_symbols {X : List Byte} (h : X.length < 2 ^ 32) (f : Byte → Nat) :
    (X.map f).sum = ((symbols (count X)).map fun x => ((count X).get x).toNat * f x).sum := by
  have hsymbols : X.toFinset = (symbols (count X)).toFinset := by
    ext x
    rw [List.mem_toFinset, List.mem_toFinset, mem_symbols, get_count_ne_zero_iff h]
  calc (X.map f).sum
    _ = ∑ x ∈ X.toFinset, X.count x • f x := Finset.sum_list_map_count X f
    _ = ∑ x ∈ (symbols (count X)).toFinset, ((count X).get x).toNat * f x := by
      simp only [hsymbols, toNat_get_count h, smul_eq_mul]
    _ = _ := List.sum_toFinset _ (symbols_nodup _)

theorem length_flatten_codes (C : CodeTable) (X : List Byte) :
    (X.map C.get).flatten.length = (X.map fun x => (C.get x).length).sum := by
  rw [List.length_flatten, List.map_map]
  rfl

/-- A code has at most 255 bits (R181). -/
theorem length_flatten_codes_le (F : FreqTable) (X : List Byte) :
    (X.map (derive (build F)).get).flatten.length ≤ X.length * 255 := by
  obtain ⟨-, hlen, -⟩ := derivedCodesAreACompletePrefixCode F
  have hsum := List.sum_le_card_nsmul (X.map fun x => ((derive (build F)).get x).length) 255 fun n hn => by
    obtain ⟨x, -, rfl⟩ := List.mem_map.mp hn
    exact hlen x
  rwa [List.length_map, smul_eq_mul, ← length_flatten_codes] at hsum

/-! ## The round trip -/

/-- The codes of present symbols are read back by the walk of their tree (R261, R267). -/
theorem walk_build_flatten_codes {F : FreqTable} {X : List Byte} (h : ∀ x ∈ X, F.get x ≠ 0) :
    walk (build F) (X.map (derive (build F)).get).flatten = .ok X := by
  by_cases hS : symbols F = []
  · have hX : X = [] := List.eq_nil_iff_forall_not_mem.mpr fun x hx => by simpa [hS] using mem_symbols.mpr (h x hx)
    rw [build_of_symbols_nil hS, hX]
    rfl
  · obtain ⟨n, hbuild, hinner, -, hleaves, -⟩ := exists_build_root_over_symbols hS
    have hn : ∀ x w, n ≠ .leaf x w := by
      rintro x w rfl
      exact absurd hinner (Nat.lt_irrefl 0)
    rw [hbuild]
    refine walkFrom_of_readsAs hn 0 ⟨X.map fun x => (x, (derive (.root n)).get x), ?paths, ?symbols, ?bits⟩
    case paths => exact List.forall_mem_map.mpr fun x hx => follow_get_derive_of_present hleaves (h x hx)
    case symbols => rw [List.map_map]; exact (List.map_id' X).symm
    case bits => rw [List.map_map]; rfl

/-- IN_MEM that holds the bytes of `B` from offset 0 on is read as `B` (R77). -/
theorem inBytes_eq_of_get? {s : State} {B : List Byte} (h : ∀ a, a < B.length → Memory.get? s.inMem a = B[a]?) :
    s.inBytes B.length = B := by
  refine List.ext_getElem (length_inBytes s _) fun a _ ha => ?_
  simp [State.inBytes, State.inByte, h a ha, List.getElem?_eq_getElem ha]

/-- The first two steps of DECOMPRESS on an artifact give its table and its bits (R205, R235, R265). -/
theorem decompressHeader_of_artifact {s : State} {F : FreqTable} {b : BitSeq} (hin : s.inLen.toNat ≤ s.params.capIn)
    (h : s.input = artifact F b) : decompressHeader s = .ok (F, (serialize F).length, b) := by
  have hparse : parse s.input = .ok (F, (serialize F).length) :=
    (congrArg parse h).trans (parseOfSerializeIsTheTable F (pack b))
  rw [decompressHeader_of_parse_ok hin hparse, h, artifact, List.drop_left, unpack_pack]
  rfl

/-- What a COMPRESS without error leaves in the output. -/
theorem outMem_outLen_of_compress {s t : State} (h : exec .compress s = .next t) (ht : t.err = false) :
    let A := artifact (count s.input) (inputCodeBits s)
    A.length ≤ s.params.capOut ∧ t.outMem = cellsFrom 0 A ∧ t.outLen = BitVec.ofNat 32 A.length := by
  obtain ⟨-, hexec⟩ | ⟨-, e, -, hexec⟩ | ⟨-, A, n, hA, hexec⟩ := execCompress_cases s
  all_goals obtain rfl := Host.Outcome.next.inj (h.symm.trans hexec)
  · cases ht
  · cases ht
  · obtain ⟨b, hb, rfl, -, hfits⟩ := compressOutput_ok hA
    obtain rfl := Except.ok.inj ((compressBits_input s).symm.trans hb)
    exact ⟨hfits, rfl, rfl⟩

/-! ## What COMPRESS and DECOMPRESS depend on -/

/-- Written bytes are read as they were written, whatever else the states hold. -/
theorem inBytes_congr {s r : State} {n : Nat}
    (h : ∀ a, a < n → ∃ b, Memory.get? s.inMem a = some b ∧ Memory.get? r.inMem a = some b) :
    r.inBytes n = s.inBytes n := by
  refine List.map_congr_left fun a ha => ?_
  obtain ⟨b, hs, hr⟩ := h a (List.mem_range.mp ha)
  rw [State.inByte, State.inByte, hs, hr]
  rfl

section
variable {s r : State} (hparams : r.params = s.params)
include hparams

theorem checkFits_congr (B : List Byte) : checkFits r B = checkFits s B := by
  rw [checkFits, checkFits, hparams]

theorem decompressOutput_congr (F : FreqTable) (b : BitSeq) : decompressOutput r F b = decompressOutput s F b := by
  simp only [decompressOutput, checkFits_congr hparams]

variable (hinput : r.input = s.input)
include hinput

theorem compressOutput_congr : compressOutput r = compressOutput s := by
  simp only [compressOutput, checkFits_congr hparams, hinput]

variable (hlen : r.inLen = s.inLen)
include hlen

theorem decompressHeader_congr : decompressHeader r = decompressHeader s := by
  simp only [decompressHeader, checkInLen, hparams, hinput, hlen]

end

/-- `r` has the parameters, IN_LEN, the input bytes and the error registers of `s`, which is in range. -/
structure SameJob (s r : State) : Prop where
  /-- The parameters agree. -/
  params : r.params = s.params
  /-- IN_LEN agrees. -/
  inLen : r.inLen = s.inLen
  /-- IN_LEN is within CAP_IN. -/
  in_range : s.inLen.toNat ≤ s.params.capIn
  /-- The input bytes agree. -/
  input : r.input = s.input
  /-- ERR agrees. -/
  err : r.err = s.err
  /-- ERR_CODE agrees. -/
  errCode : r.errCode = s.errCode
  /-- ERR_INFO agrees. -/
  errInfo : r.errInfo = s.errInfo

theorem SameJob.in_range' {s r : State} (h : SameJob s r) : r.inLen.toNat ≤ r.params.capIn := by
  rw [h.inLen, h.params]
  exact h.in_range

/-- `u` shows the output, the lengths and the error registers of `t`. -/
def SameOutputs (t u : State) : Prop :=
  u.outMem = t.outMem ∧ u.outLen = t.outLen ∧ u.outBitlen = t.outBitlen ∧ u.hdrLen = t.hdrLen ∧ u.err = t.err ∧
    u.errCode = t.errCode ∧ u.errInfo = t.errInfo

theorem sameOutputs_failed (code : BitVec 4) (info : Word) (s r : State) :
    SameOutputs (failed code info (noArtifact s)) (failed code info (noArtifact r)) :=
  ⟨rfl, rfl, rfl, rfl, rfl, rfl, rfl⟩

theorem sameOutputs_finish (H n : Nat) (P : List Byte) {s r : State} (herr : r.err = s.err)
    (hcode : r.errCode = s.errCode) (hinfo : r.errInfo = s.errInfo) :
    SameOutputs (finish (writeHdrLen H (writeOutBitlen n (writeOut P s))))
      (finish (writeHdrLen H (writeOutBitlen n (writeOut P r)))) :=
  ⟨rfl, rfl, rfl, rfl, herr, hcode, hinfo⟩

section
variable {s r t u : State} (job : SameJob s r)
include job

theorem sameOutputs_compress (ht : exec .compress s = .next t) (hu : exec .compress r = .next u) : SameOutputs t u ∧
    u.freq = t.freq ∧ u.tree = t.tree ∧ u.codeValid = t.codeValid ∧ u.code = t.code := by
  have hcongr := compressOutput_congr job.params job.input
  have hcount : count r.input = count s.input := congrArg count job.input
  have htables : (commitCompress r).freq = (commitCompress s).freq ∧
      (commitCompress r).tree = (commitCompress s).tree ∧
      (commitCompress r).codeValid = (commitCompress s).codeValid ∧
      (commitCompress r).code = (commitCompress s).code := by
    simp [commitCompress, hcount]
  cases hs : compressOutput s with
  | error e =>
    obtain rfl := Host.Outcome.next.inj (ht.symm.trans (exec_compress_of_error job.in_range hs))
    obtain rfl := Host.Outcome.next.inj (hu.symm.trans (exec_compress_of_error job.in_range' (hcongr.trans hs)))
    exact ⟨sameOutputs_failed _ _ _ _, htables⟩
  | ok output =>
    obtain ⟨A, n⟩ := output
    obtain rfl := Host.Outcome.next.inj (ht.symm.trans (exec_compress_of_ok job.in_range hs))
    obtain rfl := Host.Outcome.next.inj (hu.symm.trans (exec_compress_of_ok job.in_range' (hcongr.trans hs)))
    rw [hcount]
    exact ⟨sameOutputs_finish _ _ _ job.err job.errCode job.errInfo, htables⟩

theorem sameOutputs_decompress (ht : exec .decompress s = .next t) (hu : exec .decompress r = .next u) :
    SameOutputs t u ∧ (t.err = false → u.freq = t.freq ∧ u.tree = t.tree ∧ u.codeValid = t.codeValid) := by
  have hcongr := decompressHeader_congr job.params job.input job.inLen
  cases hs : decompressHeader s with
  | error e =>
    obtain rfl := Host.Outcome.next.inj (ht.symm.trans (exec_decompress_of_header_error hs))
    obtain rfl := Host.Outcome.next.inj (hu.symm.trans (exec_decompress_of_header_error (hcongr.trans hs)))
    exact ⟨sameOutputs_failed _ _ _ _, nofun⟩
  | ok header =>
    obtain ⟨F, H, b⟩ := header
    have hcongr' := decompressOutput_congr job.params F b
    have hr := hcongr.trans hs
    cases hD : decompressOutput s F b with
    | error e =>
      obtain rfl := Host.Outcome.next.inj (ht.symm.trans (exec_decompress_of_error hs hD))
      obtain rfl := Host.Outcome.next.inj (hu.symm.trans (exec_decompress_of_error hr (hcongr'.trans hD)))
      exact ⟨sameOutputs_failed _ _ _ _, nofun⟩
    | ok D =>
      obtain rfl := Host.Outcome.next.inj (ht.symm.trans (exec_decompress_of_ok hs hD))
      obtain rfl := Host.Outcome.next.inj (hu.symm.trans (exec_decompress_of_ok hr (hcongr'.trans hD)))
      exact ⟨sameOutputs_finish _ _ _ job.err job.errCode job.errInfo, fun _ => ⟨rfl, rfl, rfl⟩⟩

end

/-! ## The statements -/

/-- Settles O58: each byte has a code of at most 255 bits, and the sum over the bytes is a sum over the symbols. -/
theorem encodedBitLengthIsTheWeightedCodeLength : Obligations.EncodedBitLengthIsTheWeightedCodeLength := by
  intro X hX F C
  have hlt : X.length < 2 ^ 32 := by omega
  have hle : (X.map C.get).flatten.length ≤ X.length * 255 := length_flatten_codes_le F X
  refine ⟨compressBits_of_length_lt hlt, ?_, by omega, length_artifact F _⟩
  rw [length_flatten_codes, sum_map_eq_sum_symbols hlt]

/-- Settles O59: the header parses back to the table, and its tree walks the codes back to the input. -/
theorem decompressOfCompressIsTheInput : Obligations.DecompressOfCompressIsTheInput := by
  intro s t r hwf hin _ h ht hparams hrlen htlen hbytes hout
  obtain ⟨hfits, hmem, hlen⟩ := outMem_outLen_of_compress h ht
  generalize hA : artifact (count s.input) (inputCodeBits s) = A at hfits hmem hlen
  obtain ⟨-, -, -, hcapOut, -⟩ := hwf
  have hAlen : t.outLen.toNat = A.length := by
    rw [hlen, BitVec.toNat_ofNat, Nat.mod_eq_of_lt (by omega)]
  have hinput : r.input = A := by
    rw [State.input, hrlen, hAlen]
    exact inBytes_eq_of_get? fun a ha => by rw [hbytes a (hAlen ▸ ha), hmem, get?_cellsFrom_zero]
  have hheader : decompressHeader r = .ok (count s.input, _, inputCodeBits s) :=
    decompressHeader_of_artifact (by rwa [hrlen, hparams]) (hinput.trans hA.symm)
  have hwalk : walk (build (count s.input)) (inputCodeBits s) = .ok s.input :=
    walk_build_flatten_codes fun x hx => (get_count_ne_zero_iff (length_input_lt s)).mpr hx
  have hD : s.input.length ≤ r.params.capOut := by rwa [hparams, State.input, length_inBytes]
  refine ⟨_, exec_decompress_of_ok hheader (decompressOutput_of_fits hwalk hD), rfl, rfl, ?outLen, fun a ha => ?outMem⟩
  case outLen =>
    show BitVec.ofNat 32 s.input.length = s.inLen
    simp [State.input]
  case outMem =>
    show Memory.get? (cellsFrom 0 s.input) a = _
    rw [get?_cellsFrom_zero]
    simp [State.input, State.inBytes, ha]

/-- Settles O60: the two commands' checks and outputs are functions of the parameters, IN_LEN and the input. -/
theorem compressAndDecompressIgnoreHistory : Obligations.CompressAndDecompressIgnoreHistory := by
  intro i s r t u hi hparams hlen hin hbytes hserr hscode hsinfo hrerr hrcode hrinfo ht hu
  have job : SameJob s r :=
    { params := hparams
      inLen := hlen
      in_range := hin
      input := by rw [State.input, hlen]; exact inBytes_congr hbytes
      err := hrerr.trans hserr.symm
      errCode := hrcode.trans hscode.symm
      errInfo := hrinfo.trans hsinfo.symm }
  obtain rfl | rfl := hi
  · obtain ⟨⟨hmem, hlen, hbitlen, hhdr, herr, hcode, hinfo⟩, hfreq, htree, hvalid, hC⟩ := sameOutputs_compress job ht hu
    exact ⟨hmem, hlen, hbitlen, hhdr, herr, hcode, hinfo, fun _ => ⟨hfreq, htree, hvalid⟩, fun _ => hC⟩
  · obtain ⟨⟨hmem, hlen, hbitlen, hhdr, herr, hcode, hinfo⟩, htables⟩ := sameOutputs_decompress job ht hu
    exact ⟨hmem, hlen, hbitlen, hhdr, herr, hcode, hinfo, fun h => htables (h.resolve_left nofun), nofun⟩

end Sys2Proof.Machine
end
